-- ==== Sys2Proof/Word.lean ====
section
/-! DEFINITION. Word widths (00_scope.md R11, R12), the stream selector (30_encoding.md R81) and the
segment descriptor (30_encoding.md R83). -/

namespace Sys2Proof

/-- One byte of a stream, a payload or the command port (R12). -/
abbrev Byte := BitVec 8
/-- A 16-bit word: a window size (R11). -/
abbrev U16 := BitVec 16
/-- A 32-bit word: a wrapped sequence number, a port word (R11). -/
abbrev U32 := BitVec 32
/-- A 64-bit word: an absolute sequence number, a stream index, a counter, a millisecond count,
an operand word (R11). -/
abbrev U64 := BitVec 64

/-- `b2n(flag)` of R12: 1 for true and 0 for false. -/
def b2n : Bool → Nat
  | true => 1
  | false => 0

/-- The stream select field SEL of a command word (R81): 0 = IN, 1 = OUT. -/
inductive Sel where
  /-- SEL = 0: the inbound stream IN. -/
  | inbound
  /-- SEL = 1: the outbound stream OUT. -/
  | outbound
  deriving DecidableEq, Repr

/-- A segment descriptor SD with its payload (R83). PLEN, W2[31:16], is the payload's length; `rsvd`
is W3[31:5], which must be 0 on input and is 0 on output. -/
structure Sd where
  /-- W0: SEQNO of the sender part. -/
  seqno : U32
  /-- W1: ACKNO of the receiver part, a value when `akv`. -/
  ackno : U32
  /-- W2[15:0]: WINDOW of the receiver part. -/
  window : U16
  /-- W3[0]: SYN of the sender part. -/
  syn : Bool
  /-- W3[1]: FIN of the sender part. -/
  fin : Bool
  /-- W3[2]: RST of the sender part. -/
  rstS : Bool
  /-- W3[3]: an ackno is present. -/
  akv : Bool
  /-- W3[4]: RST of the receiver part. -/
  rstR : Bool
  /-- W3[31:5]: reserved. -/
  rsvd : BitVec 27
  /-- The PLEN payload bytes, in index order. -/
  payload : List Byte
  deriving DecidableEq, Repr

end Sys2Proof
end

