-- ==== Sys2Proof/Config.lean ====
section
/-! DEFINITION. The configuration parameters of 00_scope.md R10, which reset latches. Every parameter
is an argument of the model (R6): nothing but `Config.default` names a default value. -/

namespace Sys2Proof

/-- FIN_ACK_ON (R10, 43_receiver.md R196): what counts the inbound FIN in the ackno. -/
inductive FinAckOn where
  /-- 0: the FIN counts once IN is finished. -/
  | finished
  /-- 1: the FIN counts once IN is closed. -/
  | closed
  deriving DecidableEq, Repr

/-- POP_POLICY (R10, 41_bytestream.md R131): a pop beyond the buffered bytes. -/
inductive PopPolicy where
  /-- 0: the pop is clamped to what is buffered. -/
  | clamp
  /-- 1: the pop enters the fault state with cause 2. -/
  | fault
  deriving DecidableEq, Repr

/-- The parameters of R10. Each width is the parameter's legal range; the one range a width does not
say, INITIAL_RTO ≥ 1, is `Config.legal`. WINDOW_CAP, whose only legal value is 65535, is
`Config.windowCap`. -/
structure Config where
  capIn : U64
  capOut : U64
  initialRto : U32
  isn : U32
  maxPayload : U16
  maxRetx : U32
  maxDataLen : U32
  hasPeer : Bool
  finAckOn : FinAckOn
  popPolicy : PopPolicy
  deriving DecidableEq, Repr

/-- WINDOW_CAP (R10): "65535 only". -/
def Config.windowCap (_ : Config) : U16 := 65535

/-- The configuration lies in the ranges of R10 (70_reset_and_hazards.md R342). -/
def Config.legal (c : Config) : Bool := c.initialRto != 0

/-- The defaults of R10. The source gives ISN no default: 0 here is a DESIGN CHOICE (log entry 1), and
no statement rests on it. -/
def Config.default : Config where
  capIn := 64000
  capOut := 64000
  initialRto := 1000
  isn := 0
  maxPayload := 1000
  maxRetx := 8
  maxDataLen := 65535
  hasPeer := true
  finAckOn := .finished
  popPolicy := .clamp

/-- MTC_BASE (20_memory.md R67): where the platform places the block. The spec leaves it open and no
rule reads it, so it has no value here and no definition reads it (log entry 14). -/
opaque Config.mtcBase : Nat

end Sys2Proof
end

