-- ==== Sys2Proof/Syntax.lean ====
section
/-! DEFINITION. The commands of the block: one constructor per row of the opcode map, 30_encoding.md
R86. A constructor carries what the command's operands say (R82, R88); the must-be-0 bits of CMD
(R81) are not part of a command: a word that sets one is rejected where it is decoded. -/

namespace Sys2Proof

/-- A command with its operands (R86). DLEN and PLEN are the lengths of the byte sequences. -/
inductive Instr where
  /-- 0x01 SQ.WRAP, A = n, B = zero (40_sequence.md R110). -/
  | sqWrap (a b : U64)
  /-- 0x02 SQ.UNWRAP, A = raw, B = zero, C = checkpoint (R111). -/
  | sqUnwrap (a b c : U64)
  /-- 0x10 BS.PUSH, SEL, DATA (41_bytestream.md R135). -/
  | bsPush (sel : Sel) (data : List Byte)
  /-- 0x11 BS.CLOSE, SEL (R136). -/
  | bsClose (sel : Sel)
  /-- 0x12 BS.SETERR, SEL (R137). -/
  | bsSeterr (sel : Sel)
  /-- 0x13 BS.PEEK, SEL (R133). -/
  | bsPeek (sel : Sel)
  /-- 0x14 BS.POP, SEL, A = n (R138). -/
  | bsPop (sel : Sel) (n : U64)
  /-- 0x20 RA.INSERT, LAST, A = first_index, DATA (42_reassembler.md R160). -/
  | raInsert (last : Bool) (first : U64) (data : List Byte)
  /-- 0x30 RX.RECV, SD (43_receiver.md R190). -/
  | rxRecv (sd : Sd)
  /-- 0x31 RX.SEND (R195). -/
  | rxSend
  /-- 0x40 TX.PUSH (44_sender.md R210). -/
  | txPush
  /-- 0x41 TX.RECV, SD (R217). -/
  | txRecv (sd : Sd)
  /-- 0x42 TX.TICK, A = ms (R224). -/
  | txTick (ms : U64)
  /-- 0x43 TX.EMPTY (R226). -/
  | txEmpty
  /-- 0x50 PR.RECV, SD (45_peer.md R251). -/
  | prRecv (sd : Sd)
  /-- 0x51 PR.PUSH (R256). -/
  | prPush
  /-- 0x52 PR.TICK, A = ms (R257). -/
  | prTick (ms : U64)
  /-- 0x70 RDREG, A = register address (46_register_access.md R280). -/
  | rdreg (addr : U64)
  deriving DecidableEq, Repr

end Sys2Proof
end

