-- ==== Sys2Proof/WellFormed.lean ====
section
/-! DEFINITION. Which commands a transaction can carry: a byte sequence fits its length field
(30_encoding.md R82, R83, R88: DLEN has 32 bits, PLEN has 16). Every other operand is bounded by its
type. A length above MAX_DATA_LEN is well formed: the command itself answers ERR_OPERAND. -/

namespace Sys2Proof

/-- DATA fits the 32-bit DLEN (R82). -/
def dataFits (data : List Byte) : Bool := decide (data.length < 2 ^ 32)

/-- The payload fits the 16-bit PLEN (R83). -/
def Sd.fits (sd : Sd) : Bool := decide (sd.payload.length < 2 ^ 16)

/-- The command can be carried by a transaction of its format. -/
def Instr.wellFormed : Instr → Bool
  | .bsPush _ data => dataFits data
  | .raInsert _ _ data => dataFits data
  | .rxRecv sd => sd.fits
  | .txRecv sd => sd.fits
  | .prRecv sd => sd.fits
  | .sqWrap _ _ => true
  | .sqUnwrap _ _ _ => true
  | .bsClose _ => true
  | .bsSeterr _ => true
  | .bsPeek _ => true
  | .bsPop _ _ => true
  | .rxSend => true
  | .txPush => true
  | .txTick _ => true
  | .txEmpty => true
  | .prPush => true
  | .prTick _ => true
  | .rdreg _ => true

end Sys2Proof
end

