-- ==== Sys2Proof/Decode.lean ====
section
/-! DEFINITION. The transaction format of 30_encoding.md: the decoder, total on any bytes, and after
it the encoder. Byte order: 20_memory.md R63 (little-endian words, low word first, data in index
order). -/

namespace Sys2Proof

/-! ## Byte order (20_memory.md R63) -/

/-- The 32-bit word of four bytes, least significant first. -/
def word32 (b0 b1 b2 b3 : Byte) : U32 := b3 ++ b2 ++ b1 ++ b0

/-- The bytes of a 32-bit word, least significant first. -/
def bytes32 (w : U32) : List Byte :=
  [w.extractLsb' 0 8, w.extractLsb' 8 8, w.extractLsb' 16 8, w.extractLsb' 24 8]

/-- The bytes of a 64-bit operand: its low word, then its high word. -/
def bytes64 (w : U64) : List Byte := bytes32 (w.extractLsb' 0 32) ++ bytes32 (w.extractLsb' 32 32)

/-- Take one 32-bit word from the head of a byte sequence. -/
def take32 : List Byte → Option (U32 × List Byte)
  | b0 :: b1 :: b2 :: b3 :: rest => some (word32 b0 b1 b2 b3, rest)
  | _ => none

/-- Take one 64-bit operand word, low word first. -/
def take64 (bs : List Byte) : Option (U64 × List Byte) := do
  let (lo, bs) ← take32 bs
  let (hi, bs) ← take32 bs
  return (hi ++ lo, bs)

/-- Take `n` data bytes. -/
def takeBytes (n : Nat) (bs : List Byte) : Option (List Byte × List Byte) :=
  if n ≤ bs.length then some (bs.take n, bs.drop n) else none

/-- Take DLEN and DATA[DLEN] (R82, formats D and AD). -/
def takeData (bs : List Byte) : Option (List Byte × List Byte) := do
  let (dlen, bs) ← take32 bs
  takeBytes dlen.toNat bs

/-- The descriptor of the four words and the payload (R83). -/
def Sd.ofWords (w0 w1 w2 w3 : U32) (payload : List Byte) : Sd where
  seqno := w0
  ackno := w1
  window := w2.extractLsb' 0 16
  syn := w3.getLsbD 0
  fin := w3.getLsbD 1
  rstS := w3.getLsbD 2
  akv := w3.getLsbD 3
  rstR := w3.getLsbD 4
  rsvd := w3.extractLsb' 5 27
  payload := payload

/-- Take the four words of a descriptor and its PLEN = W2[31:16] payload bytes (R82, R83, format S). -/
def takeSd (bs : List Byte) : Option (Sd × List Byte) := do
  let (w0, bs) ← take32 bs
  let (w1, bs) ← take32 bs
  let (w2, bs) ← take32 bs
  let (w3, bs) ← take32 bs
  let (payload, bs) ← takeBytes (w2.extractLsb' 16 16).toNat bs
  return (Sd.ofWords w0 w1 w2 w3 payload, bs)

/-! ## The opcode map (R86, R87) -/

/-- The defined opcodes, in the order of R86. -/
inductive Opcode where
  | sqWrap | sqUnwrap
  | bsPush | bsClose | bsSeterr | bsPeek | bsPop
  | raInsert
  | rxRecv | rxSend
  | txPush | txRecv | txTick | txEmpty
  | prRecv | prPush | prTick
  | rdreg
  deriving DecidableEq, Repr

/-- The opcodes of R86, in its order. -/
def Opcode.all : List Opcode :=
  [.sqWrap, .sqUnwrap, .bsPush, .bsClose, .bsSeterr, .bsPeek, .bsPop, .raInsert, .rxRecv, .rxSend,
   .txPush, .txRecv, .txTick, .txEmpty, .prRecv, .prPush, .prTick, .rdreg]

/-- The OPC column of R86. -/
def Opcode.code : Opcode → Byte
  | .sqWrap => 0x01
  | .sqUnwrap => 0x02
  | .bsPush => 0x10
  | .bsClose => 0x11
  | .bsSeterr => 0x12
  | .bsPeek => 0x13
  | .bsPop => 0x14
  | .raInsert => 0x20
  | .rxRecv => 0x30
  | .rxSend => 0x31
  | .txPush => 0x40
  | .txRecv => 0x41
  | .txTick => 0x42
  | .txEmpty => 0x43
  | .prRecv => 0x50
  | .prPush => 0x51
  | .prTick => 0x52
  | .rdreg => 0x70

/-- The opcode of an OPC value; `none` is an undefined opcode (R89). -/
def Opcode.ofCode (opc : Byte) : Option Opcode := Opcode.all.find? (fun o => o.code == opc)

/-- `match` of R87: the OPC, zero-extended. -/
def Opcode.matchWord (o : Opcode) : U32 := o.code.zeroExtend 32

/-- `mask` of R87: SEL is free for 0x10 to 0x14, LAST for 0x20, nothing else. -/
def Opcode.mask : Opcode → U32
  | .bsPush => 0xFFFFFEFF
  | .bsClose => 0xFFFFFEFF
  | .bsSeterr => 0xFFFFFEFF
  | .bsPeek => 0xFFFFFEFF
  | .bsPop => 0xFFFFFEFF
  | .raInsert => 0xFFFFFDFF
  | .sqWrap => 0xFFFFFFFF
  | .sqUnwrap => 0xFFFFFFFF
  | .rxRecv => 0xFFFFFFFF
  | .rxSend => 0xFFFFFFFF
  | .txPush => 0xFFFFFFFF
  | .txRecv => 0xFFFFFFFF
  | .txTick => 0xFFFFFFFF
  | .txEmpty => 0xFFFFFFFF
  | .prRecv => 0xFFFFFFFF
  | .prPush => 0xFFFFFFFF
  | .prTick => 0xFFFFFFFF
  | .rdreg => 0xFFFFFFFF

/-- CMD selects the row (R87): no must-be-0 bit is set. -/
def Opcode.selects (o : Opcode) (cmd : U32) : Bool := cmd &&& o.mask == o.matchWord

/-- The PRU's opcodes 0x50 to 0x52 (R89). -/
def Opcode.isPeer : Opcode → Bool
  | .prRecv => true
  | .prPush => true
  | .prTick => true
  | _ => false

/-- CMD[8], the stream select (R81). -/
def cmdSel (cmd : U32) : Sel := if cmd.getLsbD 8 then .outbound else .inbound

/-- CMD[9], LAST (R81). -/
def cmdLast (cmd : U32) : Bool := cmd.getLsbD 9

/-! ## The decoder -/

/-- The operands of an opcode's format (R82), after CMD; `none` when they are not all there. -/
def decodeOperands (o : Opcode) (cmd : U32) (bs : List Byte) : Option (Instr × List Byte) :=
  match o with
  | .sqWrap => do
    let (a, bs) ← take64 bs
    let (b, bs) ← take64 bs
    return (.sqWrap a b, bs)
  | .sqUnwrap => do
    let (a, bs) ← take64 bs
    let (b, bs) ← take64 bs
    let (c, bs) ← take64 bs
    return (.sqUnwrap a b c, bs)
  | .bsPush => do
    let (data, bs) ← takeData bs
    return (.bsPush (cmdSel cmd) data, bs)
  | .bsClose => some (.bsClose (cmdSel cmd), bs)
  | .bsSeterr => some (.bsSeterr (cmdSel cmd), bs)
  | .bsPeek => some (.bsPeek (cmdSel cmd), bs)
  | .bsPop => do
    let (n, bs) ← take64 bs
    return (.bsPop (cmdSel cmd) n, bs)
  | .raInsert => do
    let (first, bs) ← take64 bs
    let (data, bs) ← takeData bs
    return (.raInsert (cmdLast cmd) first data, bs)
  | .rxRecv => do
    let (sd, bs) ← takeSd bs
    return (.rxRecv sd, bs)
  | .rxSend => some (.rxSend, bs)
  | .txPush => some (.txPush, bs)
  | .txRecv => do
    let (sd, bs) ← takeSd bs
    return (.txRecv sd, bs)
  | .txTick => do
    let (ms, bs) ← take64 bs
    return (.txTick ms, bs)
  | .txEmpty => some (.txEmpty, bs)
  | .prRecv => do
    let (sd, bs) ← takeSd bs
    return (.prRecv sd, bs)
  | .prPush => some (.prPush, bs)
  | .prTick => do
    let (ms, bs) ← take64 bs
    return (.prTick ms, bs)
  | .rdreg => do
    let (addr, bs) ← take64 bs
    return (.rdreg addr, bs)

/-- What stands at the head of the command port. -/
inductive Decoded where
  /-- A whole transaction of a row of R86, and the bytes after it. -/
  | command (i : Instr) (rest : List Byte)
  /-- A whole transaction of a defined opcode whose CMD sets a must-be-0 bit (R81), and the bytes
  after it: the port consumes the whole transaction (60_exceptions.md R301). -/
  | reservedBits (o : Opcode) (rest : List Byte)
  /-- A CMD word whose OPC is undefined (R89), and the bytes after that word: the port consumes only
  the word (R301). -/
  | undefinedOpcode (opc : Byte) (rest : List Byte)
  /-- Not yet a whole transaction: the block waits for the rest of it (R80). -/
  | incomplete
  deriving DecidableEq, Repr

/-- Read one transaction from the head of a byte sequence (R80). -/
def decode (bs : List Byte) : Decoded :=
  match take32 bs with
  | none => .incomplete
  | some (cmd, bs) =>
    match Opcode.ofCode (cmd.extractLsb' 0 8) with
    | none => .undefinedOpcode (cmd.extractLsb' 0 8) bs
    | some o =>
      match decodeOperands o cmd bs with
      | none => .incomplete
      | some (i, bs) => if o.selects cmd then .command i bs else .reservedBits o bs

/-! ## The encoder -/

/-- The opcode of a command (R86). -/
def Instr.opcode : Instr → Opcode
  | .sqWrap _ _ => .sqWrap
  | .sqUnwrap _ _ _ => .sqUnwrap
  | .bsPush _ _ => .bsPush
  | .bsClose _ => .bsClose
  | .bsSeterr _ => .bsSeterr
  | .bsPeek _ => .bsPeek
  | .bsPop _ _ => .bsPop
  | .raInsert _ _ _ => .raInsert
  | .rxRecv _ => .rxRecv
  | .rxSend => .rxSend
  | .txPush => .txPush
  | .txRecv _ => .txRecv
  | .txTick _ => .txTick
  | .txEmpty => .txEmpty
  | .prRecv _ => .prRecv
  | .prPush => .prPush
  | .prTick _ => .prTick
  | .rdreg _ => .rdreg

/-- The SEL bit of CMD (R81). -/
def selBit : Sel → U32
  | .inbound => 0
  | .outbound => 0x100

/-- The LAST bit of CMD (R81). -/
def lastBit : Bool → U32
  | false => 0
  | true => 0x200

/-- The free bits of a command's CMD word: SEL or LAST, else 0 (R81). -/
def Instr.cmdBits : Instr → U32
  | .bsPush sel _ => selBit sel
  | .bsClose sel => selBit sel
  | .bsSeterr sel => selBit sel
  | .bsPeek sel => selBit sel
  | .bsPop sel _ => selBit sel
  | .raInsert last _ _ => lastBit last
  | .sqWrap _ _ => 0
  | .sqUnwrap _ _ _ => 0
  | .rxRecv _ => 0
  | .rxSend => 0
  | .txPush => 0
  | .txRecv _ => 0
  | .txTick _ => 0
  | .txEmpty => 0
  | .prRecv _ => 0
  | .prPush => 0
  | .prTick _ => 0
  | .rdreg _ => 0

/-- The command word CMD (R81). -/
def Instr.cmd (i : Instr) : U32 := i.opcode.matchWord ||| i.cmdBits

/-- DLEN and DATA (R82). -/
def bytesData (data : List Byte) : List Byte := bytes32 (BitVec.ofNat 32 data.length) ++ data

/-- Word W2 of a descriptor: WINDOW and PLEN (R83). -/
def Sd.w2 (sd : Sd) : U32 := BitVec.ofNat 16 sd.payload.length ++ sd.window

/-- Word W3 of a descriptor: the flags and the reserved bits (R83). -/
def Sd.w3 (sd : Sd) : U32 :=
  sd.rsvd ++ BitVec.ofBool sd.rstR ++ BitVec.ofBool sd.akv ++ BitVec.ofBool sd.rstS
    ++ BitVec.ofBool sd.fin ++ BitVec.ofBool sd.syn

/-- The descriptor's four words and its payload as bytes (R82, R83). -/
def bytesSd (sd : Sd) : List Byte :=
  bytes32 sd.seqno ++ bytes32 sd.ackno ++ bytes32 sd.w2 ++ bytes32 sd.w3 ++ sd.payload

/-- The operand bytes of a command, in the order of its format (R82). -/
def Instr.operandBytes : Instr → List Byte
  | .sqWrap a b => bytes64 a ++ bytes64 b
  | .sqUnwrap a b c => bytes64 a ++ bytes64 b ++ bytes64 c
  | .bsPush _ data => bytesData data
  | .bsClose _ => []
  | .bsSeterr _ => []
  | .bsPeek _ => []
  | .bsPop _ n => bytes64 n
  | .raInsert _ first data => bytes64 first ++ bytesData data
  | .rxRecv sd => bytesSd sd
  | .rxSend => []
  | .txPush => []
  | .txRecv sd => bytesSd sd
  | .txTick ms => bytes64 ms
  | .txEmpty => []
  | .prRecv sd => bytesSd sd
  | .prPush => []
  | .prTick ms => bytes64 ms
  | .rdreg addr => bytes64 addr

/-- The transaction of a well-formed command, as bytes of the port (R80, R82). -/
def encode (i : Instr) : List Byte := bytes32 i.cmd ++ i.operandBytes

/-! ## One row of the opcode table -/

/-- The bytes of the longest transaction whose length fields are 0: CMD, A, B and C (R82). -/
def longestZeroTransaction : Nat := 28

/-- The low `nbits` bits of `w` as port bytes, bit 0 the least significant bit of the first, and
zero bytes up to the longest transaction. -/
def tableBytes (nbits w : Nat) : List Byte :=
  (List.range longestZeroTransaction).map fun k => BitVec.ofNat 8 ((w % 2 ^ nbits) >>> (8 * k))

/-- The command the decoder reads from a row's bits `w` with operand words of zeros. -/
def decodeTableWord (nbits w : Nat) : Option Instr :=
  match decode (tableBytes nbits w) with
  | .command i _ => some i
  | _ => none

/-- Exactly the bytes of the one transaction that `w` with operand words of zeros begins. -/
def tableTransaction (nbits w : Nat) : List Byte :=
  let bs := tableBytes nbits w
  match decode bs with
  | .command _ rest => bs.take (bs.length - rest.length)
  | .reservedBits _ rest => bs.take (bs.length - rest.length)
  | .undefinedOpcode _ rest => bs.take (bs.length - rest.length)
  | .incomplete => bs

end Sys2Proof
end

