-- ==== Sys2Proof/Machine/State.lean ====
section
/-! DEFINITION. The state of the block (10_state.md), the response of a command (00_scope.md R8), and
the reset values (10_state.md R46, 70_reset_and_hazards.md R340). -/

namespace Sys2Proof.Machine

/-! ## The stores and units -/

/-- A partial map from stream index to byte: the reassembler's pending store (10_state.md R26). It is a
list with strictly rising indexes (`Memory.wf`); an index that is not listed is not pending, so there
is no value that an entry could repeat. The block has no other sparse store and no addressable memory
(20_memory.md R60). -/
abbrev Memory := List Host.Cell

/-- A byte stream, IN or OUT (10_state.md R23). -/
structure Stream where
  /-- The most bytes that can be buffered, fixed at reset. -/
  capacity : U64
  /-- The bytes pushed and not popped, oldest first. -/
  buf : List Byte
  /-- The number of bytes ever pushed. -/
  bytesPushed : U64
  /-- The number of bytes ever popped. -/
  bytesPopped : U64
  /-- No more pushes will occur. -/
  closed : Bool
  /-- Abnormal termination. -/
  error : Bool
  deriving DecidableEq, Repr

/-- The reassembler RA (R26). -/
structure Reassembler where
  /-- The bytes not yet contiguous with the stream, by absolute stream index. -/
  pending : Memory
  /-- The first byte not yet delivered. -/
  nextIndex : U64
  /-- The index one past the final byte, once known. -/
  endIndex : Option U64
  deriving DecidableEq, Repr

/-- The receiver RX (R28). -/
structure Receiver where
  /-- The SYN has been seen. -/
  synSeen : Bool
  /-- The seqno of the first segment that carried SYN; meaningful only when `synSeen`. -/
  zeroPoint : U32
  deriving DecidableEq, Repr

/-- A sender message SM (00_scope.md R17). -/
structure SenderMessage where
  seqno : U32
  syn : Bool
  payload : List Byte
  fin : Bool
  rst : Bool
  deriving DecidableEq, Repr

/-- A receiver message RM (00_scope.md R17). -/
structure ReceiverMessage where
  ackno : Option U32
  windowSize : U16
  rst : Bool
  deriving DecidableEq, Repr

/-- An entry of the sender's outstanding queue (10_state.md R30). -/
structure OutEntry where
  /-- TX.bytes_sent when the message was emitted. -/
  absSeqno : U64
  /-- The message as it was emitted. -/
  sm : SenderMessage
  deriving DecidableEq, Repr

/-- The sender TX (R29). -/
structure Sender where
  /-- The ISN. -/
  zeroPoint : U32
  /-- Sequence numbers already sent. -/
  bytesSent : U64
  /-- Sequence numbers already acknowledged. -/
  bytesAcked : U64
  /-- The unacknowledged messages, oldest first. -/
  outstanding : List OutEntry
  /-- The receiver's last known window. -/
  windowSize : U16
  /-- The timer's elapsed time in ms. -/
  timerElapsed : U64
  /-- The current retransmission timeout in ms. -/
  rto : U64
  /-- The timer is running. -/
  timerRunning : Bool
  /-- Consecutive retransmissions. -/
  consecutiveRetx : U64
  /-- The SYN has entered the sequence space. -/
  synSent : Bool
  /-- The FIN has entered the sequence space. -/
  finSent : Bool
  deriving DecidableEq, Repr

/-- The peer PR (R32). Nothing reads it when HAS_PEER = 0 (00_scope.md R15; log entry 9). -/
structure Peer where
  linger : Bool
  cumulativeTimeMs : U64
  timeOfLastReceiptMs : U64
  deriving DecidableEq, Repr

/-- SYS.fault_cause (R33). -/
inductive FaultCause where
  /-- 0: no fault. -/
  | none
  /-- 1: a value for a 64-bit state field exceeds 2^64 − 1. -/
  | overflow
  /-- 2: a pop beyond the buffered bytes under POP_POLICY = FAULT. -/
  | popBeyond
  /-- 3: an invariant of R24, R27 or R31 would fail. -/
  | invariant
  deriving DecidableEq, Repr

/-- The fault state SYS (R33). -/
structure Sys where
  fault : Bool
  faultCause : FaultCause
  deriving DecidableEq, Repr

/-- The block state, the record `MTC` of R20. -/
structure Block where
  cfg : Config
  bsIn : Stream
  bsOut : Stream
  ra : Reassembler
  rx : Receiver
  tx : Sender
  pr : Peer
  sys : Sys
  deriving DecidableEq, Repr

/-! ## The response -/

/-- The status codes of 60_exceptions.md R300. -/
inductive Status where
  /-- 0x00: the command was performed. -/
  | ok
  /-- 0x01: undefined opcode. -/
  | errOpcode
  /-- 0x02: a must-be-0 bit is 1. -/
  | errRsvd
  /-- 0x03: the host does not own that side of the stream. -/
  | errOwner
  /-- 0x04: unmapped register address. -/
  | errReg
  /-- 0x05: an operand outside its range. -/
  | errOperand
  /-- 0x06: a PR command while HAS_PEER = 0. -/
  | errNopeer
  /-- 0x07: the command entered the fault state, or the block was in it. -/
  | fault
  deriving DecidableEq, Repr

/-- The response of a command (00_scope.md R8). As bytes: `Response.bytes`. -/
structure Response where
  status : Status
  r0 : U64
  rdata : List Byte
  rsd : Option Sd
  emit : List Sd
  deriving DecidableEq, Repr

/-! ## The machine state -/

/-- The block with its ports. `port`, `resetIn` and `resp` are the model's own fields: they hold what
stands on the command port, on the reset input and on the response port (log entries 2, 3 and 4). -/
structure State where
  /-- The block state (R20). -/
  block : Block
  /-- The bytes the host has put on the command port and the block has not consumed. -/
  port : List Byte
  /-- The reset input, with the configuration on the parameter inputs (70_reset_and_hazards.md R340). -/
  resetIn : Option Config
  /-- The response to the last command. -/
  resp : Option Response
  deriving DecidableEq, Repr

/-- Machine faults: there are none. The fault state of 60_exceptions.md R304 is a next state with
SYS.fault set, and every command completes (20_memory.md R70), so no step stops with a fault. An empty
type says so: no meaning can raise one. Safe. -/
inductive Fault where
  deriving DecidableEq, Repr

/-- Why a step has no meaning. -/
inductive Refusal where
  /-- Raised by an arm of `exec` whose instruction has no meaning yet; no arm raises it. Safe. -/
  | notModelled (mnemonic : String)
  /-- Raised by a step that takes a reset with a configuration outside the ranges of 00_scope.md R10:
  "What the block does with an out-of-range configuration is outside the model"
  (70_reset_and_hazards.md R342). Safe: the model stops where the hardware may do anything. -/
  | illegalConfig
  deriving DecidableEq, Repr

/-- The outcome of a step of this machine. -/
abbrev Result := Host.Outcome State Fault Refusal

/-! ## Reset -/

/-- A byte stream after reset (R46). -/
def Stream.reset (capacity : U64) : Stream where
  capacity := capacity
  buf := []
  bytesPushed := 0
  bytesPopped := 0
  closed := false
  error := false

/-- The block after a reset that presents the configuration `c` (R46). -/
def Block.reset (c : Config) : Block where
  cfg := c
  bsIn := Stream.reset c.capIn
  bsOut := Stream.reset c.capOut
  ra := { pending := [], nextIndex := 0, endIndex := none }
  rx := { synSeen := false, zeroPoint := 0 }
  tx :=
    { zeroPoint := c.isn, bytesSent := 0, bytesAcked := 0, outstanding := [], windowSize := 1,
      timerElapsed := 0, rto := c.initialRto.zeroExtend 64, timerRunning := false,
      consecutiveRetx := 0, synSent := false, finSent := false }
  pr := { linger := true, cumulativeTimeMs := 0, timeOfLastReceiptMs := 0 }
  sys := { fault := false, faultCause := .none }

/-- The machine after a reset that presents the configuration `c`: the block at its reset values, and
no partly delivered transaction on the port (70_reset_and_hazards.md R340). -/
def State.resetWith (c : Config) : State where
  block := Block.reset c
  port := []
  resetIn := none
  resp := none

/-- The machine right after reset, at the default configuration of 00_scope.md R10 with ISN 0 (log
entry 1). -/
def State.reset : State := State.resetWith Config.default

end Sys2Proof.Machine
end

