-- ==== Sys2Proof/Machine/Flags.lean ====
section
/-! DEFINITION. The derived values and the flag words: what 10_state.md R25 and R36 to R44 compute from
the state and hold nowhere. A difference of two counters is a natural number; where a state breaks the
invariants and it would be negative, it is 0 (log entry 11). -/

namespace Sys2Proof.Machine

/-! ## Byte streams (10_state.md R25, R38) -/

/-- `bytes_buffered(s)` (R25). -/
def Stream.buffered (s : Stream) : Nat := s.bytesPushed.toNat - s.bytesPopped.toNat

/-- `available_capacity(s)` (R25). -/
def Stream.available (s : Stream) : Nat := s.capacity.toNat - s.buffered

/-- `is_finished(s)` (R25). -/
def Stream.isFinished (s : Stream) : Bool := s.closed && s.bytesPushed == s.bytesPopped

/-- A register word of flags: the list's first element is bit 0, every bit past the list reads 0. -/
def flagWord : List Bool → Nat
  | [] => 0
  | b :: bs => b2n b + 2 * flagWord bs

/-- The STATUS register of a stream (R38): CLOSED, ERROR, FINISHED. -/
def Stream.statusWord (s : Stream) : U64 :=
  BitVec.ofNat 64 (flagWord [s.closed, s.error, s.isFinished])

/-! ## Messages and the sender (00_scope.md R17, 44_sender.md R211, R227, R228) -/

/-- The sequence length of a sender message (00_scope.md R17). -/
def SenderMessage.seqLen (m : SenderMessage) : Nat := b2n m.syn + m.payload.length + b2n m.fin

/-- The absolute sequence number one past an entry's message. -/
def OutEntry.endSeqno (e : OutEntry) : Nat := e.absSeqno.toNat + e.sm.seqLen

/-- `sequence_numbers_in_flight()` (R228). -/
def Sender.inFlight (t : Sender) : Nat := t.bytesSent.toNat - t.bytesAcked.toNat

/-- The effective window (R211): a window of 0 counts as 1. -/
def Sender.effWindow (t : Sender) : Nat := if t.windowSize = 0 then 1 else t.windowSize.toNat

/-- The window's right edge (R211). It may exceed 2^64 − 1. -/
def Sender.rightEdge (t : Sender) : Nat := t.bytesAcked.toNat + t.effWindow

/-- The give-up query (R227). -/
def giveUp (c : Config) (t : Sender) : Bool := decide (c.maxRetx.toNat < t.consecutiveRetx.toNat)

/-- TX_STATUS (10_state.md R42): TIMER_RUNNING, SYN_SENT, FIN_SENT, GIVE_UP. -/
def txStatusWord (c : Config) (t : Sender) : U64 :=
  BitVec.ofNat 64 (flagWord [t.timerRunning, t.synSent, t.finSent, giveUp c t])

/-! ## Receiver and peer (43_receiver.md R196, 45_peer.md R250) -/

/-- The inbound FIN counts (43_receiver.md R195 `fin_counted`, 45_peer.md R253 `inbound_finished`). -/
def Block.finCounted (b : Block) : Bool :=
  match b.cfg.finAckOn with
  | .finished => b.bsIn.isFinished
  | .closed => b.bsIn.closed

/-- The linger window of `active()` is open: fewer than 10 · INITIAL_RTO ms since the last receipt
(45_peer.md R250, R258). -/
def Block.lingering (b : Block) : Bool :=
  b.pr.linger &&
    decide (b.pr.cumulativeTimeMs.toNat - b.pr.timeOfLastReceiptMs.toNat < 10 * b.cfg.initialRto.toNat)

/-- `active()` (45_peer.md R250). -/
def Block.active (b : Block) : Bool :=
  !b.bsIn.error && !b.bsOut.error &&
    (decide (0 < b.tx.inFlight) || !b.bsOut.isFinished || !b.bsIn.closed || b.lingering)

/-- PR_STATUS (10_state.md R43): ACTIVE, LINGER. -/
def Block.prStatusWord (b : Block) : U64 := BitVec.ofNat 64 (flagWord [b.active, b.pr.linger])

/-! ## Configuration, reassembler and system words -/

/-- CFG_FLAGS (10_state.md R36): HAS_PEER, FIN_ACK_ON, POP_POLICY. -/
def cfgFlagsWord (c : Config) : U64 :=
  BitVec.ofNat 64 (flagWord [c.hasPeer, c.finAckOn == .closed, c.popPolicy == .fault])

/-- `bytes_pending()` (42_reassembler.md R164). -/
def Reassembler.bytesPending (r : Reassembler) : Nat := r.pending.length

/-- RA_STATUS (10_state.md R39): END_KNOWN. -/
def Reassembler.statusWord (r : Reassembler) : U64 := BitVec.ofNat 64 (flagWord [r.endIndex.isSome])

/-- RX_STATUS (10_state.md R40): SYN_SEEN. -/
def Receiver.statusWord (r : Receiver) : U64 := BitVec.ofNat 64 (flagWord [r.synSeen])

/-- SYS_STATUS (10_state.md R44): FAULT. -/
def Sys.statusWord (y : Sys) : U64 := BitVec.ofNat 64 (flagWord [y.fault])

/-- The 8-bit code of a fault cause (10_state.md R33). -/
def FaultCause.code : FaultCause → Byte
  | .none => 0
  | .overflow => 1
  | .popBeyond => 2
  | .invariant => 3

/-- The 8-bit code of a status (60_exceptions.md R300). -/
def Status.code : Status → Byte
  | .ok => 0x00
  | .errOpcode => 0x01
  | .errRsvd => 0x02
  | .errOwner => 0x03
  | .errReg => 0x04
  | .errOperand => 0x05
  | .errNopeer => 0x06
  | .fault => 0x07

end Sys2Proof.Machine
end

