-- ==== Sys2Proof/Machine/Invariants.lean ====
section
/-! DEFINITION. The invariants of 10_state.md R24, R27 and R31, as the check behind fault cause 3
(60_exceptions.md R304): a command after which one of them fails enters the fault state instead (log
entry 6). -/

namespace Sys2Proof.Machine

/-- R24: the buffer holds the bytes pushed and not popped, within the capacity. -/
def Stream.holds (s : Stream) : Bool :=
  decide (s.buf.length + s.bytesPopped.toNat = s.bytesPushed.toNat) &&
    decide (s.buffered ≤ s.capacity.toNat)

/-- R24: `closed` and `error` never change from true back to false. -/
def Stream.keepsFlags (before after : Stream) : Bool :=
  (!before.closed || after.closed) && (!before.error || after.error)

/-- R27 (a), (b), and of (c) that RA.next_index is at or past IN.bytes_pushed. The model's checker does not
test when the two are equal, which (c) ties to the past of the block (log entry 6). -/
def Reassembler.holds (r : Reassembler) (inn : Stream) : Bool :=
  r.pending.all (fun c =>
      decide (r.nextIndex.toNat < c.1) && decide (c.1 < r.nextIndex.toNat + inn.available)) &&
    decide (r.bytesPending + inn.buffered ≤ inn.capacity.toNat) &&
    decide (inn.bytesPushed.toNat ≤ r.nextIndex.toNat)

/-- The entries start at `n` and each next one starts where the one before it ends (R31). -/
def contiguousFrom : Nat → List OutEntry → Bool
  | _, [] => true
  | n, e :: es => decide (e.absSeqno.toNat = n) && contiguousFrom e.endSeqno es

/-- The total sequence length of a queue (R31). -/
def totalSeqLen : List OutEntry → Nat
  | [] => 0
  | e :: es => e.sm.seqLen + totalSeqLen es

/-- R31, in its order. -/
def Sender.holds (t : Sender) (out : Stream) : Bool :=
  decide (t.bytesAcked.toNat ≤ t.bytesSent.toNat) &&
    decide (totalSeqLen t.outstanding = t.inFlight) &&
    contiguousFrom t.bytesAcked.toNat t.outstanding &&
    (t.timerRunning == !t.outstanding.isEmpty) &&
    decide (t.bytesSent.toNat = b2n t.synSent + out.bytesPopped.toNat + b2n t.finSent) &&
    decide (t.inFlight ≤ 65535)

/-- The invariants of R24, R27 and R31 that speak of one state. -/
def Block.holds (b : Block) : Bool :=
  b.bsIn.holds && b.bsOut.holds && b.ra.holds b.bsIn && b.tx.holds b.bsOut

/-- The invariants of R24, R27 and R31 after a command that goes from `before` to `after`. -/
def invariantsHold (before after : Block) : Bool :=
  after.holds && before.bsIn.keepsFlags after.bsIn && before.bsOut.keepsFlags after.bsOut

end Sys2Proof.Machine
end

