-- ==== Sys2Proof/Machine/Operands.lean ====
section
/-! DEFINITION. The operand checks (30_encoding.md R88, 60_exceptions.md R302) and the two parts of a
segment descriptor (30_encoding.md R84, R85). -/

namespace Sys2Proof.Machine

/-! ## Range checks (R88, R302) -/

/-- Bits [63:32] of a u32 operand's word are 0 (R88). -/
def isU32 (w : U64) : Bool := w.extractLsb' 32 32 == 0

/-- The low 32 bits of an operand word. -/
def low32 (w : U64) : U32 := w.extractLsb' 0 32

/-- DLEN or PLEN is at most MAX_DATA_LEN (R88). -/
def lengthAllowed (c : Config) (data : List Byte) : Bool :=
  decide (data.length ≤ c.maxDataLen.toNat)

/-- The reserved bits W3[31:5] of a descriptor are 0 (30_encoding.md R83, R84). -/
def reservedClear (sd : Sd) : Bool := sd.rsvd == 0

/-! ## Descriptors and messages -/

/-- `SM(sd)` (R84). -/
def smOf (sd : Sd) : SenderMessage where
  seqno := sd.seqno
  syn := sd.syn
  payload := sd.payload
  fin := sd.fin
  rst := sd.rstS

/-- `RM(sd)` (R84). -/
def rmOf (sd : Sd) : ReceiverMessage where
  ackno := if sd.akv then some sd.ackno else none
  windowSize := sd.window
  rst := sd.rstR

/-- `merge(sm, rm)` (R85): the sender fields from `sm`, the receiver fields from `rm`, reserved bits 0. -/
def sdMerge (sm : SenderMessage) (rm : ReceiverMessage) : Sd where
  seqno := sm.seqno
  ackno := rm.ackno.getD 0
  window := rm.windowSize
  syn := sm.syn
  fin := sm.fin
  rstS := sm.rst
  akv := rm.ackno.isSome
  rstR := rm.rst
  rsvd := 0
  payload := sm.payload

/-- `SD_of_SM(sm)` (R85): the receiver fields are 0. -/
def sdOfSM (sm : SenderMessage) : Sd := sdMerge sm { ackno := none, windowSize := 0, rst := false }

/-- `SD_of_RM(rm)` (R85): the sender fields are 0 and there is no payload. -/
def sdOfRM (rm : ReceiverMessage) : Sd :=
  sdMerge { seqno := 0, syn := false, payload := [], fin := false, rst := false } rm

end Sys2Proof.Machine
end

