-- ==== Sys2Proof/Machine/Ops.lean ====
section
/-! DEFINITION. The shared operations: checked 64-bit stores, the pending store, named updates of the
state, how a command answers (60_exceptions.md R300, R301, R303), entering the fault state and leaving
it by reset (R304, 70_reset_and_hazards.md R340), and taking a transaction from the command port. -/

namespace Sys2Proof.Machine

/-! ## 64-bit stores (00_scope.md R12, 60_exceptions.md R304) -/

/-- The value to be stored in a 64-bit state field. A value above 2^64 − 1 is never wrapped: the command
faults with cause 1 (R304). -/
def store64 (n : Nat) : Except FaultCause U64 :=
  if n < 2 ^ 64 then .ok (BitVec.ofNat 64 n) else .error .overflow

/-! ## The pending store (10_state.md R26, 42_reassembler.md R162) -/

/-- The canonical form: strictly rising indexes, so one byte at most per index (R162). -/
def Memory.wf : Memory → Bool
  | [] => true
  | c :: m => m.all (fun d => decide (c.1 < d.1)) && Memory.wf m

/-- The byte pending at an index, `none` when none is. -/
def Memory.read : Memory → Nat → Option Byte
  | [], _ => none
  | c :: m, i => if c.1 = i then some c.2 else Memory.read m i

/-- Make a byte pending at an index; the newest byte wins (R162). -/
def Memory.write : Memory → Nat → Byte → Memory
  | [], i, v => [(i, v)]
  | c :: m, i, v =>
    if i < c.1 then (i, v) :: c :: m
    else if i = c.1 then (i, v) :: m
    else c :: Memory.write m i v

/-- Make bytes pending at consecutive indexes, in index order (42_reassembler.md R161 step 3). -/
def Memory.writeBytes : Memory → Nat → List Byte → Memory
  | m, _, [] => m
  | m, i, v :: vs => Memory.writeBytes (Memory.write m i v) (i + 1) vs

/-- Remove the `n` indexes from `lo` up. -/
def Memory.erase (m : Memory) (lo n : Nat) : Memory :=
  m.filter fun c => !(decide (lo ≤ c.1) && decide (c.1 < lo + n))

/-- The bytes pending at consecutive indexes from `i` up, at most `fuel` of them. -/
def Memory.runFrom (m : Memory) (i : Nat) : Nat → List Byte
  | 0 => []
  | fuel + 1 =>
    match m.read i with
    | none => []
    | some v => v :: Memory.runFrom m (i + 1) fuel

/-- The contiguous run of pending bytes that starts at `i` (R161 step 4). It has at most as many bytes
as the store has entries. -/
def Memory.run (m : Memory) (i : Nat) : List Byte := m.runFrom i m.length

/-! ## Named updates -/

/-- Write IN. -/
def Block.setIn (b : Block) (s : Stream) : Block := { b with bsIn := s }
/-- Write OUT. -/
def Block.setOut (b : Block) (s : Stream) : Block := { b with bsOut := s }
/-- Write RA. -/
def Block.setRa (b : Block) (r : Reassembler) : Block := { b with ra := r }
/-- Write RX. -/
def Block.setRx (b : Block) (r : Receiver) : Block := { b with rx := r }
/-- Write TX. -/
def Block.setTx (b : Block) (t : Sender) : Block := { b with tx := t }
/-- Write PR. -/
def Block.setPr (b : Block) (p : Peer) : Block := { b with pr := p }
/-- Write SYS. -/
def Block.setSys (b : Block) (y : Sys) : Block := { b with sys := y }

/-- The stream a SEL names (30_encoding.md R81). -/
def Block.stream (b : Block) : Sel → Stream
  | .inbound => b.bsIn
  | .outbound => b.bsOut

/-- Write the stream a SEL names. -/
def Block.setStream (b : Block) (sel : Sel) (s : Stream) : Block :=
  match sel with
  | .inbound => b.setIn s
  | .outbound => b.setOut s

/-- Write the block. -/
def State.setBlock (s : State) (b : Block) : State := { s with block := b }
/-- Write the command port. -/
def State.setPort (s : State) (bs : List Byte) : State := { s with port := bs }
/-- Present a response (00_scope.md R8). -/
def State.answer (s : State) (r : Response) : State := { s with resp := some r }

/-! ## Responses (00_scope.md R8, 60_exceptions.md R300, R301) -/

/-- A status with R0 = 0, an empty RDATA, no RSD and an empty EMIT: the response of a rejection, of a
fault, and of a command that lists no result (R301; log entry 13). -/
def Response.bare (st : Status) : Response where
  status := st
  r0 := 0
  rdata := []
  rsd := none
  emit := []

/-- OK with nothing else. -/
def Response.done : Response := Response.bare .ok
/-- OK with R0. -/
def Response.word (v : U64) : Response := { Response.done with r0 := v }
/-- OK with RDATA, and R0 its length. -/
def Response.data (bs : List Byte) : Response :=
  { Response.done with r0 := BitVec.ofNat 64 bs.length, rdata := bs }
/-- OK with RSD. -/
def Response.descriptor (sd : Sd) : Response := { Response.done with rsd := some sd }
/-- OK with EMIT. -/
def Response.emitted (sds : List Sd) : Response := { Response.done with emit := sds }

/-! ## How a command answers -/

/-- A rejected command (R301): its status, no effect on the block. -/
def State.reject (s : State) (st : Status) : Result := .next (s.answer (Response.bare st))

/-- A command with no effect on the block (20_memory.md R66): its response. -/
def State.respond (s : State) (r : Response) : Result := .next (s.answer r)

/-- Entering the fault state (60_exceptions.md R304): SYS.fault is set with the cause, the command's
other effects are discarded, and the response is FAULT with nothing else. Only reset leaves it
(`State.takeReset`). -/
def State.enterFault (s : State) (c : FaultCause) : State :=
  (s.setBlock (s.block.setSys { fault := true, faultCause := c })).answer (Response.bare .fault)

/-- The end of a command that writes the block (R304). `r` is the fault the command met, or its
post-state and response; a post-state in which an invariant of 10_state.md R24, R27 or R31 fails is a
fault of cause 3. -/
def State.commit (s : State) (r : Except FaultCause (Block × Response)) : Result :=
  match r with
  | .error c => .next (s.enterFault c)
  | .ok (b, resp) =>
    if invariantsHold s.block b then .next ((s.setBlock b).answer resp)
    else .next (s.enterFault .invariant)

/-- The first check of R303: in the fault state the command answers FAULT and changes nothing (R304).
Every command but RDREG makes it. -/
def State.unlessFaulted (s : State) (k : Result) : Result :=
  if s.block.sys.fault then s.reject .fault else k

/-! ## Reset (70_reset_and_hazards.md R340, R342) -/

/-- The reset input acts, between commands: the state after reset, or a refusal of a configuration
outside the ranges of 00_scope.md R10. -/
def takeReset (c : Config) : Result :=
  if c.legal then .next (State.resetWith c) else .refused .illegalConfig

/-! ## Words that are no command (60_exceptions.md R303, 30_encoding.md R87, R89) -/

/-- A CMD word with an undefined opcode: FAULT in the fault state, else ERR_OPCODE. -/
def State.rejectUndefined (s : State) : Result := s.unlessFaulted (s.reject .errOpcode)

/-- A transaction of a defined opcode with a must-be-0 bit of CMD set. R303 checks the fault state
first (RDREG excepted), then the peer's absence, then the reserved bits. -/
def State.rejectReserved (s : State) (o : Opcode) : Result :=
  let answer := if o.isPeer && !s.block.cfg.hasPeer then s.reject .errNopeer else s.reject .errRsvd
  if o = .rdreg then answer else s.unlessFaulted answer

end Sys2Proof.Machine
end

