-- ==== Sys2Proof/Machine/ByteStreams.lean ====
section
/-! DEFINITION. The byte-stream units: the internal operations and the host commands BS.PUSH, BS.CLOSE,
BS.SETERR, BS.PEEK, BS.POP (41_bytestream.md). -/

namespace Sys2Proof.Machine

/-! ## Internal operations (R130 to R132) -/

/-- `BS_push(s, d)` (R130): the stream after the push and the number of bytes appended. -/
def bsPush (s : Stream) (d : List Byte) : Except FaultCause (Stream × Nat) :=
  if s.closed || s.error then .ok (s, 0)
  else do
    let k := min d.length s.available
    let pushed ← store64 (s.bytesPushed.toNat + k)
    return ({ s with buf := s.buf ++ d.take k, bytesPushed := pushed }, k)

/-- `BS_pop(s, n)` (R131): the stream after the pop and the number of bytes removed. -/
def bsPop (policy : PopPolicy) (s : Stream) (n : Nat) : Except FaultCause (Stream × Nat) :=
  if decide (s.buffered < n) && policy == .fault then .error .popBeyond
  else do
    let k := min n s.buffered
    let popped ← store64 (s.bytesPopped.toNat + k)
    return ({ s with buf := s.buf.drop k, bytesPopped := popped }, k)

/-- `BS_close(s)` (R132). -/
def bsClose (s : Stream) : Stream := { s with closed := true }

/-- `BS_set_error(s)` (R132). -/
def bsSetError (s : Stream) : Stream := { s with error := true }

/-! ## Host commands (R133 to R138) -/

/-- BS.PUSH (R135): the host owns the push side of OUT only (R134). -/
def execBsPush (sel : Sel) (data : List Byte) (s : State) : Result :=
  s.unlessFaulted <|
    if sel = .inbound then s.reject .errOwner
    else if lengthAllowed s.block.cfg data then
      s.commit do
        let (out, k) ← bsPush s.block.bsOut data
        return (s.block.setOut out, Response.word (BitVec.ofNat 64 k))
    else s.reject .errOperand

/-- BS.CLOSE (R136): the host owns the push side of OUT only (R134). -/
def execBsClose (sel : Sel) (s : State) : Result :=
  s.unlessFaulted <|
    if sel = .inbound then s.reject .errOwner
    else s.commit (.ok (s.block.setOut (Sys2Proof.Machine.bsClose s.block.bsOut), Response.done))

/-- BS.SETERR (R137): accepted on both streams (R134). -/
def execBsSeterr (sel : Sel) (s : State) : Result :=
  s.unlessFaulted <|
    s.commit (.ok (s.block.setStream sel (bsSetError (s.block.stream sel)), Response.done))

/-- BS.PEEK (R133): accepted on both streams (R134); the state is unchanged (20_memory.md R66). -/
def execBsPeek (sel : Sel) (s : State) : Result :=
  s.unlessFaulted <| s.respond (Response.data (s.block.stream sel).buf)

/-- BS.POP (R138): the host owns the pop side of IN only (R134). -/
def execBsPop (sel : Sel) (n : U64) (s : State) : Result :=
  s.unlessFaulted <|
    if sel = .outbound then s.reject .errOwner
    else
      s.commit do
        let (inn, k) ← bsPop s.block.cfg.popPolicy s.block.bsIn n.toNat
        return (s.block.setIn inn, Response.word (BitVec.ofNat 64 k))

end Sys2Proof.Machine
end

