-- ==== Sys2Proof/Machine/Reassembly.lean ====
section
/-! DEFINITION. The reassembler: RA.INSERT (42_reassembler.md). -/

namespace Sys2Proof.Machine

/-- The acceptance window's upper bound (R161 step 2). It may exceed 2^64 − 1. -/
def Reassembler.windowEnd (r : Reassembler) (inn : Stream) : Nat := r.nextIndex.toNat + inn.available

/-- The first index of `d`, offered at `f`, that is not below the window (R161 step 2, `lo`). -/
def Reassembler.clipFrom (r : Reassembler) (f : Nat) : Nat := max f r.nextIndex.toNat

/-- The bytes of `d`, offered at index `f`, that lie in the acceptance window
`[next_index, next_index + available_capacity(IN))` (R161 steps 2 and 3). -/
def Reassembler.clip (r : Reassembler) (inn : Stream) (f : Nat) (d : List Byte) : List Byte :=
  let lo := r.clipFrom f
  let hi := min (f + d.length) (r.windowEnd inn)
  (d.drop (lo - f)).take (hi - lo)

/-- Step 1 of R161: with LAST, the end index is recorded. -/
def Reassembler.noteEnd (r : Reassembler) (f : Nat) (d : List Byte) (last : Bool) :
    Except FaultCause Reassembler :=
  if last then do
    let e ← store64 (f + d.length)
    return { r with endIndex := some e }
  else .ok r

/-- Steps 2 and 3 of R161: the clipped range is merged into the pending set. -/
def Reassembler.merge (r : Reassembler) (inn : Stream) (f : Nat) (d : List Byte) : Reassembler :=
  { r with pending := r.pending.writeBytes (r.clipFrom f) (r.clip inn f d) }

/-- The end is known and reached (R161 step 5). -/
def Reassembler.ended (r : Reassembler) : Bool :=
  match r.endIndex with
  | none => false
  | some e => decide (e.toNat ≤ r.nextIndex.toNat)

/-- Step 4 of R161: the contiguous run from `next_index` is pushed into IN. The answer is RA, IN and the
number of bytes delivered. -/
def Reassembler.deliver (r : Reassembler) (inn : Stream) :
    Except FaultCause (Reassembler × Stream × Nat) := do
  let run := r.pending.run r.nextIndex.toNat
  let (inn, _) ← bsPush inn run
  let next ← store64 (r.nextIndex.toNat + run.length)
  return ({ r with
      pending := r.pending.erase r.nextIndex.toNat run.length
      nextIndex := next }, inn, run.length)

/-- `RA_insert(f, d, last)` (R161), its five steps in order: RA, IN and L. -/
def raInsert (r : Reassembler) (inn : Stream) (f : Nat) (d : List Byte) (last : Bool) :
    Except FaultCause (Reassembler × Stream × Nat) := do
  let r ← r.noteEnd f d last
  let (r, inn, l) ← (r.merge inn f d).deliver inn
  return (r, if r.ended then bsClose inn else inn, l)

/-- RA.INSERT (R160). -/
def execRaInsert (last : Bool) (first : U64) (data : List Byte) (s : State) : Result :=
  s.unlessFaulted <|
    if lengthAllowed s.block.cfg data && decide (first.toNat + data.length ≤ 2 ^ 64 - 1) then
      s.commit do
        let (ra, inn, l) ← raInsert s.block.ra s.block.bsIn first.toNat data last
        return ((s.block.setRa ra).setIn inn, Response.word (BitVec.ofNat 64 l))
    else s.reject .errOperand

end Sys2Proof.Machine
end

