-- ==== Sys2Proof/Machine/SequenceNumbers.lean ====
section
/-! DEFINITION. The sequence-number unit: SQ.WRAP and SQ.UNWRAP (40_sequence.md). -/

namespace Sys2Proof.Machine

/-- `wrap(n, zero)` (R110): "zero + (n mod 2^32) using 32-bit wraparound addition". -/
def wrap (n : Nat) (zero : U32) : U32 := zero + BitVec.ofNat 32 n

/-- `unwrap(raw, zero, c)` (R111, R112): the 64-bit value congruent to `raw − zero` nearest to the
checkpoint `c`, the lower one on a tie. No candidate is above 2^64 − 1 (R112 (b)), so a checkpoint above it,
as that of 43_receiver.md R191 can be, ranks the candidates as 2^64 − 1 does (log entry 8). -/
def unwrap (raw zero : U32) (c : Nat) : Nat :=
  let base := (raw - zero).toNat
  let c := min c (2 ^ 64 - 1)
  if c ≤ base then base
  else
    let k := (c - base) / 2 ^ 32
    let lo := base + k * 2 ^ 32
    let hi := lo + 2 ^ 32
    if 2 ^ 64 - 1 < hi then lo
    else if c - lo ≤ hi - c then lo
    else hi

/-- SQ.WRAP (R110). -/
def execSqWrap (a b : U64) (s : State) : Result :=
  s.unlessFaulted <|
    if isU32 b then s.respond (Response.word ((wrap a.toNat (low32 b)).zeroExtend 64))
    else s.reject .errOperand

/-- SQ.UNWRAP (R111). -/
def execSqUnwrap (a b c : U64) (s : State) : Result :=
  s.unlessFaulted <|
    if isU32 a && isU32 b then
      s.respond (Response.word (BitVec.ofNat 64 (unwrap (low32 a) (low32 b) c.toNat)))
    else s.reject .errOperand

end Sys2Proof.Machine
end

