-- ==== Sys2Proof/Machine/Receiver.lean ====
section
/-! DEFINITION. The receiver: RX.RECV and RX.SEND (43_receiver.md). -/

namespace Sys2Proof.Machine

/-- The zero point after a segment: the first SYN's seqno is recorded (R191, R192 (b)). -/
def Receiver.noteSyn (r : Receiver) (m : SenderMessage) : Receiver :=
  if m.syn && !r.synSeen then { synSeen := true, zeroPoint := m.seqno } else r

/-- A segment that the receiver ignores for want of a SYN: none is seen, and it carries none (R191, R192 (c)). -/
def Receiver.awaitsSyn (r : Receiver) (m : SenderMessage) : Bool := !r.synSeen && !m.syn

/-- The stream index of a segment's first payload byte, `none` where it is not a stream index: a
segment without SYN at absolute 0, or a range that passes 2^64 − 1 (R191, R193, R194). `r` is the
receiver after the SYN is noted, `pushed` is IN.bytes_pushed, whose successor is the checkpoint (R198). -/
def Receiver.streamIndex (r : Receiver) (pushed : Nat) (m : SenderMessage) : Option Nat :=
  let a := unwrap m.seqno r.zeroPoint (pushed + 1)
  if !m.syn && a == 0 then none
  else
    let idx := if m.syn then a else a - 1
    if 2 ^ 64 - 1 < idx + m.payload.length then none else some idx

/-- `RX_receive(m)` (R191). A segment without a stream index is dropped without any effect (R194). -/
def rxReceive (b : Block) (m : SenderMessage) : Except FaultCause Block :=
  if m.rst then .ok (b.setIn (bsSetError b.bsIn))
  else if b.rx.awaitsSyn m then .ok b
  else
    match (b.rx.noteSyn m).streamIndex b.bsIn.bytesPushed.toNat m with
    | none => .ok b
    | some idx => do
      let (ra, inn, _) ← raInsert b.ra b.bsIn idx m.payload m.fin
      return ((b.setRx (b.rx.noteSyn m)).setRa ra).setIn inn

/-- `RX_send()` (R195): the receiver message computed from the state at the point of the call. -/
def rxSend (b : Block) : ReceiverMessage where
  ackno :=
    if b.rx.synSeen then
      some (wrap (b.bsIn.bytesPushed.toNat + 1 + b2n b.finCounted) b.rx.zeroPoint)
    else none
  windowSize := BitVec.ofNat 16 (min b.bsIn.available 65535)
  rst := b.bsIn.error

/-- RX.RECV (R190). -/
def execRxRecv (sd : Sd) (s : State) : Result :=
  s.unlessFaulted <|
    if !reservedClear sd then s.reject .errRsvd
    else if lengthAllowed s.block.cfg sd.payload then
      s.commit do
        let b ← rxReceive s.block (smOf sd)
        return (b, Response.done)
    else s.reject .errOperand

/-- RX.SEND (R195). -/
def execRxSend (s : State) : Result :=
  s.unlessFaulted <| s.respond (Response.descriptor (sdOfRM (rxSend s.block)))

end Sys2Proof.Machine
end

