-- ==== Sys2Proof/Machine/Sender.lean ====
section
/-! DEFINITION. The sender: TX.PUSH, TX.RECV, TX.TICK and TX.EMPTY (44_sender.md). The internal functions
take the emission function `e` (its opening paragraph), given here the block at the moment of emission,
because the peer's reads it (45_peer.md R255). -/

namespace Sys2Proof.Machine

/-- An emission function: the descriptor that goes out for a sender message. -/
abbrev Emission := Block → SenderMessage → Sd

/-- The TXU's own emission function, `λ sm. emit(SD_of_SM(sm))` (R210). -/
def emitSM : Emission := fun _ sm => sdOfSM sm

/-! ## TX_push (R211 to R216) -/

/-- The sender after it has sent `sm`, which occupies the sequence numbers up to `sent` (R212): the
entry is queued, the SYN and FIN flags record what went out, and a timer that is not running starts at
the initial RTO. -/
def Sender.afterSend (c : Config) (t : Sender) (sm : SenderMessage) (sent : U64) : Sender :=
  { t with
    outstanding := t.outstanding ++ [{ absSeqno := t.bytesSent, sm := sm }]
    bytesSent := sent
    synSent := t.synSent || sm.syn
    finSent := t.finSent || sm.fin
    timerRunning := true
    timerElapsed := if t.timerRunning then t.timerElapsed else 0
    rto := if t.timerRunning then t.rto else c.initialRto.zeroExtend 64 }

/-- The room left in the effective window (R212). -/
def Sender.room (t : Sender) : Nat := t.rightEdge - t.bytesSent.toNat

/-- The payload size of the next segment (R212, `n`). -/
def Block.nextPayloadSize (b : Block) : Nat :=
  min (min b.cfg.maxPayload.toNat (b.tx.room - b2n (!b.tx.synSent))) b.bsOut.buffered

/-- One pass of the loop of R212: `none` when it exits, else the block after the segment and the
segment's descriptor. -/
def txPass (e : Emission) (b : Block) : Except FaultCause (Option (Block × Sd)) :=
  if b.tx.finSent then .ok none
  else if b.tx.rightEdge ≤ b.tx.bytesSent.toNat then .ok none
  else do
    let syn := !b.tx.synSent
    let n := b.nextPayloadSize
    let payload := b.bsOut.buf.take n
    let (out, _) ← bsPop b.cfg.popPolicy b.bsOut n
    let fin := out.isFinished && decide (b2n syn + n + 1 ≤ b.tx.room)
    let len := b2n syn + n + b2n fin
    if len = 0 then return none
    else
      let sm : SenderMessage :=
        { seqno := wrap b.tx.bytesSent.toNat b.tx.zeroPoint, syn := syn, payload := payload,
          fin := fin, rst := out.error }
      let sent ← store64 (b.tx.bytesSent.toNat + len)
      let b := b.setOut out
      return some (b.setTx (b.tx.afterSend b.cfg sm sent), e b sm)

/-- At most `fuel` passes of the loop: the block and the descriptors in the order emitted. -/
def txPasses (e : Emission) : Nat → Block → Except FaultCause (Block × List Sd)
  | 0, b => .ok (b, [])
  | fuel + 1, b => do
    match ← txPass e b with
    | none => return (b, [])
    | some (b, sd) =>
      let (b, sds) ← txPasses e fuel b
      return (b, sd :: sds)

/-- `TX_push(e)` (R212). Every pass that does not exit sends at least one sequence number without passing
the right edge (R215), so the room is a bound on the passes that send, and with no room the loop exits. -/
def txPush (e : Emission) (b : Block) : Except FaultCause (Block × List Sd) :=
  txPasses e b.tx.room b

/-! ## TX_receive (R218 to R223) -/

/-- The queue and TX.bytes_acked after the messages wholly at or below `a` are removed (R218, R221). -/
def popAcked (a : Nat) : List OutEntry → U64 → List OutEntry × U64
  | [], acked => ([], acked)
  | h :: q, acked =>
    if h.endSeqno ≤ a then popAcked a q (BitVec.ofNat 64 h.endSeqno) else (h :: q, acked)

/-- The sender after an acknowledgment number (R218): an ack in (bytes_acked, bytes_sent] removes the
messages it covers, resets the timer and clears the counter; any other is ignored (R220). -/
def Sender.acknowledge (c : Config) (t : Sender) (w : U32) : Sender :=
  let a := unwrap w t.zeroPoint t.bytesAcked.toNat
  if t.bytesAcked.toNat < a ∧ a ≤ t.bytesSent.toNat then
    let popped := popAcked a t.outstanding t.bytesAcked
    { t with
      outstanding := popped.1
      bytesAcked := popped.2
      rto := c.initialRto.zeroExtend 64
      timerElapsed := 0
      consecutiveRetx := 0 }
  else t

/-- The timer stops when the queue is empty (R218, R223). -/
def Sender.stopIfEmpty (t : Sender) : Sender :=
  if t.outstanding.isEmpty then { t with timerRunning := false } else t

/-- `TX_receive(m)` (R218). The window is recorded whatever the ackno (R219). -/
def txReceive (b : Block) (m : ReceiverMessage) : Block :=
  if m.rst then b.setOut (bsSetError b.bsOut)
  else
    let t := { b.tx with windowSize := m.windowSize }
    let t :=
      match m.ackno with
      | none => t
      | some w => t.acknowledge b.cfg w
    b.setTx t.stopIfEmpty

/-! ## TX_tick (R224, R225) -/

/-- The backoff of a retransmission (R224): with a window above 0 the RTO doubles and the retransmission
is counted. -/
def Sender.backoff (t : Sender) : Except FaultCause Sender :=
  if t.windowSize = 0 then .ok t
  else do
    let rto ← store64 (2 * t.rto.toNat)
    let n ← store64 (t.consecutiveRetx.toNat + 1)
    return { t with rto := rto, consecutiveRetx := n }

/-- The timer is running and has reached the RTO (R224). -/
def Sender.expired (t : Sender) : Bool := t.timerRunning && decide (t.rto.toNat ≤ t.timerElapsed.toNat)

/-- `TX_tick(ms, e)` (R224). The oldest message goes out as it is stored; a timer that runs with an empty
queue, which R31 excludes, sends nothing. -/
def txTick (ms : Nat) (e : Emission) (b : Block) : Except FaultCause (Block × List Sd) := do
  let elapsed ← store64 (b.tx.timerElapsed.toNat + ms)
  let b := b.setTx { b.tx with timerElapsed := elapsed }
  if b.tx.expired then
    let sds := b.tx.outstanding.head?.toList.map fun h => e b h.sm
    let t ← b.tx.backoff
    return (b.setTx { t with timerElapsed := 0 }, sds)
  else return (b, [])

/-! ## TX_empty (R226) -/

/-- `TX_empty()` (R226): the empty message at the current position. -/
def txEmpty (b : Block) : SenderMessage where
  seqno := wrap b.tx.bytesSent.toNat b.tx.zeroPoint
  syn := false
  payload := []
  fin := false
  rst := b.bsOut.error

/-! ## Commands -/

/-- TX.PUSH (R210). -/
def execTxPush (s : State) : Result :=
  s.unlessFaulted <|
    s.commit do
      let (b, sds) ← txPush emitSM s.block
      return (b, Response.emitted sds)

/-- TX.RECV (R217). -/
def execTxRecv (sd : Sd) (s : State) : Result :=
  s.unlessFaulted <|
    if !reservedClear sd then s.reject .errRsvd
    else if lengthAllowed s.block.cfg sd.payload then
      s.commit (.ok (txReceive s.block (rmOf sd), Response.done))
    else s.reject .errOperand

/-- TX.TICK (R224). -/
def execTxTick (ms : U64) (s : State) : Result :=
  s.unlessFaulted <|
    s.commit do
      let (b, sds) ← txTick ms.toNat emitSM s.block
      return (b, Response.emitted sds)

/-- TX.EMPTY (R226). -/
def execTxEmpty (s : State) : Result :=
  s.unlessFaulted <| s.respond (Response.descriptor (sdOfSM (txEmpty s.block)))

end Sys2Proof.Machine
end

