-- ==== Sys2Proof/Machine/Peer.lean ====
section
/-! DEFINITION. The peer wrapper: PR.RECV, PR.PUSH and PR.TICK (45_peer.md). -/

namespace Sys2Proof.Machine

/-- The peer's emission function (R255): the sender message merged with the receiver message at the
moment of emission. -/
def emitMerged : Emission := fun b sm => sdMerge sm (rxSend b)

/-- A reply is owed for an inbound sender message (R251, R252): it occupies sequence space, or its seqno plus
1 is our current ackno. RX.syn_seen is not asked: 43_receiver.md R192 (c) is read as the receiver's (log entry
17). -/
def Block.owesReply (b : Block) (sm : SenderMessage) : Bool :=
  decide (0 < sm.seqLen) || (rxSend b).ackno == some (sm.seqno + 1)

/-- PR.LINGER is cleared when the inbound stream finished before the outbound stream did (R253). -/
def Block.updateLinger (b : Block) : Block :=
  if b.finCounted && !b.bsOut.isFinished then b.setPr { b.pr with linger := false } else b

/-- The body of PR.RECV on an active peer (R251): the block and what it emits. -/
def prReceive (b : Block) (sm : SenderMessage) (rm : ReceiverMessage) :
    Except FaultCause (Block × List Sd) := do
  let b := b.setPr { b.pr with timeOfLastReceiptMs := b.pr.cumulativeTimeMs }
  let owe := b.owesReply sm
  let b ← rxReceive b sm
  let b := (txReceive b rm).updateLinger
  return (b, if owe then [sdMerge (txEmpty b) (rxSend b)] else [])

/-- PR.TICK's body (R257): the peer's clock, then the sender's timer. -/
def prTick (ms : Nat) (b : Block) : Except FaultCause (Block × List Sd) := do
  let now ← store64 (b.pr.cumulativeTimeMs.toNat + ms)
  txTick ms emitMerged (b.setPr { b.pr with cumulativeTimeMs := now })

/-- The first check of every PR command (R251, R256, R257): ERR_NOPEER when HAS_PEER = 0. -/
def State.withPeer (s : State) (k : Result) : Result :=
  if s.block.cfg.hasPeer then k else s.reject .errNopeer

/-- PR.RECV (R251). A message to an inactive peer is dropped. -/
def execPrRecv (sd : Sd) (s : State) : Result :=
  s.unlessFaulted <| s.withPeer <|
    if !reservedClear sd then s.reject .errRsvd
    else if lengthAllowed s.block.cfg sd.payload then
      if s.block.active then
        s.commit do
          let (b, sds) ← prReceive s.block (smOf sd) (rmOf sd)
          return (b, Response.emitted sds)
      else s.respond Response.done
    else s.reject .errOperand

/-- PR.PUSH (R256). It does not test `active()`. -/
def execPrPush (s : State) : Result :=
  s.unlessFaulted <| s.withPeer <|
    s.commit do
      let (b, sds) ← txPush emitMerged s.block
      return (b, Response.emitted sds)

/-- PR.TICK (R257). It does not test `active()`. -/
def execPrTick (ms : U64) (s : State) : Result :=
  s.unlessFaulted <| s.withPeer <|
    s.commit do
      let (b, sds) ← prTick ms.toNat s.block
      return (b, Response.emitted sds)

end Sys2Proof.Machine
end

