-- ==== Sys2Proof/Machine/Registers.lean ====
section
/-! DEFINITION. The register map (10_state.md R35 to R44) and RDREG (46_register_access.md). -/

namespace Sys2Proof.Machine

/-- The mapped registers (R36 to R44). -/
inductive Register where
  | id | cfgFlags | cfgInitialRto | cfgIsn | cfgMaxPayload | cfgMaxRetx | cfgWindowCap | cfgMaxDataLen
  | inCapacity | inBytesPushed | inBytesPopped | inBytesBuffered | inAvailable | inStatus
  | outCapacity | outBytesPushed | outBytesPopped | outBytesBuffered | outAvailable | outStatus
  | raNextIndex | raEndIndex | raStatus | raBytesPending
  | rxStatus | rxZeroPoint
  | txZeroPoint | txBytesSent | txBytesAcked | txInFlight | txWindow | txTimerElapsed | txRto
  | txStatus | txConsecRetx | txOutstandingCount
  | prStatus | prCumulativeMs | prLastReceiptMs
  | sysStatus | sysFaultCause
  deriving DecidableEq, Repr

/-- The address of a register (R36 to R44). -/
def Register.address : Register → Nat
  | .id => 0x00
  | .cfgFlags => 0x01
  | .cfgInitialRto => 0x02
  | .cfgIsn => 0x03
  | .cfgMaxPayload => 0x04
  | .cfgMaxRetx => 0x05
  | .cfgWindowCap => 0x06
  | .cfgMaxDataLen => 0x07
  | .inCapacity => 0x10
  | .inBytesPushed => 0x11
  | .inBytesPopped => 0x12
  | .inBytesBuffered => 0x13
  | .inAvailable => 0x14
  | .inStatus => 0x15
  | .outCapacity => 0x18
  | .outBytesPushed => 0x19
  | .outBytesPopped => 0x1A
  | .outBytesBuffered => 0x1B
  | .outAvailable => 0x1C
  | .outStatus => 0x1D
  | .raNextIndex => 0x20
  | .raEndIndex => 0x21
  | .raStatus => 0x22
  | .raBytesPending => 0x23
  | .rxStatus => 0x30
  | .rxZeroPoint => 0x31
  | .txZeroPoint => 0x40
  | .txBytesSent => 0x41
  | .txBytesAcked => 0x42
  | .txInFlight => 0x43
  | .txWindow => 0x44
  | .txTimerElapsed => 0x45
  | .txRto => 0x46
  | .txStatus => 0x47
  | .txConsecRetx => 0x48
  | .txOutstandingCount => 0x49
  | .prStatus => 0x50
  | .prCumulativeMs => 0x51
  | .prLastReceiptMs => 0x52
  | .sysStatus => 0xF0
  | .sysFaultCause => 0xF1

/-- Every register, by rising address. -/
def Register.all : List Register :=
  [.id, .cfgFlags, .cfgInitialRto, .cfgIsn, .cfgMaxPayload, .cfgMaxRetx, .cfgWindowCap, .cfgMaxDataLen,
   .inCapacity, .inBytesPushed, .inBytesPopped, .inBytesBuffered, .inAvailable, .inStatus,
   .outCapacity, .outBytesPushed, .outBytesPopped, .outBytesBuffered, .outAvailable, .outStatus,
   .raNextIndex, .raEndIndex, .raStatus, .raBytesPending, .rxStatus, .rxZeroPoint,
   .txZeroPoint, .txBytesSent, .txBytesAcked, .txInFlight, .txWindow, .txTimerElapsed, .txRto,
   .txStatus, .txConsecRetx, .txOutstandingCount, .prStatus, .prCumulativeMs, .prLastReceiptMs,
   .sysStatus, .sysFaultCause]

/-- The register belongs to the PRU (R43, 00_scope.md R15). -/
def Register.isPeer : Register → Bool
  | .prStatus => true
  | .prCumulativeMs => true
  | .prLastReceiptMs => true
  | _ => false

/-- The register at an address; `none` is an unmapped address (R35, R281). The PRU's registers exist only
when HAS_PEER = 1 (00_scope.md R15). -/
def Register.atAddress (c : Config) (a : Nat) : Option Register :=
  Register.all.find? fun r => r.address == a && (c.hasPeer || !r.isPeer)

/-- The value of a register (R36 to R44), computed from the current state; a value narrower than 64 bits
is zero-extended (R35). -/
def Register.value (b : Block) : Register → U64
  | .id => 0x4D544307
  | .cfgFlags => cfgFlagsWord b.cfg
  | .cfgInitialRto => b.cfg.initialRto.zeroExtend 64
  | .cfgIsn => b.cfg.isn.zeroExtend 64
  | .cfgMaxPayload => b.cfg.maxPayload.zeroExtend 64
  | .cfgMaxRetx => b.cfg.maxRetx.zeroExtend 64
  | .cfgWindowCap => b.cfg.windowCap.zeroExtend 64
  | .cfgMaxDataLen => b.cfg.maxDataLen.zeroExtend 64
  | .inCapacity => b.bsIn.capacity
  | .inBytesPushed => b.bsIn.bytesPushed
  | .inBytesPopped => b.bsIn.bytesPopped
  | .inBytesBuffered => BitVec.ofNat 64 b.bsIn.buffered
  | .inAvailable => BitVec.ofNat 64 b.bsIn.available
  | .inStatus => b.bsIn.statusWord
  | .outCapacity => b.bsOut.capacity
  | .outBytesPushed => b.bsOut.bytesPushed
  | .outBytesPopped => b.bsOut.bytesPopped
  | .outBytesBuffered => BitVec.ofNat 64 b.bsOut.buffered
  | .outAvailable => BitVec.ofNat 64 b.bsOut.available
  | .outStatus => b.bsOut.statusWord
  | .raNextIndex => b.ra.nextIndex
  | .raEndIndex => b.ra.endIndex.getD 0
  | .raStatus => b.ra.statusWord
  | .raBytesPending => BitVec.ofNat 64 b.ra.bytesPending
  | .rxStatus => b.rx.statusWord
  | .rxZeroPoint => if b.rx.synSeen then b.rx.zeroPoint.zeroExtend 64 else 0
  | .txZeroPoint => b.tx.zeroPoint.zeroExtend 64
  | .txBytesSent => b.tx.bytesSent
  | .txBytesAcked => b.tx.bytesAcked
  | .txInFlight => BitVec.ofNat 64 b.tx.inFlight
  | .txWindow => b.tx.windowSize.zeroExtend 64
  | .txTimerElapsed => b.tx.timerElapsed
  | .txRto => b.tx.rto
  | .txStatus => txStatusWord b.cfg b.tx
  | .txConsecRetx => b.tx.consecutiveRetx
  | .txOutstandingCount => BitVec.ofNat 64 b.tx.outstanding.length
  | .prStatus => b.prStatusWord
  | .prCumulativeMs => b.pr.cumulativeTimeMs
  | .prLastReceiptMs => b.pr.timeOfLastReceiptMs
  | .sysStatus => b.sys.statusWord
  | .sysFaultCause => b.sys.faultCause.code.zeroExtend 64

/-- RDREG (R280). It is performed in the fault state too (60_exceptions.md R304). -/
def execRdreg (addr : U64) (s : State) : Result :=
  match Register.atAddress s.block.cfg addr.toNat with
  | none => s.reject .errReg
  | some r => s.respond (Response.word (r.value s.block))

end Sys2Proof.Machine
end

