-- ==== Sys2Proof/Machine/Dispatch.lean ====
section
/-! DEFINITION. One arm per command of 30_encoding.md R86. -/

namespace Sys2Proof.Machine

-- One command, as one atomic transition (00_scope.md R7).
def exec (i : Instr) (s : State) : Host.Outcome State Fault Refusal :=
  match i with
  | .sqWrap a b => Sys2Proof.Machine.execSqWrap a b s
  | .sqUnwrap a b c => Sys2Proof.Machine.execSqUnwrap a b c s
  | .bsPush sel data => Sys2Proof.Machine.execBsPush sel data s
  | .bsClose sel => Sys2Proof.Machine.execBsClose sel s
  | .bsSeterr sel => Sys2Proof.Machine.execBsSeterr sel s
  | .bsPeek sel => Sys2Proof.Machine.execBsPeek sel s
  | .bsPop sel n => Sys2Proof.Machine.execBsPop sel n s
  | .raInsert last first data => Sys2Proof.Machine.execRaInsert last first data s
  | .rxRecv sd => Sys2Proof.Machine.execRxRecv sd s
  | .rxSend => Sys2Proof.Machine.execRxSend s
  | .txPush => Sys2Proof.Machine.execTxPush s
  | .txRecv sd => Sys2Proof.Machine.execTxRecv sd s
  | .txTick ms => Sys2Proof.Machine.execTxTick ms s
  | .txEmpty => Sys2Proof.Machine.execTxEmpty s
  | .prRecv sd => Sys2Proof.Machine.execPrRecv sd s
  | .prPush => Sys2Proof.Machine.execPrPush s
  | .prTick ms => Sys2Proof.Machine.execPrTick ms s
  | .rdreg addr => Sys2Proof.Machine.execRdreg addr s

end Sys2Proof.Machine
end

