-- ==== Sys2Proof/Machine/Step.lean ====
section
/-! DEFINITION. One step of the machine: a reset if the reset input asks for one, else the transaction
at the head of the command port (00_scope.md R7, 70_reset_and_hazards.md R340). -/

namespace Sys2Proof.Machine

/-- One step. A waiting block, with no whole transaction on its port, stays as it is
(70_reset_and_hazards.md R341; log entry 2). -/
def step (s : State) : Host.Outcome State Fault Refusal :=
  match s.resetIn with
  | some c => takeReset c
  | none =>
    match decode s.port with
    | .incomplete => .next s
    | .command i rest => exec i (s.setPort rest)
    | .reservedBits o rest => (s.setPort rest).rejectReserved o
    | .undefinedOpcode _ rest => (s.setPort rest).rejectUndefined

/-- The state with the one transaction that `w` begins, its operand words zero, standing on the command
port, and no reset asked for (log entry 2). -/
def State.withFetchWord (s : State) (nbits w : Nat) : State :=
  { s with port := tableTransaction nbits w, resetIn := none }

end Sys2Proof.Machine
end

