-- ==== Sys2Proof/Machine/Responses.lean ====
section
/-! DEFINITION. A response as the bytes of a physical port (20_memory.md R63): the same byte order as a
command's, in Sys2Proof/Decode.lean. -/

namespace Sys2Proof.Machine

/-- Descriptors one after another, in list order, each its four words and its payload (R63; 30_encoding.md
R82, R83). -/
def bytesSds (sds : List Sd) : List Byte := (sds.map bytesSd).flatten

/-- A response as bytes: STATUS as its 8-bit code, R0 low word first, RDATA, RSD if there is one, EMIT. The
order of the bytes within an element is R63's. That the elements stand in the order of 00_scope.md R8, with
nothing between them, is the model's choice (log entry 18). -/
def Response.bytes (r : Response) : List Byte :=
  r.status.code :: (bytes64 r.r0 ++ (r.rdata ++ (bytesSds r.rsd.toList ++ bytesSds r.emit)))

/-- What stands on the response port as bytes; none before the first response. -/
def State.responseBytes (s : State) : Option (List Byte) := s.resp.map Response.bytes

end Sys2Proof.Machine
end

