-- ==== Sys2Proof/Safety.lean ====
section
/-! DEFINITION. What a good state is: the invariants of the spec (10_state.md R24, R27, R31), with what the
model's representation and the rules' own arguments add, in the form a step keeps; and what a safe step is. -/

namespace Sys2Proof.Machine

/-- The reassembler's invariant: R27 as `Reassembler.holds` has it (log entry 6), the canonical form of the
pending store (R162), and every pending index below 2^64 − 1, so that no delivery overflows RA.next_index
(60_exceptions.md R304: "cannot overflow"). -/
structure Reassembler.Inv (r : Reassembler) (inn : Stream) : Prop where
  holds : r.holds inn = true
  wf : r.pending.wf = true
  below : ∀ c ∈ r.pending, c.1 + 1 < 2 ^ 64

/-- The sender's invariant: R31; every queued message occupies sequence space (R215); before the SYN
nothing is sent, and after the FIN the outbound stream is finished (R212, R213); the RTO is at least
INITIAL_RTO and a running timer has not reached it (R225 (f)). -/
structure Sender.Inv (t : Sender) (c : Config) (out : Stream) : Prop where
  holds : t.holds out = true
  occupies : ∀ e ∈ t.outstanding, 0 < e.sm.seqLen
  synFirst : t.synSent = false → t.bytesSent = 0
  finLast : t.finSent = true → out.isFinished = true
  rtoFloor : c.initialRto.toNat ≤ t.rto.toNat
  notExpired : t.expired = false

/-- The peer's clock is at or past its last receipt (45_peer.md R258). -/
def Peer.Inv (p : Peer) : Prop := p.timeOfLastReceiptMs.toNat ≤ p.cumulativeTimeMs.toNat

/-- The block's invariant: a legal configuration, which fixes the capacities and the sender's zero point
(10_state.md R23, R29, R34), the invariants of each unit, and a fault cause exactly in the fault state
(R33). -/
structure Block.Inv (b : Block) : Prop where
  legal : b.cfg.legal = true
  capIn : b.bsIn.capacity = b.cfg.capIn
  capOut : b.bsOut.capacity = b.cfg.capOut
  isn : b.tx.zeroPoint = b.cfg.isn
  bsIn : b.bsIn.holds = true
  bsOut : b.bsOut.holds = true
  ra : b.ra.Inv b.bsIn
  tx : b.tx.Inv b.cfg b.bsOut
  pr : b.pr.Inv
  sys : b.sys.fault = true ↔ b.sys.faultCause ≠ .none

/-- The state's invariant: its block's. The ports may hold anything. -/
def State.Inv (s : State) : Prop := s.block.Inv

end Sys2Proof.Machine

/-! ## What a transaction is, read from its bytes alone (30_encoding.md R80, R82, R86) -/

namespace Sys2Proof

/-- The operand formats of R82. -/
inductive Format where
  | n | a | ab | abc | d | ad | s
  deriving DecidableEq, Repr

/-- The format column of R86. -/
def Opcode.format : Opcode → Format
  | .sqWrap => .ab
  | .sqUnwrap => .abc
  | .bsPush => .d
  | .bsClose => .n
  | .bsSeterr => .n
  | .bsPeek => .n
  | .bsPop => .a
  | .raInsert => .ad
  | .rxRecv => .s
  | .rxSend => .n
  | .txPush => .n
  | .txRecv => .s
  | .txTick => .a
  | .txEmpty => .n
  | .prRecv => .s
  | .prPush => .n
  | .prTick => .a
  | .rdreg => .a

/-- A command's row of R86: its OPC and its format. -/
def Instr.encodedAs (i : Instr) (opc : Byte) (f : Format) : Prop := i.opcode.code = opc ∧ i.opcode.format = f

/-- The total length of the transaction whose bytes stand first in `bs` (R82), known from CMD and the DLEN
or PLEN field; `none` when the opcode is undefined or that field is not there yet. -/
def transactionLength (bs : List Byte) : Option Nat :=
  match take32 bs with
  | none => none
  | some (cmd, _) =>
    match Opcode.ofCode (cmd.extractLsb' 0 8) with
    | none => none
    | some o =>
      match o.format with
      | .n => some 4
      | .a => some 12
      | .ab => some 20
      | .abc => some 28
      | .d => (take32 (bs.drop 4)).map fun w => 8 + w.1.toNat
      | .ad => (take32 (bs.drop 12)).map fun w => 16 + w.1.toNat
      | .s => (take32 (bs.drop 12)).map fun w => 20 + (w.1.extractLsb' 16 16).toNat

/-- The bytes after what the decoder read. -/
def Decoded.rest : Decoded → List Byte
  | .command _ rest => rest
  | .reservedBits _ rest => rest
  | .undefinedOpcode _ rest => rest
  | .incomplete => []

/-- The opcode the decoder read, if it is defined. -/
def Decoded.opcode : Decoded → Option Opcode
  | .command i _ => some i.opcode
  | .reservedBits o _ => some o
  | .undefinedOpcode _ _ => none
  | .incomplete => none

/-- The descriptor a command carries. -/
def Instr.descriptor : Instr → Option Sd
  | .rxRecv sd => some sd
  | .txRecv sd => some sd
  | .prRecv sd => some sd
  | _ => none

/-- The command is a query: it has no side effect on the block state (20_memory.md R66). -/
def Instr.isQuery : Instr → Bool
  | .rdreg _ => true
  | .bsPeek _ => true
  | .rxSend => true
  | .txEmpty => true
  | .sqWrap _ _ => true
  | .sqUnwrap _ _ _ => true
  | _ => false

/-! ## The checks of 60_exceptions.md R303, in its order -/

/-- The stream commands of 41_bytestream.md R134 that answer ERR_OWNER. -/
def Instr.violatesOwnership : Instr → Bool
  | .bsPush .inbound _ => true
  | .bsClose .inbound => true
  | .bsPop .outbound _ => true
  | _ => false

/-- The causes of ERR_OPERAND (60_exceptions.md R302). -/
def Instr.operandOutOfRange (c : Config) : Instr → Bool
  | .bsPush _ data => decide (c.maxDataLen.toNat < data.length)
  | .raInsert _ first data =>
    decide (c.maxDataLen.toNat < data.length) || decide (2 ^ 64 - 1 < first.toNat + data.length)
  | .rxRecv sd => decide (c.maxDataLen.toNat < sd.payload.length)
  | .txRecv sd => decide (c.maxDataLen.toNat < sd.payload.length)
  | .prRecv sd => decide (c.maxDataLen.toNat < sd.payload.length)
  | .sqWrap _ b => decide (2 ^ 32 ≤ b.toNat)
  | .sqUnwrap a b _ => decide (2 ^ 32 ≤ a.toNat) || decide (2 ^ 32 ≤ b.toNat)
  | _ => false

/-- The mapped addresses of 46_register_access.md R281. -/
def addressMapped (hasPeer : Bool) (a : Nat) : Bool :=
  decide (a ≤ 0x07) || (decide (0x10 ≤ a) && decide (a ≤ 0x15)) || (decide (0x18 ≤ a) && decide (a ≤ 0x1D)) ||
    (decide (0x20 ≤ a) && decide (a ≤ 0x23)) || (decide (0x30 ≤ a) && decide (a ≤ 0x31)) ||
    (decide (0x40 ≤ a) && decide (a ≤ 0x49)) || (decide (0xF0 ≤ a) && decide (a ≤ 0xF1)) ||
    (hasPeer && (decide (0x50 ≤ a) && decide (a ≤ 0x52)))

/-- RDREG of an unmapped address. -/
def Instr.addressUnmapped (c : Config) : Instr → Bool
  | .rdreg a => !addressMapped c.hasPeer a.toNat
  | _ => false

/-- A property of the whole command the decoder read, `false` where it read no whole command. -/
def Decoded.commandHas (d : Decoded) (p : Instr → Bool) : Bool :=
  match d with
  | .command i _ => p i
  | _ => false

namespace Machine

/-- The checks 1 to 7 of R303 on what the decoder read, each with the status it reports. -/
def checks (b : Block) (d : Decoded) : List (Bool × Status) :=
  [ (b.sys.fault && d.opcode != some .rdreg, .fault),
    (d.opcode == none, .errOpcode),
    (d.opcode.any Opcode.isPeer && !b.cfg.hasPeer, .errNopeer),
    (match d with | .reservedBits _ _ => true | _ => false, .errRsvd),
    (d.commandHas fun i => i.descriptor.any fun sd => sd.rsvd != 0, .errRsvd),
    (d.commandHas Instr.violatesOwnership, .errOwner),
    (d.commandHas (Instr.operandOutOfRange b.cfg), .errOperand),
    (d.commandHas (Instr.addressUnmapped b.cfg), .errReg) ]

/-- The status of the first check that holds. -/
def firstFailed (b : Block) (d : Decoded) : Option Status :=
  ((checks b d).find? fun c => c.1).map fun c => c.2

/-! ## Runs of commands -/

/-- Commands performed one after another, in the order the host issues them (20_memory.md R68). -/
def runCommands : List Instr → State → Result
  | [], s => .next s
  | i :: is, s =>
    match exec i s with
    | .next t => runCommands is t
    | .fault f => .fault f
    | .refused r => .refused r

/-! ## What a command may write: the "State written" lists of the command rules -/

/-- From `b` to `b'` the command writes nothing but the state its rule lists, and SYS, which a fault writes
(60_exceptions.md R304). -/
def writesOnlyItsState (i : Instr) (b b' : Block) : Prop :=
  match i with
  | .sqWrap _ _ => b' = b
  | .sqUnwrap _ _ _ => b' = b
  | .bsPeek _ => b' = b
  | .rxSend => b' = b
  | .txEmpty => b' = b
  | .rdreg _ => b' = b
  | .bsPush _ _ =>
    b' = { b with
      bsOut := { b.bsOut with buf := b'.bsOut.buf, bytesPushed := b'.bsOut.bytesPushed }, sys := b'.sys }
  | .bsClose _ => b' = { b with bsOut := { b.bsOut with closed := b'.bsOut.closed }, sys := b'.sys }
  | .bsSeterr .inbound => b' = { b with bsIn := { b.bsIn with error := b'.bsIn.error }, sys := b'.sys }
  | .bsSeterr .outbound => b' = { b with bsOut := { b.bsOut with error := b'.bsOut.error }, sys := b'.sys }
  | .bsPop _ _ =>
    b' = { b with
      bsIn := { b.bsIn with buf := b'.bsIn.buf, bytesPopped := b'.bsIn.bytesPopped }, sys := b'.sys }
  | .raInsert _ _ _ =>
    b' = { b with
      ra := b'.ra
      bsIn := { b.bsIn with
        buf := b'.bsIn.buf, bytesPushed := b'.bsIn.bytesPushed, closed := b'.bsIn.closed }
      sys := b'.sys }
  | .rxRecv _ =>
    b' = { b with
      ra := b'.ra
      rx := b'.rx
      bsIn := { b.bsIn with
        buf := b'.bsIn.buf, bytesPushed := b'.bsIn.bytesPushed, closed := b'.bsIn.closed
        error := b'.bsIn.error }
      sys := b'.sys }
  | .txPush =>
    b' = { b with
      bsOut := { b.bsOut with buf := b'.bsOut.buf, bytesPopped := b'.bsOut.bytesPopped }
      tx := { b.tx with
        outstanding := b'.tx.outstanding, bytesSent := b'.tx.bytesSent, synSent := b'.tx.synSent
        finSent := b'.tx.finSent, timerRunning := b'.tx.timerRunning
        timerElapsed := b'.tx.timerElapsed, rto := b'.tx.rto }
      sys := b'.sys }
  | .prPush =>
    b' = { b with
      bsOut := { b.bsOut with buf := b'.bsOut.buf, bytesPopped := b'.bsOut.bytesPopped }
      tx := { b.tx with
        outstanding := b'.tx.outstanding, bytesSent := b'.tx.bytesSent, synSent := b'.tx.synSent
        finSent := b'.tx.finSent, timerRunning := b'.tx.timerRunning
        timerElapsed := b'.tx.timerElapsed, rto := b'.tx.rto }
      sys := b'.sys }
  | .txRecv _ =>
    b' = { b with
      bsOut := { b.bsOut with error := b'.bsOut.error }
      tx := { b.tx with
        windowSize := b'.tx.windowSize, bytesAcked := b'.tx.bytesAcked, outstanding := b'.tx.outstanding
        rto := b'.tx.rto, timerElapsed := b'.tx.timerElapsed, timerRunning := b'.tx.timerRunning
        consecutiveRetx := b'.tx.consecutiveRetx }
      sys := b'.sys }
  | .txTick _ =>
    b' = { b with
      tx := { b.tx with
        timerElapsed := b'.tx.timerElapsed, rto := b'.tx.rto, consecutiveRetx := b'.tx.consecutiveRetx }
      sys := b'.sys }
  | .prTick _ =>
    b' = { b with
      pr := { b.pr with cumulativeTimeMs := b'.pr.cumulativeTimeMs }
      tx := { b.tx with
        timerElapsed := b'.tx.timerElapsed, rto := b'.tx.rto, consecutiveRetx := b'.tx.consecutiveRetx }
      sys := b'.sys }
  | .prRecv _ =>
    b' = { b with
      pr := { b.pr with timeOfLastReceiptMs := b'.pr.timeOfLastReceiptMs, linger := b'.pr.linger }
      ra := b'.ra
      rx := b'.rx
      bsIn := { b.bsIn with
        buf := b'.bsIn.buf, bytesPushed := b'.bsIn.bytesPushed, closed := b'.bsIn.closed
        error := b'.bsIn.error }
      bsOut := { b.bsOut with error := b'.bsOut.error }
      tx := { b.tx with
        windowSize := b'.tx.windowSize, bytesAcked := b'.tx.bytesAcked, outstanding := b'.tx.outstanding
        rto := b'.tx.rto, timerElapsed := b'.tx.timerElapsed, timerRunning := b'.tx.timerRunning
        consecutiveRetx := b'.tx.consecutiveRetx }
      sys := b'.sys }

/-! ## Readings of single rules -/

/-- The distance of two sequence positions. -/
def distance (a b : Nat) : Nat := (a - b) + (b - a)

/-- `n` is the value 40_sequence.md R111 and R112 name: a 64-bit value congruent to `raw − zp`, no other
such value is nearer to the checkpoint `c`, and of two equally near ones it is the lower. -/
def isNearest (raw zp c n : Nat) : Prop :=
  n < 2 ^ 64 ∧ (zp + n) % 2 ^ 32 = raw ∧
    ∀ m, m < 2 ^ 64 → (zp + m) % 2 ^ 32 = raw →
      distance n c < distance m c ∨ (distance n c = distance m c ∧ n ≤ m)

/-- The message one pass of the loop of 44_sender.md R212 sends, `none` when the loop exits there. -/
def nextSegment (b : Block) : Option SenderMessage :=
  let right := b.tx.bytesAcked.toNat + (if b.tx.windowSize = 0 then 1 else b.tx.windowSize.toNat)
  let sent := b.tx.bytesSent.toNat
  let room := right - sent
  let syn := !b.tx.synSent
  let n := min (min b.cfg.maxPayload.toNat (room - b2n syn)) b.bsOut.buf.length
  let finished := b.bsOut.closed && decide (n = b.bsOut.buf.length)
  let fin := finished && decide (b2n syn + n + 1 ≤ room)
  if b.tx.finSent = true ∨ right ≤ sent ∨ b2n syn + n + b2n fin = 0 then none
  else
    some
      { seqno := b.tx.zeroPoint + BitVec.ofNat 32 sent, syn := syn, payload := b.bsOut.buf.take n,
        fin := fin, rst := b.bsOut.error }

/-- The block after a pass of R212 has sent `sm`. -/
def afterSegment (b : Block) (sm : SenderMessage) : Block :=
  { b with
    bsOut := { b.bsOut with
      buf := b.bsOut.buf.drop sm.payload.length
      bytesPopped := b.bsOut.bytesPopped + BitVec.ofNat 64 sm.payload.length }
    tx := { b.tx with
      outstanding := b.tx.outstanding ++ [{ absSeqno := b.tx.bytesSent, sm := sm }]
      bytesSent := b.tx.bytesSent + BitVec.ofNat 64 sm.seqLen
      synSent := b.tx.synSent || sm.syn
      finSent := b.tx.finSent || sm.fin
      timerRunning := true
      timerElapsed := if b.tx.timerRunning then b.tx.timerElapsed else 0
      rto := if b.tx.timerRunning then b.tx.rto else b.cfg.initialRto.zeroExtend 64 } }

/-- The passes of R212 that send the messages `ms` from `b` reach `b'`, no counter overflowing. -/
def sends : Block → List SenderMessage → Block → Prop
  | b, [], b' => b' = b
  | b, sm :: ms, b' =>
    nextSegment b = some sm ∧ b.tx.bytesSent.toNat + sm.seqLen < 2 ^ 64 ∧ sends (afterSegment b sm) ms b'

/-- A sender message with the receiver part of the descriptor `a` (30_encoding.md R85, `merge`). -/
def mergeReceiver (sm a : Sd) : Sd :=
  { sm with ackno := a.ackno, window := a.window, akv := a.akv, rstR := a.rstR }

end Machine

end Sys2Proof
end

