-- ==== Sys2Proof/Certificates/Slice0/Obligations.lean ====
section
/-! DEFINITION. The statements for the provers. `s.Inv` is the model's invariant (Sys2Proof/Safety.lean), which
`Obligations.ResetMeetsTheInvariant` and `Obligations.StepKeepsTheInvariant` state of every run. -/

open Sys2Proof Sys2Proof.Machine

/-! ## Encoding (30_encoding.md) -/

/-- R80 to R83, R86: whatever follows on the port, the transaction of a well-formed command decodes to that
command, operand for operand, and leaves exactly what follows it. -/
def Obligations.EncodedCommandsDecode : Prop :=
  ∀ (i : Instr) (rest : List Byte), i.wellFormed = true → decode (encode i ++ rest) = .command i rest

/-- R80 to R83, R86: what decodes to a command is that command's transaction and nothing else. -/
def Obligations.DecodedCommandsReencode : Prop :=
  ∀ (bs : List Byte) (i : Instr) (rest : List Byte), decode bs = .command i rest →
    i.wellFormed = true ∧ bs = encode i ++ rest

/-- R92, and words written out from R81 to R83: `bs.push out, "cat"`; `ra.insert.last 1, "b"`; `sq.wrap
4294967313, 15`; `tx.recv ack=1 win=1000`. -/
def Obligations.SpecWordsDecode : Prop :=
  decode [0x10, 0x01, 0, 0, 0x03, 0, 0, 0, 0x63, 0x61, 0x74] =
      .command (.bsPush .outbound [0x63, 0x61, 0x74]) [] ∧
    decode [0x20, 0x02, 0, 0, 1, 0, 0, 0, 0, 0, 0, 0, 1, 0, 0, 0, 0x62] =
      .command (.raInsert true 1 [0x62]) [] ∧
    decode [0x01, 0, 0, 0, 0x11, 0, 0, 0, 1, 0, 0, 0, 15, 0, 0, 0, 0, 0, 0, 0] =
      .command (.sqWrap 4294967313 15) [] ∧
    decode [0x41, 0, 0, 0, 0, 0, 0, 0, 1, 0, 0, 0, 0xE8, 3, 0, 0, 8, 0, 0, 0] =
      .command
        (.txRecv
          { seqno := 0, ackno := 1, window := 1000, syn := false, fin := false, rstS := false, akv := true,
            rstR := false, rsvd := 0, payload := [] }) []

/-- R80, R82: a transaction of a defined opcode, whether or not its must-be-0 bits are 0, is as long as its
format and its DLEN or PLEN say. -/
def Obligations.TransactionLengthIsTheFormats : Prop :=
  ∀ bs : List Byte, (decode bs).opcode ≠ none →
    ∃ n, transactionLength bs = some n ∧ n ≤ bs.length ∧ (decode bs).rest = bs.drop n

/-- R87: a CMD word selects at most one row, and a decoded command is of the row its CMD word selects; a word
that selects no row is an undefined opcode, or a defined one with a must-be-0 bit set. -/
def Obligations.CmdWordSelectsOneRow : Prop :=
  (∀ (cmd : U32) (o o' : Opcode), o.selects cmd = true → o'.selects cmd = true → o = o') ∧
    ∀ (bs tail : List Byte) (cmd : U32), take32 bs = some (cmd, tail) →
      (∀ i rest, decode bs = .command i rest → i.opcode.selects cmd = true) ∧
      (∀ o rest, decode bs = .reservedBits o rest →
        o.code = cmd.extractLsb' 0 8 ∧ ∀ o', Opcode.selects o' cmd = false) ∧
      (∀ opc rest, decode bs = .undefinedOpcode opc rest →
        opc = cmd.extractLsb' 0 8 ∧ rest = tail ∧ ∀ o, Opcode.code o ≠ opc)

/-- R89: the undefined OPC values are the ranges the rule lists; in a block that is not in the fault state
such a word answers ERR_OPCODE, changes no state, and is alone consumed. -/
def Obligations.UndefinedOpcodesAreRefused : Prop :=
  (∀ opc : Byte, Opcode.ofCode opc = none ↔
    opc.toNat = 0 ∨ (0x03 ≤ opc.toNat ∧ opc.toNat ≤ 0x0F) ∨ (0x15 ≤ opc.toNat ∧ opc.toNat ≤ 0x1F) ∨
      (0x21 ≤ opc.toNat ∧ opc.toNat ≤ 0x2F) ∨ (0x32 ≤ opc.toNat ∧ opc.toNat ≤ 0x3F) ∨
      (0x44 ≤ opc.toNat ∧ opc.toNat ≤ 0x4F) ∨ (0x53 ≤ opc.toNat ∧ opc.toNat ≤ 0x6F) ∨ 0x71 ≤ opc.toNat) ∧
    ∀ (s : State) (cmd : U32) (tail : List Byte), s.resetIn = none → take32 s.port = some (cmd, tail) →
      Opcode.ofCode (cmd.extractLsb' 0 8) = none → s.block.sys.fault = false →
      step s = .next ((s.setPort tail).answer (Response.bare .errOpcode))

/-! ## The step -/

/-- R7, R80: with no reset asked for, a whole transaction at the head of the port is performed as the command
it decodes to, its bytes consumed first. A port without one leaves the state as it is: that clause is the
model's choice (log entry 2). -/
def Obligations.StepRunsTheDecodedCommand : Prop :=
  (∀ (s : State) (i : Instr) (rest : List Byte), s.resetIn = none → decode s.port = .command i rest →
    step s = exec i (s.setPort rest)) ∧
    ∀ s : State, s.resetIn = none → decode s.port = .incomplete → step s = .next s

/-- R7, R80, R82: the bytes of a well-formed command on the port are performed as that command. -/
def Obligations.StepRunsTheEncodedCommand : Prop :=
  ∀ (s : State) (i : Instr) (rest : List Byte), s.resetIn = none → i.wellFormed = true →
    s.port = encode i ++ rest → step s = exec i (s.setPort rest)

/-- R303, with the operand causes of R302, the unmapped addresses of R281 and the fault state of R304: the
first check that holds is the one reported, with nothing else done; when none holds the command is performed,
or faults in its execution. In every case the step consumes the transaction the decoder read and no more. For
a rejected command that is R301's; that a FAULT answer consumes as much, the CMD word alone of an undefined
opcode, is the model's reading (log entry 7). -/
def Obligations.FirstFailedCheckIsReported : Prop :=
  ∀ s : State, s.resetIn = none → decode s.port ≠ .incomplete →
    (∀ st, firstFailed s.block (decode s.port) = some st →
      step s = .next ((s.setPort (decode s.port).rest).answer (Response.bare st))) ∧
    (firstFailed s.block (decode s.port) = none →
      ∃ t r, step s = .next t ∧ t.port = (decode s.port).rest ∧ t.resp = some r ∧
        (r.status = .ok ∨ (r.status = .fault ∧ t.block.sys.fault = true)))

/-- R63, R83, R300: the response of every command as bytes: the status code, the eight bytes of R0 with the
least significant first, RDATA, then the descriptors, each of which a reader of R83's format reads back whole
whatever follows it. The order of the elements, with nothing between them, is the model's choice (log entry
18). -/
def Obligations.ResponseBytesReadBack : Prop :=
  ∀ (i : Instr) (s t : State) (r : Response), s.Inv → exec i s = .next t → t.resp = some r →
    t.responseBytes = some r.bytes ∧
    r.bytes.head? = some r.status.code ∧
    (∀ k, k < 8 → r.bytes[1 + k]? = some (BitVec.ofNat 8 (r.r0.toNat / 2 ^ (8 * k)))) ∧
    r.bytes.drop 9 = r.rdata ++ (bytesSds r.rsd.toList ++ bytesSds r.emit) ∧
    ∀ (sd : Sd) (rest : List Byte), r.rsd = some sd ∨ sd ∈ r.emit →
      takeSd (bytesSd sd ++ rest) = some (sd, rest)

/-! ## Reset (70_reset_and_hazards.md, 10_state.md R46) -/

/-- R46: the value of every state element after reset. -/
def Obligations.ResetGivesTheResetValues : Prop :=
  ∀ (s : State) (c : Config), s.resetIn = some c → c.legal = true →
    ∃ t, step s = .next t ∧
      t.block.cfg = c ∧
      t.block.bsIn.capacity = c.capIn ∧ t.block.bsOut.capacity = c.capOut ∧
      (∀ sel, (t.block.stream sel).buf = [] ∧ (t.block.stream sel).bytesPushed = 0 ∧
        (t.block.stream sel).bytesPopped = 0 ∧ (t.block.stream sel).closed = false ∧
        (t.block.stream sel).error = false) ∧
      t.block.ra.pending = [] ∧ t.block.ra.nextIndex = 0 ∧ t.block.ra.endIndex = none ∧
      t.block.rx.synSeen = false ∧ t.block.rx.zeroPoint = 0 ∧
      t.block.tx.zeroPoint = c.isn ∧ t.block.tx.bytesSent = 0 ∧ t.block.tx.bytesAcked = 0 ∧
      t.block.tx.outstanding = [] ∧ t.block.tx.windowSize = 1 ∧ t.block.tx.timerElapsed = 0 ∧
      t.block.tx.rto = c.initialRto.zeroExtend 64 ∧ t.block.tx.timerRunning = false ∧
      t.block.tx.consecutiveRetx = 0 ∧ t.block.tx.synSent = false ∧ t.block.tx.finSent = false ∧
      t.block.pr.linger = true ∧ t.block.pr.cumulativeTimeMs = 0 ∧ t.block.pr.timeOfLastReceiptMs = 0 ∧
      t.block.sys.fault = false ∧ t.block.sys.faultCause = .none

/-- R340, R342: reset latches any configuration of the ranges of R10 whatever the block was doing, and
discards what the port holds. That all the port's bytes and the last response go is the model's choice (log
entries 3 and 4), and so is the refusal of a configuration outside the ranges (log entry 5). -/
def Obligations.ResetTakesLegalConfigurations : Prop :=
  ∀ (s : State) (c : Config), s.resetIn = some c →
    (1 ≤ c.initialRto.toNat →
      ∃ t, step s = .next t ∧ t.block.cfg = c ∧ t.block.sys.fault = false ∧ t.port = [] ∧ t.resetIn = none ∧
        t.resp = none) ∧
    (c.initialRto.toNat = 0 → step s = .refused .illegalConfig)

/-- R343: the register values right after a reset with the default configuration and ISN = z. -/
def Obligations.RegistersAfterReset : Prop :=
  ∀ z : U32,
    let s := State.resetWith { Config.default with isn := z }
    ∀ p ∈ ([(0x00, 0x4D544307), (0x01, 0x1), (0x02, 1000), (0x03, z.zeroExtend 64), (0x04, 1000), (0x05, 8),
        (0x06, 65535), (0x07, 65535), (0x10, 64000), (0x18, 64000), (0x11, 0), (0x12, 0), (0x13, 0),
        (0x19, 0), (0x1A, 0), (0x1B, 0), (0x14, 64000), (0x1C, 64000), (0x15, 0), (0x1D, 0), (0x20, 0),
        (0x21, 0), (0x22, 0), (0x23, 0), (0x30, 0), (0x31, 0), (0x40, z.zeroExtend 64), (0x41, 0), (0x42, 0),
        (0x43, 0), (0x44, 1), (0x45, 0), (0x46, 1000), (0x47, 0), (0x48, 0), (0x49, 0), (0x50, 0x3),
        (0x51, 0), (0x52, 0), (0xF0, 0), (0xF1, 0)] : List (U64 × U64)),
      exec (.rdreg p.1) s = .next (s.answer (Response.word p.2))

/-- The state after reset, with any legal configuration, meets the invariant. -/
def Obligations.ResetMeetsTheInvariant : Prop :=
  State.reset.Inv ∧ ∀ c : Config, c.legal = true → (State.resetWith c).Inv

/-! ## Invariants -/

/-- R24, R27, R31: every step keeps the invariant, from every state that meets it. -/
def Obligations.StepKeepsTheInvariant : Prop :=
  ∀ s t : State, s.Inv → step s = .next t → t.Inv

/-- R304, cause 3: by the rules it cannot happen. -/
def Obligations.InvariantFaultNeverHappens : Prop :=
  ∀ s t : State, s.Inv → step s = .next t → t.block.sys.faultCause = .invariant →
    s.block.sys.faultCause = .invariant

/-- R27 (c): while IN is neither closed nor in error, RA.next_index is IN.bytes_pushed; every step keeps it
so. -/
def Obligations.NextIndexTracksBytesPushed : Prop :=
  ∀ s t : State, s.Inv →
    (s.block.bsIn.closed = false → s.block.bsIn.error = false →
      s.block.ra.nextIndex = s.block.bsIn.bytesPushed) →
    step s = .next t → t.block.bsIn.closed = false → t.block.bsIn.error = false →
    t.block.ra.nextIndex = t.block.bsIn.bytesPushed

/-- R139: the capacity law, as the host reads it at the registers of either stream. -/
def Obligations.CapacityLaw : Prop :=
  ∀ s : State, s.Inv → ∀ base ∈ ([0x10, 0x18] : List U64),
    ∃ capacity buffered available : U64,
      exec (.rdreg base) s = .next (s.answer (Response.word capacity)) ∧
      exec (.rdreg (base + 3)) s = .next (s.answer (Response.word buffered)) ∧
      exec (.rdreg (base + 4)) s = .next (s.answer (Response.word available)) ∧
      available.toNat + buffered.toNat = capacity.toNat ∧ available.toNat ≤ capacity.toNat

/-! ## Rejections and the fault state (60_exceptions.md) -/

/-- R304, R310: in the fault state every command but RDREG answers FAULT and changes nothing, and no sequence
of commands changes the block, its fault cause included. -/
def Obligations.FaultStateAnswersFault : Prop :=
  ∀ s : State, s.block.sys.fault = true →
    (∀ i : Instr, (∀ a, i ≠ .rdreg a) → exec i s = .next (s.answer (Response.bare .fault))) ∧
    ∀ is : List Instr, ∃ t, runCommands is s = .next t ∧ t.block = s.block

/-- R304: a command that enters the fault state leaves the state before it, but for SYS.fault and
SYS.fault_cause, and answers FAULT with nothing else; a command that answers FAULT and was not in the fault
state enters it. -/
def Obligations.FaultEntryDiscardsEffects : Prop :=
  ∀ (i : Instr) (s t : State), exec i s = .next t → s.block.sys.fault = false →
    (t.block.sys.fault = true ∨ ∃ r, t.resp = some r ∧ r.status = .fault) →
    ∃ c : FaultCause, c ≠ .none ∧
      t = { s with
        block := { s.block with sys := { fault := true, faultCause := c } }
        resp := some { status := .fault, r0 := 0, rdata := [], rsd := none, emit := [] } }

/-- R301: a rejected command changes no state and returns nothing but its status; the port consumes the whole
transaction of a defined OPC, and only the CMD word of an undefined one. -/
def Obligations.RejectedCommandsHaveNoEffect : Prop :=
  ∀ (s t : State) (r : Response), s.resetIn = none → decode s.port ≠ .incomplete → step s = .next t →
    t.resp = some r → r.status ≠ .ok → r.status ≠ .fault →
    t.block = s.block ∧
      r = { status := r.status, r0 := 0, rdata := [], rsd := none, emit := [] } ∧
      t.port = s.port.drop ((transactionLength s.port).getD 4) ∧
      (transactionLength s.port = none → r.status = .errOpcode)

/-- R70: every command completes with a response; no step faults, and none is refused but a reset with a
configuration outside the ranges of R10 (that refusal is the model's choice, log entry 5). -/
def Obligations.EveryCommandCompletes : Prop :=
  (∀ (i : Instr) (s : State), ∃ t r, exec i s = .next t ∧ t.resp = some r) ∧
    ∀ s : State, (∃ t, step s = .next t) ∨
      (∃ c, s.resetIn = some c ∧ c.initialRto = 0 ∧ step s = .refused .illegalConfig)

/-- R15: when HAS_PEER = 0 the PRU's commands answer ERR_NOPEER and its registers ERR_REG. -/
def Obligations.WithoutPeerNoPeerCommandsOrRegisters : Prop :=
  ∀ s : State, s.block.cfg.hasPeer = false →
    (s.block.sys.fault = false →
      (∀ sd, exec (.prRecv sd) s = .next (s.answer (Response.bare .errNopeer))) ∧
      exec .prPush s = .next (s.answer (Response.bare .errNopeer)) ∧
      (∀ ms, exec (.prTick ms) s = .next (s.answer (Response.bare .errNopeer)))) ∧
    ∀ a ∈ ([0x50, 0x51, 0x52] : List U64), exec (.rdreg a) s = .next (s.answer (Response.bare .errReg))

/-! ## The whole machine -/

/-- R45, "cleared by": but for a reset, no step clears a flag the table clears by reset only; the timer stops
only in a command that takes a receiver message and leaves the queue empty; PR.linger is cleared only by
PR.RECV and never set. -/
def Obligations.FlagsAreClearedOnlyAsListed : Prop :=
  ∀ (i : Instr) (s t : State), exec i s = .next t →
    (∀ sel, (s.block.stream sel).closed = true → (t.block.stream sel).closed = true) ∧
    (∀ sel, (s.block.stream sel).error = true → (t.block.stream sel).error = true) ∧
    (s.block.rx.synSeen = true → t.block.rx.synSeen = true) ∧
    (s.block.ra.endIndex ≠ none → t.block.ra.endIndex ≠ none) ∧
    (s.block.tx.synSent = true → t.block.tx.synSent = true) ∧
    (s.block.tx.finSent = true → t.block.tx.finSent = true) ∧
    (s.block.sys.fault = true → t.block.sys.fault = true) ∧
    (s.block.tx.timerRunning = true → t.block.tx.timerRunning = false →
      t.block.tx.outstanding = [] ∧ ∃ sd, i = .txRecv sd ∨ i = .prRecv sd) ∧
    (s.block.pr.linger = true → t.block.pr.linger = false → ∃ sd, i = .prRecv sd) ∧
    (s.block.pr.linger = false → t.block.pr.linger = false)

/-- R45, "set by": each flag is set only by the commands the table lists (PR.RECV acting for RX.RECV and
TX.RECV, and PR.PUSH for TX.PUSH), a SYN or RST flag in the descriptor where the table asks for one. -/
def Obligations.FlagsAreSetOnlyAsListed : Prop :=
  ∀ (i : Instr) (s t : State), exec i s = .next t →
    (s.block.bsOut.closed = false → t.block.bsOut.closed = true → i = .bsClose .outbound) ∧
    (s.block.bsIn.closed = false → t.block.bsIn.closed = true →
      (∃ last f d, i = .raInsert last f d) ∨ ∃ sd, i = .rxRecv sd ∨ i = .prRecv sd) ∧
    (s.block.bsIn.error = false → t.block.bsIn.error = true →
      i = .bsSeterr .inbound ∨ ∃ sd, (i = .rxRecv sd ∨ i = .prRecv sd) ∧ sd.rstS = true) ∧
    (s.block.bsOut.error = false → t.block.bsOut.error = true →
      i = .bsSeterr .outbound ∨ ∃ sd, (i = .txRecv sd ∨ i = .prRecv sd) ∧ sd.rstR = true) ∧
    (s.block.rx.synSeen = false → t.block.rx.synSeen = true →
      ∃ sd, (i = .rxRecv sd ∨ i = .prRecv sd) ∧ sd.syn = true ∧ sd.rstS = false) ∧
    (s.block.ra.endIndex = none → t.block.ra.endIndex ≠ none →
      (∃ f d, i = .raInsert true f d) ∨ ∃ sd, (i = .rxRecv sd ∨ i = .prRecv sd) ∧ sd.fin = true) ∧
    (s.block.tx.timerRunning = false → t.block.tx.timerRunning = true →
      (i = .txPush ∨ i = .prPush) ∧ ∃ r, t.resp = some r ∧ r.emit ≠ []) ∧
    (s.block.tx.synSent = false → t.block.tx.synSent = true → i = .txPush ∨ i = .prPush) ∧
    (s.block.tx.finSent = false → t.block.tx.finSent = true → i = .txPush ∨ i = .prPush) ∧
    (s.block.sys.fault = false → t.block.sys.fault = true → ∃ r, t.resp = some r ∧ r.status = .fault)

/-- R34, R282: no command writes cfg; the capacities and the sender's zero point stay as reset set them, and
the receiver's zero point as the first SYN set it (R192 (b)). -/
def Obligations.ConfigurationNeverChanges : Prop :=
  ∀ s t : State, s.resetIn = none → step s = .next t →
    t.resetIn = none ∧ t.block.cfg = s.block.cfg ∧
    (∀ sel, (t.block.stream sel).capacity = (s.block.stream sel).capacity) ∧
    t.block.tx.zeroPoint = s.block.tx.zeroPoint ∧
    (s.block.rx.synSeen = true → t.block.rx.zeroPoint = s.block.rx.zeroPoint)

/-- R23 ("monotonically increasing"), R161, R212, R218, R257, R258: bytes_pushed and bytes_popped of either
stream, RA.next_index, TX.bytes_sent, TX.bytes_acked and the peer's two times never decrease but by reset. It
does not speak of TX.consecutive_retx, which an ack clears (R218), nor of TX.timer_elapsed, which restarts
(R224). -/
def Obligations.CountersNeverDecrease : Prop :=
  ∀ s t : State, s.Inv → s.resetIn = none → step s = .next t →
    (∀ sel, (s.block.stream sel).bytesPushed ≤ (t.block.stream sel).bytesPushed ∧
      (s.block.stream sel).bytesPopped ≤ (t.block.stream sel).bytesPopped) ∧
    s.block.ra.nextIndex ≤ t.block.ra.nextIndex ∧
    s.block.tx.bytesSent ≤ t.block.tx.bytesSent ∧ s.block.tx.bytesAcked ≤ t.block.tx.bytesAcked ∧
    s.block.pr.cumulativeTimeMs ≤ t.block.pr.cumulativeTimeMs ∧
    s.block.pr.timeOfLastReceiptMs ≤ t.block.pr.timeOfLastReceiptMs

/-- R66: RDREG, BS.PEEK, RX.SEND, TX.EMPTY, SQ.WRAP and SQ.UNWRAP have no side effect: performed any number
of times, in any mixture, they leave the block as it was. -/
def Obligations.QueriesChangeNoState : Prop :=
  ∀ (is : List Instr) (s : State), (∀ i ∈ is, i.isQuery = true) →
    ∃ t, runCommands is s = .next t ∧ t.block = s.block

/-- The frame of every command: it writes nothing but the fields of its rule's "State written" list, the last
response, and SYS when it enters the fault state. The one sparse store, RA.pending, is framed byte by byte in
`Obligations.RaInsertResult`. -/
def Obligations.CommandsWriteOnlyTheirState : Prop :=
  ∀ (i : Instr) (s t : State), exec i s = .next t →
    writesOnlyItsState i s.block t.block ∧ t.port = s.port ∧ t.resetIn = s.resetIn ∧
      (t.block.sys = s.block.sys ∨
        ∃ c, t = (s.setBlock (s.block.setSys { fault := true, faultCause := c })).answer (Response.bare .fault))

/-- R305, R227: the give-up condition is only a status bit: MAX_RETX_ATTEMPTS, which defines it, changes
nothing that any command but RDREG does. -/
def Obligations.GiveUpIsOnlyAStatusBit : Prop :=
  ∀ (i : Instr) (s t : State) (m : U32), (∀ a, i ≠ .rdreg a) → exec i s = .next t →
    exec i { s with block := { s.block with cfg := { s.block.cfg with maxRetx := m } } } =
      .next { t with block := { t.block with cfg := { t.block.cfg with maxRetx := m } } }

/-! ## SQU (40_sequence.md) -/

/-- R110: SQ.WRAP, with its row of the opcode map (`encodedAs`), which the encoder follows
(`Obligations.EncodedCommandsDecode`). -/
def Obligations.SqWrapResult : Prop :=
  (∀ a b, (Instr.sqWrap a b).encodedAs 0x01 .ab) ∧ ∀ (s : State) (a b : U64), s.block.sys.fault = false →
    (b.toNat < 2 ^ 32 →
      exec (.sqWrap a b) s =
        .next (s.answer (Response.word (BitVec.ofNat 64 ((b.toNat + a.toNat) % 2 ^ 32))))) ∧
    (2 ^ 32 ≤ b.toNat → exec (.sqWrap a b) s = .next (s.answer (Response.bare .errOperand)))

/-- R111, R112: SQ.UNWRAP answers the congruent 64-bit value nearest to the checkpoint, the lower one on a
tie. -/
def Obligations.SqUnwrapNearestCandidate : Prop :=
  (∀ a b c, (Instr.sqUnwrap a b c).encodedAs 0x02 .abc) ∧
    ∀ (s : State) (a b c : U64), s.block.sys.fault = false →
    (a.toNat < 2 ^ 32 → b.toNat < 2 ^ 32 →
      ∃ n : U64, isNearest a.toNat b.toNat c.toNat n.toNat ∧
        exec (.sqUnwrap a b c) s = .next (s.answer (Response.word n))) ∧
    ((2 ^ 32 ≤ a.toNat ∨ 2 ^ 32 ≤ b.toNat) →
      exec (.sqUnwrap a b c) s = .next (s.answer (Response.bare .errOperand)))

/-- R113: unwrapping what SQ.WRAP gives, against the wrapped value itself as the checkpoint, gives it back. -/
def Obligations.WrapUnwrapRoundTrip : Prop :=
  ∀ (s : State) (n z : U64), s.block.sys.fault = false → z.toNat < 2 ^ 32 →
    ∃ w : U64, exec (.sqWrap n z) s = .next (s.answer (Response.word w)) ∧
      exec (.sqUnwrap w z n) s = .next (s.answer (Response.word n))

/-! ## BSU (41_bytestream.md) -/

/-- R135: BS.PUSH, by `BS_push` of R130. -/
def Obligations.BsPushResult : Prop :=
  (∀ sel data, (Instr.bsPush sel data).encodedAs 0x10 .d) ∧
    ∀ (s : State) (data : List Byte), s.Inv → s.block.sys.fault = false →
    let out := s.block.bsOut
    let k := min data.length (out.capacity.toNat - (out.bytesPushed.toNat - out.bytesPopped.toNat))
    exec (.bsPush .inbound data) s = .next (s.answer (Response.bare .errOwner)) ∧
    (s.block.cfg.maxDataLen.toNat < data.length →
      exec (.bsPush .outbound data) s = .next (s.answer (Response.bare .errOperand))) ∧
    (data.length ≤ s.block.cfg.maxDataLen.toNat → out.closed = true ∨ out.error = true →
      exec (.bsPush .outbound data) s = .next (s.answer (Response.word 0))) ∧
    (data.length ≤ s.block.cfg.maxDataLen.toNat → out.closed = false → out.error = false →
      out.bytesPushed.toNat + k < 2 ^ 64 →
      exec (.bsPush .outbound data) s =
        .next ((s.setBlock (s.block.setOut
          { out with
            buf := out.buf ++ data.take k
            bytesPushed := BitVec.ofNat 64 (out.bytesPushed.toNat + k) })).answer
          (Response.word (BitVec.ofNat 64 k)))) ∧
    (data.length ≤ s.block.cfg.maxDataLen.toNat → out.closed = false → out.error = false →
      2 ^ 64 ≤ out.bytesPushed.toNat + k →
      exec (.bsPush .outbound data) s = .next (s.enterFault .overflow))

/-- R136: BS.CLOSE. -/
def Obligations.BsCloseResult : Prop :=
  (∀ sel, (Instr.bsClose sel).encodedAs 0x11 .n) ∧ ∀ s : State, s.Inv → s.block.sys.fault = false →
    exec (.bsClose .inbound) s = .next (s.answer (Response.bare .errOwner)) ∧
    exec (.bsClose .outbound) s =
      .next ((s.setBlock (s.block.setOut { s.block.bsOut with closed := true })).answer Response.done)

/-- R137: BS.SETERR, on either stream. -/
def Obligations.BsSeterrResult : Prop :=
  (∀ sel, (Instr.bsSeterr sel).encodedAs 0x12 .n) ∧ ∀ s : State, s.Inv → s.block.sys.fault = false →
    exec (.bsSeterr .inbound) s =
      .next ((s.setBlock (s.block.setIn { s.block.bsIn with error := true })).answer Response.done) ∧
    exec (.bsSeterr .outbound) s =
      .next ((s.setBlock (s.block.setOut { s.block.bsOut with error := true })).answer Response.done)

/-- R133: BS.PEEK, on either stream, closed or in error as it may be. -/
def Obligations.BsPeekResult : Prop :=
  (∀ sel, (Instr.bsPeek sel).encodedAs 0x13 .n) ∧ ∀ s : State, s.block.sys.fault = false →
    (∃ r, exec (.bsPeek .inbound) s = .next (s.answer r) ∧ r.status = .ok ∧ r.rdata = s.block.bsIn.buf ∧
      r.r0 = BitVec.ofNat 64 s.block.bsIn.buf.length ∧ r.rsd = none ∧ r.emit = []) ∧
    (∃ r, exec (.bsPeek .outbound) s = .next (s.answer r) ∧ r.status = .ok ∧ r.rdata = s.block.bsOut.buf ∧
      r.r0 = BitVec.ofNat 64 s.block.bsOut.buf.length ∧ r.rsd = none ∧ r.emit = [])

/-- R138: BS.POP, by `BS_pop` of R131, under either POP_POLICY. -/
def Obligations.BsPopResult : Prop :=
  (∀ sel n, (Instr.bsPop sel n).encodedAs 0x14 .a) ∧
    ∀ (s : State) (n : U64), s.Inv → s.block.sys.fault = false →
    let inn := s.block.bsIn
    let k := min n.toNat inn.buf.length
    exec (.bsPop .outbound n) s = .next (s.answer (Response.bare .errOwner)) ∧
    (n.toNat ≤ inn.buf.length ∨ s.block.cfg.popPolicy = .clamp →
      exec (.bsPop .inbound n) s =
        .next ((s.setBlock (s.block.setIn
          { inn with
            buf := inn.buf.drop k
            bytesPopped := BitVec.ofNat 64 (inn.bytesPopped.toNat + k) })).answer
          (Response.word (BitVec.ofNat 64 k)))) ∧
    (inn.buf.length < n.toNat → s.block.cfg.popPolicy = .fault →
      exec (.bsPop .inbound n) s = .next (s.enterFault .popBeyond))

/-- R134: the ownership table: exactly BS.PUSH and BS.CLOSE on IN and BS.POP on OUT answer ERR_OWNER, and
they change nothing; every other form, BS.SETERR and BS.PEEK on either stream included, never does. -/
def Obligations.PortOwnership : Prop :=
  ∀ (i : Instr) (s t : State) (r : Response), s.block.sys.fault = false → exec i s = .next t →
    t.resp = some r →
    (r.status = .errOwner ↔
      (∃ d, i = .bsPush .inbound d) ∨ i = .bsClose .inbound ∨ ∃ n, i = .bsPop .outbound n) ∧
    (r.status = .errOwner → t.block = s.block)

/-! ## RAU (42_reassembler.md) -/

/-- R160, R161, R162: RA.INSERT, over the per-byte map of pending bytes. `offered` is that map after the
clipped bytes are merged into it; the run of it from next_index on is delivered. -/
def Obligations.RaInsertResult : Prop :=
  (∀ last first data, (Instr.raInsert last first data).encodedAs 0x20 .ad) ∧
  ∀ (s : State) (last : Bool) (first : U64) (data : List Byte), s.Inv → s.block.sys.fault = false →
    (data.length ≤ s.block.cfg.maxDataLen.toNat → first.toNat + data.length ≤ 2 ^ 64 - 1 →
      let inn := s.block.bsIn
      let n := s.block.ra.nextIndex.toNat
      let lo := max first.toNat n
      let hi := min (first.toNat + data.length)
        (n + (inn.capacity.toNat - (inn.bytesPushed.toNat - inn.bytesPopped.toNat)))
      let offered : Nat → Option Byte := fun i =>
        if lo ≤ i ∧ i < hi then data[i - first.toNat]? else s.block.ra.pending.read i
      ∃ (run : List Byte) (ra : Reassembler),
        (∀ j, j < run.length → offered (n + j) = run[j]?) ∧ offered (n + run.length) = none ∧
        ra.pending.wf = true ∧
        (∀ i, ra.pending.read i = if n ≤ i ∧ i < n + run.length then none else offered i) ∧
        ra.nextIndex.toNat = n + run.length ∧
        ra.endIndex =
          (if last then some (BitVec.ofNat 64 (first.toNat + data.length)) else s.block.ra.endIndex) ∧
        exec (.raInsert last first data) s =
          .next ((s.setBlock ((s.block.setRa ra).setIn
            { inn with
              buf := if inn.closed || inn.error then inn.buf else inn.buf ++ run
              bytesPushed :=
                if inn.closed || inn.error then inn.bytesPushed
                else BitVec.ofNat 64 (inn.bytesPushed.toNat + run.length)
              closed := inn.closed || ra.endIndex.any fun e => decide (e ≤ ra.nextIndex) })).answer
            (Response.word (BitVec.ofNat 64 run.length)))) ∧
    (s.block.cfg.maxDataLen.toNat < data.length ∨ 2 ^ 64 - 1 < first.toNat + data.length →
      exec (.raInsert last first data) s = .next (s.answer (Response.bare .errOperand)))

/-- R166: the round-trip law. `pieces` are slices of `str` (LAST, offset, bytes) in any order, overlapping
and repeated as they may be, that together cover it; a LAST marks the end of `str` only. -/
def Obligations.ReassemblyRoundTrip : Prop :=
  ∀ (c : Config) (str : List Byte) (pieces : List (Bool × U64 × List Byte)), c.legal = true →
    str.length ≤ c.capIn.toNat →
    (∀ p ∈ pieces, p.2.2.length ≤ c.maxDataLen.toNat ∧ p.2.1.toNat + p.2.2.length ≤ str.length ∧
      p.2.2 = (str.drop p.2.1.toNat).take p.2.2.length ∧
      (p.1 = true → p.2.1.toNat + p.2.2.length = str.length)) →
    (∀ k, k < str.length → ∃ p ∈ pieces, p.2.1.toNat ≤ k ∧ k < p.2.1.toNat + p.2.2.length) →
    ∃ t, runCommands (pieces.map fun p => .raInsert p.1 p.2.1 p.2.2) (State.resetWith c) = .next t ∧
      t.block.bsIn.buf = str ∧ t.block.ra.pending = [] ∧
      (t.block.bsIn.closed = true ↔ ∃ p ∈ pieces, p.1 = true)

/-! ## RXU (43_receiver.md) -/

/-- R191: RX.RECV of a descriptor that passes the checks of R190. A segment that carries a stream index is
handed to the reassembler: the block is the one RA.INSERT leaves at that index (`unwrap` is the function
SQ.UNWRAP answers, and its value here is R111's nearest 64-bit candidate, the lower one on a tie). A segment
without a stream index is dropped without any effect (R194). That the checkpoint may be 2^64 is the model's
reading (log entry 8). -/
def Obligations.RxRecvResult : Prop :=
  ∀ (s : State) (sd : Sd), s.Inv → s.block.sys.fault = false → sd.rsvd = 0 →
    sd.payload.length ≤ s.block.cfg.maxDataLen.toNat →
    let rx : Receiver :=
      { synSeen := true, zeroPoint := if s.block.rx.synSeen then s.block.rx.zeroPoint else sd.seqno }
    let a := unwrap sd.seqno rx.zeroPoint (s.block.bsIn.bytesPushed.toNat + 1)
    let idx := if sd.syn then a else a - 1
    let dropped := (sd.syn = false ∧ a = 0) ∨ 2 ^ 64 - 1 < idx + sd.payload.length
    isNearest sd.seqno.toNat rx.zeroPoint.toNat (s.block.bsIn.bytesPushed.toNat + 1) a ∧
    (sd.rstS = true →
      exec (.rxRecv sd) s =
        .next ((s.setBlock (s.block.setIn { s.block.bsIn with error := true })).answer Response.done)) ∧
    (sd.rstS = false → s.block.rx.synSeen = false → sd.syn = false →
      exec (.rxRecv sd) s = .next (s.answer Response.done)) ∧
    (sd.rstS = false → s.block.rx.synSeen = true ∨ sd.syn = true → dropped →
      exec (.rxRecv sd) s = .next (s.answer Response.done)) ∧
    (sd.rstS = false → s.block.rx.synSeen = true ∨ sd.syn = true → ¬ dropped →
      ∃ t r, exec (.raInsert sd.fin (BitVec.ofNat 64 idx) sd.payload) (s.setBlock (s.block.setRx rx)) = .next t ∧
        t.resp = some r ∧ r.status = .ok ∧ exec (.rxRecv sd) s = .next (t.answer Response.done))

/-- R195, R196: RX.SEND, under either FIN_ACK_ON. -/
def Obligations.RxSendResult : Prop :=
  Instr.rxSend.encodedAs 0x31 .n ∧ ∀ s : State, s.block.sys.fault = false →
    let inn := s.block.bsIn
    let finished := inn.closed && (inn.bytesPushed == inn.bytesPopped)
    let finCounted := if s.block.cfg.finAckOn = .finished then finished else inn.closed
    let ackno := s.block.rx.zeroPoint.toNat + inn.bytesPushed.toNat + 1 + b2n finCounted
    let available := inn.capacity.toNat - (inn.bytesPushed.toNat - inn.bytesPopped.toNat)
    exec .rxSend s =
      .next (s.answer (Response.descriptor
        { seqno := 0, ackno := if s.block.rx.synSeen then BitVec.ofNat 32 ackno else 0
          window := BitVec.ofNat 16 (min available 65535), syn := false, fin := false, rstS := false
          akv := s.block.rx.synSeen, rstR := inn.error, rsvd := 0, payload := [] }))

/-! ## TXU (44_sender.md) -/

/-- R210 to R213: TX.PUSH sends what the passes of the loop send, until the loop exits, when the right edge
is a 64-bit value. -/
def Obligations.TxPushResult : Prop :=
  ∀ s : State, s.Inv → s.block.sys.fault = false → s.block.tx.rightEdge < 2 ^ 64 →
    ∃ (ms : List SenderMessage) (b : Block), sends s.block ms b ∧ nextSegment b = none ∧
      exec .txPush s = .next ((s.setBlock b).answer (Response.emitted (ms.map sdOfSM)))

/-- R210, R212, R304: wherever the right edge lies, TX.PUSH goes as far as the loop does: to its exit, or to
the first segment that would carry TX.bytes_sent past 2^64 − 1, where it faults and emits nothing. -/
def Obligations.TxPushOverflow : Prop :=
  ∀ (s : State) (ms : List SenderMessage) (b : Block), s.Inv → s.block.sys.fault = false →
    sends s.block ms b →
    (nextSegment b = none →
      exec .txPush s = .next ((s.setBlock b).answer (Response.emitted (ms.map sdOfSM)))) ∧
    (∀ sm, nextSegment b = some sm → 2 ^ 64 ≤ b.tx.bytesSent.toNat + sm.seqLen →
      exec .txPush s = .next (s.enterFault .overflow))

/-- R215, R216 (d), (e), R213: what a TX.PUSH that is performed emits: at most one segment for each sequence
number of the effective window, none empty, none above MAX_PAYLOAD_SIZE, the payloads together the bytes taken
from OUT in order, the sequence numbers contiguous, a FIN only last and only when OUT is finished, the right
edge not passed; and a second TX.PUSH emits nothing. -/
def Obligations.TxPushSegments : Prop :=
  ∀ (s t : State) (r : Response), s.Inv → s.block.sys.fault = false → exec .txPush s = .next t →
    t.resp = some r → r.status = .ok →
    r.emit.length ≤ s.block.tx.effWindow ∧ s.block.tx.effWindow ≤ 65535 ∧
    (∀ sd ∈ r.emit, 0 < b2n sd.syn + sd.payload.length + b2n sd.fin ∧
      sd.payload.length ≤ s.block.cfg.maxPayload.toNat ∧ sd.rstS = s.block.bsOut.error) ∧
    s.block.bsOut.buf = (r.emit.map Sd.payload).flatten ++ t.block.bsOut.buf ∧
    (∃ entries : List OutEntry, t.block.tx.outstanding = s.block.tx.outstanding ++ entries ∧
      r.emit = entries.map (fun e => sdOfSM e.sm) ∧
      contiguousFrom s.block.tx.bytesSent.toNat entries = true ∧
      t.block.tx.bytesSent.toNat = s.block.tx.bytesSent.toNat + totalSeqLen entries ∧
      ∀ e ∈ entries, e.sm.seqno = s.block.cfg.isn + BitVec.ofNat 32 e.absSeqno.toNat) ∧
    (∀ sd ∈ r.emit, sd.fin = true → r.emit.getLast? = some sd ∧ t.block.bsOut.closed = true ∧
      t.block.bsOut.bytesPushed = t.block.bsOut.bytesPopped) ∧
    (t.block.tx.bytesSent.toNat ≤ max s.block.tx.bytesSent.toNat s.block.tx.rightEdge) ∧
    exec .txPush t = .next (t.answer (Response.emitted []))

/-- R218 to R223: TX.RECV of a descriptor that passes the checks of R217. `kept` is what the acknowledgment
leaves in the queue, `removed` what it takes out. -/
def Obligations.TxRecvResult : Prop :=
  ∀ (s : State) (sd : Sd), s.Inv → s.block.sys.fault = false → sd.rsvd = 0 →
    sd.payload.length ≤ s.block.cfg.maxDataLen.toNat →
    let tx := s.block.tx
    let a := unwrap sd.ackno tx.zeroPoint tx.bytesAcked.toNat
    let inRange := sd.akv = true ∧ tx.bytesAcked.toNat < a ∧ a ≤ tx.bytesSent.toNat
    let kept := tx.outstanding.filter fun e => decide (a < e.endSeqno)
    let removed := tx.outstanding.filter fun e => decide (e.endSeqno ≤ a)
    (sd.rstR = true →
      exec (.txRecv sd) s =
        .next ((s.setBlock (s.block.setOut { s.block.bsOut with error := true })).answer Response.done)) ∧
    (sd.rstR = false → ¬ inRange →
      exec (.txRecv sd) s =
        .next ((s.setBlock (s.block.setTx { tx with windowSize := sd.window })).answer Response.done)) ∧
    (sd.rstR = false → inRange →
      exec (.txRecv sd) s =
        .next ((s.setBlock (s.block.setTx
          { tx with
            windowSize := sd.window
            outstanding := kept
            bytesAcked := BitVec.ofNat 64 (tx.bytesAcked.toNat + totalSeqLen removed)
            rto := s.block.cfg.initialRto.zeroExtend 64
            timerElapsed := 0
            consecutiveRetx := 0
            timerRunning := !kept.isEmpty })).answer Response.done))

/-- R224: TX.TICK. -/
def Obligations.TxTickResult : Prop :=
  (∀ ms, (Instr.txTick ms).encodedAs 0x42 .a) ∧ ∀ (s : State) (ms : U64), s.Inv → s.block.sys.fault = false →
    let tx := s.block.tx
    let elapsed := tx.timerElapsed.toNat + ms.toNat
    let fires := tx.timerRunning = true ∧ tx.rto.toNat ≤ elapsed
    (2 ^ 64 ≤ elapsed → exec (.txTick ms) s = .next (s.enterFault .overflow)) ∧
    (elapsed < 2 ^ 64 → ¬ fires →
      exec (.txTick ms) s =
        .next ((s.setBlock (s.block.setTx { tx with timerElapsed := BitVec.ofNat 64 elapsed })).answer
          (Response.emitted []))) ∧
    (elapsed < 2 ^ 64 → fires → ∃ oldest rest, tx.outstanding = oldest :: rest ∧
      (tx.windowSize = 0 →
        exec (.txTick ms) s =
          .next ((s.setBlock (s.block.setTx { tx with timerElapsed := 0 })).answer
            (Response.emitted [sdOfSM oldest.sm]))) ∧
      (tx.windowSize ≠ 0 → 2 * tx.rto.toNat < 2 ^ 64 → tx.consecutiveRetx.toNat + 1 < 2 ^ 64 →
        exec (.txTick ms) s =
          .next ((s.setBlock (s.block.setTx
            { tx with
              timerElapsed := 0
              rto := BitVec.ofNat 64 (2 * tx.rto.toNat)
              consecutiveRetx := BitVec.ofNat 64 (tx.consecutiveRetx.toNat + 1) })).answer
            (Response.emitted [sdOfSM oldest.sm]))) ∧
      (tx.windowSize ≠ 0 → 2 ^ 64 ≤ 2 * tx.rto.toNat ∨ 2 ^ 64 ≤ tx.consecutiveRetx.toNat + 1 →
        exec (.txTick ms) s = .next (s.enterFault .overflow)))

/-- R225 (f): a tick of 0 ms never fires and changes nothing. -/
def Obligations.TickOfZeroNeverFires : Prop :=
  ∀ s : State, s.Inv → s.block.sys.fault = false →
    exec (.txTick 0) s = .next (s.answer (Response.emitted []))

/-- R226: TX.EMPTY. -/
def Obligations.TxEmptyResult : Prop :=
  Instr.txEmpty.encodedAs 0x43 .n ∧ ∀ s : State, s.block.sys.fault = false →
    exec .txEmpty s =
      .next (s.answer (Response.descriptor
        { seqno := BitVec.ofNat 32 (s.block.tx.zeroPoint.toNat + s.block.tx.bytesSent.toNat), ackno := 0
          window := 0, syn := false, fin := false, rstS := s.block.bsOut.error, akv := false, rstR := false
          rsvd := 0, payload := [] }))

/-- R229 (a): from reset with any configuration, the SYN is sent; INITIAL_RTO − 1 ms later nothing is; 1 ms
later the SYN goes out again, with the RTO doubled and one retransmission counted; and an ack of the SYN, with
any window, resets the timer and clears the count. -/
def Obligations.RetransmissionBackoff : Prop :=
  ∀ (c : Config) (window : U16), c.legal = true →
    let syn : Sd :=
      { seqno := c.isn, ackno := 0, window := 0, syn := true, fin := false, rstS := false, akv := false
        rstR := false, rsvd := 0, payload := [] }
    let ack : Sd :=
      { seqno := 0, ackno := c.isn + 1, window := window, syn := false, fin := false, rstS := false
        akv := true, rstR := false, rsvd := 0, payload := [] }
    ∃ t1 t2 t3 t4 : State,
      exec .txPush (State.resetWith c) = .next t1 ∧ t1.resp = some (Response.emitted [syn]) ∧
      exec (.txTick (BitVec.ofNat 64 (c.initialRto.toNat - 1))) t1 = .next t2 ∧
      t2.resp = some (Response.emitted []) ∧
      exec (.txTick 1) t2 = .next t3 ∧ t3.resp = some (Response.emitted [syn]) ∧
      t3.block.tx.rto.toNat = 2 * c.initialRto.toNat ∧ t3.block.tx.consecutiveRetx = 1 ∧
      exec (.txRecv ack) t3 = .next t4 ∧ t4.resp = some Response.done ∧
      t4.block.tx.rto.toNat = c.initialRto.toNat ∧ t4.block.tx.timerElapsed = 0 ∧
      t4.block.tx.timerRunning = false ∧ t4.block.tx.consecutiveRetx = 0 ∧ t4.block.tx.bytesAcked = 1

/-! ## PRU (45_peer.md) -/

/-- R251 to R254: PR.RECV on an active peer is the receipt time, then RX.RECV, then TX.RECV, then the linger
rule; a reply is owed when the segment occupies sequence space or its seqno plus 1 is the ackno RX.SEND
answered before, and is TX.EMPTY's descriptor with RX.SEND's receiver part, both as they answer afterwards.
That a segment that lacks SYN before any SYN is no exception follows R251 and R252; 43_receiver.md R192 (c) is
read as the receiver's (log entry 17). -/
def Obligations.PrRecvResult : Prop :=
  ∀ (s : State) (sd : Sd), s.Inv → s.block.sys.fault = false → s.block.cfg.hasPeer = true → sd.rsvd = 0 →
    sd.payload.length ≤ s.block.cfg.maxDataLen.toNat → s.block.active = true →
    ∃ (t1 t2 : State) (r1 r2 : Response) (ours e a : Sd),
      exec .rxSend s = .next (s.answer (Response.descriptor ours)) ∧
      exec (.rxRecv sd) (s.setBlock (s.block.setPr
        { s.block.pr with timeOfLastReceiptMs := s.block.pr.cumulativeTimeMs })) = .next t1 ∧
      t1.resp = some r1 ∧ r1.status = .ok ∧
      exec (.txRecv sd) t1 = .next t2 ∧ t2.resp = some r2 ∧ r2.status = .ok ∧
      (let inn := t2.block.bsIn
       let inboundFinished :=
         if s.block.cfg.finAckOn = .finished then inn.closed && (inn.bytesPushed == inn.bytesPopped)
         else inn.closed
       let outFinished := t2.block.bsOut.closed && (t2.block.bsOut.bytesPushed == t2.block.bsOut.bytesPopped)
       let b := t2.block.setPr
         { t2.block.pr with linger := t2.block.pr.linger && !(inboundFinished && !outFinished) }
       let owed := decide (0 < b2n sd.syn + sd.payload.length + b2n sd.fin) ||
         (ours.akv && (sd.seqno + 1 == ours.ackno))
       exec .txEmpty (s.setBlock b) = .next ((s.setBlock b).answer (Response.descriptor e)) ∧
       exec .rxSend (s.setBlock b) = .next ((s.setBlock b).answer (Response.descriptor a)) ∧
       exec (.prRecv sd) s =
         .next ((s.setBlock b).answer (Response.emitted (if owed then [mergeReceiver e a] else []))))

/-- R251, R250: a message to an inactive peer is dropped: OK, no effect. -/
def Obligations.PrRecvDroppedWhenInactive : Prop :=
  ∀ (s : State) (sd : Sd), s.block.sys.fault = false → s.block.cfg.hasPeer = true → sd.rsvd = 0 →
    sd.payload.length ≤ s.block.cfg.maxDataLen.toNat →
    (s.block.bsIn.error = true ∨ s.block.bsOut.error = true ∨
      (s.block.tx.bytesSent = s.block.tx.bytesAcked ∧ s.block.bsOut.closed = true ∧
        s.block.bsOut.bytesPushed = s.block.bsOut.bytesPopped ∧ s.block.bsIn.closed = true ∧
        (s.block.pr.linger = false ∨
          10 * s.block.cfg.initialRto.toNat + s.block.pr.timeOfLastReceiptMs.toNat ≤
            s.block.pr.cumulativeTimeMs.toNat))) →
    exec (.prRecv sd) s = .next (s.answer Response.done)

/-- R255, R256: PR.PUSH sends what TX.PUSH sends, each segment with the receiver part RX.SEND answers; it does
not ask whether the peer is active. -/
def Obligations.PrPushResult : Prop :=
  ∀ s : State, s.Inv → s.block.sys.fault = false → s.block.cfg.hasPeer = true →
    s.block.tx.rightEdge < 2 ^ 64 →
    ∃ (ms : List SenderMessage) (b : Block) (a : Sd), sends s.block ms b ∧ nextSegment b = none ∧
      exec .rxSend s = .next (s.answer (Response.descriptor a)) ∧
      exec .prPush s =
        .next ((s.setBlock b).answer (Response.emitted (ms.map fun sm => mergeReceiver (sdOfSM sm) a)))

/-- R255, R256, R212, R304: wherever the right edge lies, PR.PUSH goes as far as the loop does: to its exit,
each message with the receiver part RX.SEND answers, or to the first segment that would carry TX.bytes_sent
past 2^64 − 1, where it faults and emits nothing. -/
def Obligations.PrPushOverflow : Prop :=
  ∀ (s : State) (ms : List SenderMessage) (b : Block), s.Inv → s.block.sys.fault = false →
    s.block.cfg.hasPeer = true → sends s.block ms b →
    (nextSegment b = none → ∃ a : Sd,
      exec .rxSend s = .next (s.answer (Response.descriptor a)) ∧
      exec .prPush s =
        .next ((s.setBlock b).answer (Response.emitted (ms.map fun sm => mergeReceiver (sdOfSM sm) a)))) ∧
    (∀ sm, nextSegment b = some sm → 2 ^ 64 ≤ b.tx.bytesSent.toNat + sm.seqLen →
      exec .prPush s = .next (s.enterFault .overflow))

/-- R255, R257: PR.TICK advances the peer's clock and does what TX.TICK does, a retransmission carrying the
receiver part RX.SEND answers; an overflow of the clock or in TX.TICK is a fault. -/
def Obligations.PrTickResult : Prop :=
  ∀ (s : State) (ms : U64), s.Inv → s.block.sys.fault = false → s.block.cfg.hasPeer = true →
    let now := s.block.pr.cumulativeTimeMs.toNat + ms.toNat
    let advanced := s.setBlock (s.block.setPr { s.block.pr with cumulativeTimeMs := BitVec.ofNat 64 now })
    let fires := s.block.tx.timerRunning = true ∧
      s.block.tx.rto.toNat ≤ s.block.tx.timerElapsed.toNat + ms.toNat
    let overflows := 2 ^ 64 ≤ now ∨ 2 ^ 64 ≤ s.block.tx.timerElapsed.toNat + ms.toNat ∨
      (fires ∧ s.block.tx.windowSize ≠ 0 ∧
        (2 ^ 64 ≤ 2 * s.block.tx.rto.toNat ∨ 2 ^ 64 ≤ s.block.tx.consecutiveRetx.toNat + 1))
    (overflows → exec (.prTick ms) s = .next (s.enterFault .overflow)) ∧
    (¬ overflows →
      ∃ (t : State) (sds : List Sd) (a : Sd),
        exec (.txTick ms) advanced = .next t ∧ t.resp = some (Response.emitted sds) ∧
        exec .rxSend s = .next (s.answer (Response.descriptor a)) ∧
        exec (.prTick ms) s = .next (t.answer (Response.emitted (sds.map fun sd => mergeReceiver sd a))))

/-- R258: the peer's clock changes only under PR.TICK; its receipt time only under a PR.RECV that is not
dropped, which sets it to the clock. -/
def Obligations.PeerTimeKeeping : Prop :=
  ∀ (i : Instr) (s t : State), exec i s = .next t →
    (t.block.pr.cumulativeTimeMs ≠ s.block.pr.cumulativeTimeMs →
      ∃ ms, i = .prTick ms ∧
        t.block.pr.cumulativeTimeMs.toNat = s.block.pr.cumulativeTimeMs.toNat + ms.toNat) ∧
    (t.block.pr.timeOfLastReceiptMs ≠ s.block.pr.timeOfLastReceiptMs →
      (∃ sd, i = .prRecv sd) ∧ s.block.active = true ∧
        t.block.pr.timeOfLastReceiptMs = s.block.pr.cumulativeTimeMs)

/-! ## RDREG (46_register_access.md, 10_state.md R36 to R44) -/

/-- R36 to R44, R280: the value of every register, in the fault state too. -/
def Obligations.RdregReadsTheRegisterMap : Prop :=
  ∀ s : State, s.Inv →
    let b := s.block
    let c := b.cfg
    let flags (bs : List Nat) : U64 := BitVec.ofNat 64 (bs.foldr (fun v w => v + 2 * w) 0)
    let streamRegs (base : U64) (x : Stream) : List (U64 × U64) :=
      [(base, x.capacity), (base + 1, x.bytesPushed), (base + 2, x.bytesPopped),
        (base + 3, x.bytesPushed - x.bytesPopped), (base + 4, x.capacity - (x.bytesPushed - x.bytesPopped)),
        (base + 5,
          flags [b2n x.closed, b2n x.error, b2n (x.closed && (x.bytesPushed == x.bytesPopped))])]
    let outFinished := b.bsOut.closed && (b.bsOut.bytesPushed == b.bsOut.bytesPopped)
    let active := !b.bsIn.error && !b.bsOut.error &&
      (decide (0 < b.tx.bytesSent.toNat - b.tx.bytesAcked.toNat) || !outFinished || !b.bsIn.closed ||
        (b.pr.linger && decide (b.pr.cumulativeTimeMs.toNat - b.pr.timeOfLastReceiptMs.toNat <
          10 * c.initialRto.toNat)))
    let peerRegs : List (U64 × U64) :=
      if c.hasPeer then
        [(0x50, flags [b2n active, b2n b.pr.linger]), (0x51, b.pr.cumulativeTimeMs),
          (0x52, b.pr.timeOfLastReceiptMs)]
      else []
    let unitRegs : List (U64 × U64) :=
      [(0x00, 0x000000004D544307),
        (0x01, flags [b2n c.hasPeer, b2n (c.finAckOn == .closed), b2n (c.popPolicy == .fault)]),
        (0x02, BitVec.ofNat 64 c.initialRto.toNat), (0x03, BitVec.ofNat 64 c.isn.toNat),
        (0x04, BitVec.ofNat 64 c.maxPayload.toNat), (0x05, BitVec.ofNat 64 c.maxRetx.toNat), (0x06, 65535),
        (0x07, BitVec.ofNat 64 c.maxDataLen.toNat),
        (0x20, b.ra.nextIndex), (0x21, b.ra.endIndex.getD 0), (0x22, flags [b2n b.ra.endIndex.isSome]),
        (0x23, BitVec.ofNat 64 b.ra.pending.length),
        (0x30, flags [b2n b.rx.synSeen]),
        (0x31, if b.rx.synSeen then BitVec.ofNat 64 b.rx.zeroPoint.toNat else 0),
        (0x40, BitVec.ofNat 64 b.tx.zeroPoint.toNat), (0x41, b.tx.bytesSent), (0x42, b.tx.bytesAcked),
        (0x43, b.tx.bytesSent - b.tx.bytesAcked), (0x44, BitVec.ofNat 64 b.tx.windowSize.toNat),
        (0x45, b.tx.timerElapsed), (0x46, b.tx.rto),
        (0x47, flags [b2n b.tx.timerRunning, b2n b.tx.synSent, b2n b.tx.finSent,
          b2n (decide (c.maxRetx.toNat < b.tx.consecutiveRetx.toNat))]),
        (0x48, b.tx.consecutiveRetx), (0x49, BitVec.ofNat 64 b.tx.outstanding.length),
        (0xF0, flags [b2n b.sys.fault]),
        (0xF1,
          match b.sys.faultCause with
          | .none => 0
          | .overflow => 1
          | .popBeyond => 2
          | .invariant => 3)]
    ∀ p ∈ unitRegs ++ streamRegs 0x10 b.bsIn ++ streamRegs 0x18 b.bsOut ++ peerRegs,
      exec (.rdreg p.1) s = .next (s.answer (Response.word p.2))

/-- R281: every other address answers ERR_REG with R0 = 0 and changes no state; the mapped ones answer OK. -/
def Obligations.UnmappedRegistersAnswerErrReg : Prop :=
  ∀ (s : State) (a : U64),
    (addressMapped s.block.cfg.hasPeer a.toNat = false →
      exec (.rdreg a) s = .next (s.answer (Response.bare .errReg))) ∧
    (addressMapped s.block.cfg.hasPeer a.toNat = true →
      ∃ v, exec (.rdreg a) s = .next (s.answer (Response.word v)))
end

