-- ==== Sys2Proof/Laws/State.lean ====
section
/-! SUPPORT. One lemma per field per named update of the block and of the state. -/

namespace Sys2Proof.Machine

@[simp] theorem Block.setIn_cfg (b : Block) (x : Stream) : (b.setIn x).cfg = b.cfg := rfl
@[simp] theorem Block.setIn_bsIn (b : Block) (x : Stream) : (b.setIn x).bsIn = x := rfl
@[simp] theorem Block.setIn_bsOut (b : Block) (x : Stream) : (b.setIn x).bsOut = b.bsOut := rfl
@[simp] theorem Block.setIn_ra (b : Block) (x : Stream) : (b.setIn x).ra = b.ra := rfl
@[simp] theorem Block.setIn_rx (b : Block) (x : Stream) : (b.setIn x).rx = b.rx := rfl
@[simp] theorem Block.setIn_tx (b : Block) (x : Stream) : (b.setIn x).tx = b.tx := rfl
@[simp] theorem Block.setIn_pr (b : Block) (x : Stream) : (b.setIn x).pr = b.pr := rfl
@[simp] theorem Block.setIn_sys (b : Block) (x : Stream) : (b.setIn x).sys = b.sys := rfl

@[simp] theorem Block.setOut_cfg (b : Block) (x : Stream) : (b.setOut x).cfg = b.cfg := rfl
@[simp] theorem Block.setOut_bsIn (b : Block) (x : Stream) : (b.setOut x).bsIn = b.bsIn := rfl
@[simp] theorem Block.setOut_bsOut (b : Block) (x : Stream) : (b.setOut x).bsOut = x := rfl
@[simp] theorem Block.setOut_ra (b : Block) (x : Stream) : (b.setOut x).ra = b.ra := rfl
@[simp] theorem Block.setOut_rx (b : Block) (x : Stream) : (b.setOut x).rx = b.rx := rfl
@[simp] theorem Block.setOut_tx (b : Block) (x : Stream) : (b.setOut x).tx = b.tx := rfl
@[simp] theorem Block.setOut_pr (b : Block) (x : Stream) : (b.setOut x).pr = b.pr := rfl
@[simp] theorem Block.setOut_sys (b : Block) (x : Stream) : (b.setOut x).sys = b.sys := rfl

@[simp] theorem Block.setRa_cfg (b : Block) (x : Reassembler) : (b.setRa x).cfg = b.cfg := rfl
@[simp] theorem Block.setRa_bsIn (b : Block) (x : Reassembler) : (b.setRa x).bsIn = b.bsIn := rfl
@[simp] theorem Block.setRa_bsOut (b : Block) (x : Reassembler) : (b.setRa x).bsOut = b.bsOut := rfl
@[simp] theorem Block.setRa_ra (b : Block) (x : Reassembler) : (b.setRa x).ra = x := rfl
@[simp] theorem Block.setRa_rx (b : Block) (x : Reassembler) : (b.setRa x).rx = b.rx := rfl
@[simp] theorem Block.setRa_tx (b : Block) (x : Reassembler) : (b.setRa x).tx = b.tx := rfl
@[simp] theorem Block.setRa_pr (b : Block) (x : Reassembler) : (b.setRa x).pr = b.pr := rfl
@[simp] theorem Block.setRa_sys (b : Block) (x : Reassembler) : (b.setRa x).sys = b.sys := rfl

@[simp] theorem Block.setRx_cfg (b : Block) (x : Receiver) : (b.setRx x).cfg = b.cfg := rfl
@[simp] theorem Block.setRx_bsIn (b : Block) (x : Receiver) : (b.setRx x).bsIn = b.bsIn := rfl
@[simp] theorem Block.setRx_bsOut (b : Block) (x : Receiver) : (b.setRx x).bsOut = b.bsOut := rfl
@[simp] theorem Block.setRx_ra (b : Block) (x : Receiver) : (b.setRx x).ra = b.ra := rfl
@[simp] theorem Block.setRx_rx (b : Block) (x : Receiver) : (b.setRx x).rx = x := rfl
@[simp] theorem Block.setRx_tx (b : Block) (x : Receiver) : (b.setRx x).tx = b.tx := rfl
@[simp] theorem Block.setRx_pr (b : Block) (x : Receiver) : (b.setRx x).pr = b.pr := rfl
@[simp] theorem Block.setRx_sys (b : Block) (x : Receiver) : (b.setRx x).sys = b.sys := rfl

@[simp] theorem Block.setTx_cfg (b : Block) (x : Sender) : (b.setTx x).cfg = b.cfg := rfl
@[simp] theorem Block.setTx_bsIn (b : Block) (x : Sender) : (b.setTx x).bsIn = b.bsIn := rfl
@[simp] theorem Block.setTx_bsOut (b : Block) (x : Sender) : (b.setTx x).bsOut = b.bsOut := rfl
@[simp] theorem Block.setTx_ra (b : Block) (x : Sender) : (b.setTx x).ra = b.ra := rfl
@[simp] theorem Block.setTx_rx (b : Block) (x : Sender) : (b.setTx x).rx = b.rx := rfl
@[simp] theorem Block.setTx_tx (b : Block) (x : Sender) : (b.setTx x).tx = x := rfl
@[simp] theorem Block.setTx_pr (b : Block) (x : Sender) : (b.setTx x).pr = b.pr := rfl
@[simp] theorem Block.setTx_sys (b : Block) (x : Sender) : (b.setTx x).sys = b.sys := rfl

@[simp] theorem Block.setPr_cfg (b : Block) (x : Peer) : (b.setPr x).cfg = b.cfg := rfl
@[simp] theorem Block.setPr_bsIn (b : Block) (x : Peer) : (b.setPr x).bsIn = b.bsIn := rfl
@[simp] theorem Block.setPr_bsOut (b : Block) (x : Peer) : (b.setPr x).bsOut = b.bsOut := rfl
@[simp] theorem Block.setPr_ra (b : Block) (x : Peer) : (b.setPr x).ra = b.ra := rfl
@[simp] theorem Block.setPr_rx (b : Block) (x : Peer) : (b.setPr x).rx = b.rx := rfl
@[simp] theorem Block.setPr_tx (b : Block) (x : Peer) : (b.setPr x).tx = b.tx := rfl
@[simp] theorem Block.setPr_pr (b : Block) (x : Peer) : (b.setPr x).pr = x := rfl
@[simp] theorem Block.setPr_sys (b : Block) (x : Peer) : (b.setPr x).sys = b.sys := rfl

@[simp] theorem Block.setSys_cfg (b : Block) (x : Sys) : (b.setSys x).cfg = b.cfg := rfl
@[simp] theorem Block.setSys_bsIn (b : Block) (x : Sys) : (b.setSys x).bsIn = b.bsIn := rfl
@[simp] theorem Block.setSys_bsOut (b : Block) (x : Sys) : (b.setSys x).bsOut = b.bsOut := rfl
@[simp] theorem Block.setSys_ra (b : Block) (x : Sys) : (b.setSys x).ra = b.ra := rfl
@[simp] theorem Block.setSys_rx (b : Block) (x : Sys) : (b.setSys x).rx = b.rx := rfl
@[simp] theorem Block.setSys_tx (b : Block) (x : Sys) : (b.setSys x).tx = b.tx := rfl
@[simp] theorem Block.setSys_pr (b : Block) (x : Sys) : (b.setSys x).pr = b.pr := rfl
@[simp] theorem Block.setSys_sys (b : Block) (x : Sys) : (b.setSys x).sys = x := rfl

@[simp] theorem State.setBlock_block (s : State) (x : Block) : (s.setBlock x).block = x := rfl
@[simp] theorem State.setBlock_port (s : State) (x : Block) : (s.setBlock x).port = s.port := rfl
@[simp] theorem State.setBlock_resetIn (s : State) (x : Block) : (s.setBlock x).resetIn = s.resetIn := rfl
@[simp] theorem State.setBlock_resp (s : State) (x : Block) : (s.setBlock x).resp = s.resp := rfl

@[simp] theorem State.setPort_block (s : State) (x : List Byte) : (s.setPort x).block = s.block := rfl
@[simp] theorem State.setPort_port (s : State) (x : List Byte) : (s.setPort x).port = x := rfl
@[simp] theorem State.setPort_resetIn (s : State) (x : List Byte) : (s.setPort x).resetIn = s.resetIn := rfl
@[simp] theorem State.setPort_resp (s : State) (x : List Byte) : (s.setPort x).resp = s.resp := rfl

@[simp] theorem State.answer_block (s : State) (x : Response) : (s.answer x).block = s.block := rfl
@[simp] theorem State.answer_port (s : State) (x : Response) : (s.answer x).port = s.port := rfl
@[simp] theorem State.answer_resetIn (s : State) (x : Response) : (s.answer x).resetIn = s.resetIn := rfl
@[simp] theorem State.answer_resp (s : State) (x : Response) : (s.answer x).resp = some x := rfl

@[simp] theorem Block.stream_inbound (b : Block) : b.stream .inbound = b.bsIn := rfl
@[simp] theorem Block.stream_outbound (b : Block) : b.stream .outbound = b.bsOut := rfl
@[simp] theorem Block.setStream_inbound (b : Block) (x : Stream) : b.setStream .inbound x = b.setIn x := rfl
@[simp] theorem Block.setStream_outbound (b : Block) (x : Stream) : b.setStream .outbound x = b.setOut x := rfl

@[simp] theorem Response.bare_status (st : Status) : (Response.bare st).status = st := rfl
@[simp] theorem Response.done_status : Response.done.status = .ok := rfl
@[simp] theorem Response.word_status (v : U64) : (Response.word v).status = .ok := rfl
@[simp] theorem Response.data_status (bs : List Byte) : (Response.data bs).status = .ok := rfl
@[simp] theorem Response.descriptor_status (sd : Sd) : (Response.descriptor sd).status = .ok := rfl
@[simp] theorem Response.emitted_status (sds : List Sd) : (Response.emitted sds).status = .ok := rfl

@[simp] theorem State.enterFault_block (s : State) (c : FaultCause) :
    (s.enterFault c).block = s.block.setSys { fault := true, faultCause := c } := rfl
@[simp] theorem State.enterFault_port (s : State) (c : FaultCause) : (s.enterFault c).port = s.port := rfl
@[simp] theorem State.enterFault_resetIn (s : State) (c : FaultCause) :
    (s.enterFault c).resetIn = s.resetIn := rfl
@[simp] theorem State.enterFault_resp (s : State) (c : FaultCause) :
    (s.enterFault c).resp = some (Response.bare .fault) := rfl

end Sys2Proof.Machine
end

