-- ==== Sys2Proof/Laws/Ops.lean ====
section
/-! SUPPORT. What each shared operation can do, said once. -/

namespace Sys2Proof.Machine

/-- A bind of two fallible computations succeeds when both do. -/
theorem except_bind_ok {ε α β : Type} {x : Except ε α} {f : α → Except ε β} {b : β} :
    (x >>= f) = .ok b ↔ ∃ a, x = .ok a ∧ f a = .ok b := by
  cases x with
  | error e => simp [bind, Except.bind]
  | ok a => simp [bind, Except.bind]

/-- A store succeeds exactly when the value fits, and keeps it. -/
theorem store64_ok {n : Nat} {v : U64} : store64 n = .ok v ↔ v.toNat = n := by
  unfold store64
  split
  · rename_i h
    constructor
    · intro hv; cases hv; exact Nat.mod_eq_of_lt h
    · intro hv; subst hv; simp
  · rename_i h
    constructor
    · intro hv; cases hv
    · intro hv; have := v.isLt; omega

theorem store64_eq {n : Nat} (h : n < 2 ^ 64) : store64 n = .ok (BitVec.ofNat 64 n) := by
  unfold store64; rw [if_pos h]

theorem store64_overflow {n : Nat} (h : ¬ n < 2 ^ 64) : store64 n = .error .overflow := by
  unfold store64; rw [if_neg h]

/-- A command that makes the first check: in the fault state it answers FAULT and changes nothing. -/
theorem State.unlessFaulted_next {s t : State} {k : Result} (h : s.unlessFaulted k = .next t) :
    (s.block.sys.fault = true ∧ t = s.answer (Response.bare .fault)) ∨
      (s.block.sys.fault = false ∧ k = .next t) := by
  unfold State.unlessFaulted at h
  split at h
  · rename_i hf; left; refine ⟨hf, ?_⟩; simpa [State.reject] using h.symm
  · rename_i hf; right; exact ⟨by simpa using hf, h⟩

theorem State.unlessFaulted_of_not {s : State} {k : Result} (h : s.block.sys.fault = false) :
    s.unlessFaulted k = k := by
  simp [State.unlessFaulted, h]

/-- A command that writes the block ends in the fault state, or in the post-state it computed, which then
meets the invariants. -/
theorem State.commit_next {s t : State} {r : Except FaultCause (Block × Response)}
    (h : s.commit r = .next t) :
    (∃ c, r = .error c ∧ t = s.enterFault c) ∨
      (∃ b resp, r = .ok (b, resp) ∧ invariantsHold s.block b = true ∧ t = (s.setBlock b).answer resp) ∨
      (∃ b resp, r = .ok (b, resp) ∧ invariantsHold s.block b = false ∧ t = s.enterFault .invariant) := by
  unfold State.commit at h
  split at h
  · left; exact ⟨_, rfl, by simpa using h.symm⟩
  · rename_i b resp
    split at h
    · rename_i hi; right; left; exact ⟨b, resp, rfl, hi, by simpa using h.symm⟩
    · rename_i hi; right; right; exact ⟨b, resp, rfl, by simpa using hi, by simpa using h.symm⟩

theorem State.commit_ok {s : State} {b : Block} {resp : Response} (h : invariantsHold s.block b = true) :
    s.commit (.ok (b, resp)) = .next ((s.setBlock b).answer resp) := by
  simp [State.commit, h]

end Sys2Proof.Machine
end

