-- ==== Sys2Proof/Laws/ByteStreams.lean ====
section
/-! SUPPORT. What the internal byte-stream operations can do, and that they keep 10_state.md R24. -/

namespace Sys2Proof.Machine

theorem Stream.holds_iff (s : Stream) :
    s.holds = true ↔
      s.buf.length + s.bytesPopped.toNat = s.bytesPushed.toNat ∧ s.buffered ≤ s.capacity.toNat := by
  simp [Stream.holds]

theorem Stream.buffered_of_holds {s : Stream} (h : s.holds = true) : s.buffered = s.buf.length := by
  have := (s.holds_iff.1 h).1
  unfold Stream.buffered; omega

theorem Stream.keepsFlags_refl (s : Stream) : s.keepsFlags s = true := by
  unfold Stream.keepsFlags
  cases s.closed <;> cases s.error <;> rfl

theorem Stream.keepsFlags_iff (s t : Stream) :
    s.keepsFlags t = true ↔ (s.closed = true → t.closed = true) ∧ (s.error = true → t.error = true) := by
  unfold Stream.keepsFlags
  cases s.closed <;> cases s.error <;> simp

/-- Everything `BS_push` can do when it does not fault. -/
theorem bsPush_ok {s s' : Stream} {d : List Byte} {k : Nat} (h : bsPush s d = .ok (s', k)) :
    ((s.closed = true ∨ s.error = true) ∧ s' = s ∧ k = 0) ∨
      (s.closed = false ∧ s.error = false ∧ k = min d.length s.available ∧
        ∃ p : U64, p.toNat = s.bytesPushed.toNat + k ∧
          s' = { s with buf := s.buf ++ d.take k, bytesPushed := p }) := by
  unfold bsPush at h
  split at h
  · rename_i hc
    left
    simp only [Except.ok.injEq, Prod.mk.injEq] at h
    exact ⟨by simpa using hc, h.1.symm, h.2.symm⟩
  · rename_i hc
    right
    obtain ⟨p, hp, h⟩ := except_bind_ok.1 h
    simp only [pure, Except.pure, Except.ok.injEq, Prod.mk.injEq] at h
    obtain ⟨h1, rfl⟩ := h
    simp only [Bool.or_eq_true, not_or, Bool.not_eq_true] at hc
    exact ⟨hc.1, hc.2, rfl, p, store64_ok.1 hp, h1.symm⟩

/-- `BS_push` succeeds when the counter does not overflow. -/
theorem bsPush_of_fits {s : Stream} {d : List Byte}
    (h : s.bytesPushed.toNat + min d.length s.available < 2 ^ 64) : ∃ r, bsPush s d = .ok r := by
  unfold bsPush
  split
  · exact ⟨_, rfl⟩
  · dsimp only; rw [store64_eq h]; exact ⟨_, rfl⟩

theorem bsPush_keeps {s s' : Stream} {d : List Byte} {k : Nat} (h : bsPush s d = .ok (s', k))
    (hs : s.holds = true) : s'.holds = true ∧ s.keepsFlags s' = true ∧ s'.capacity = s.capacity := by
  rcases bsPush_ok h with ⟨-, rfl, -⟩ | ⟨hc, he, hk, p, hp, rfl⟩
  · exact ⟨hs, Stream.keepsFlags_refl _, rfl⟩
  · have hb := Stream.buffered_of_holds hs
    rw [Stream.holds_iff] at hs ⊢
    refine ⟨⟨?_, ?_⟩, ?_, rfl⟩
    · simp only [List.length_append, List.length_take]; omega
    · simp only [Stream.buffered, Stream.available] at *; omega
    · rw [Stream.keepsFlags_iff]; exact ⟨id, id⟩

/-- Everything `BS_pop` can do when it does not fault. -/
theorem bsPop_ok {policy : PopPolicy} {s s' : Stream} {n k : Nat} (h : bsPop policy s n = .ok (s', k)) :
    (s.buffered < n → policy = .clamp) ∧ k = min n s.buffered ∧
      ∃ p : U64, p.toNat = s.bytesPopped.toNat + k ∧
        s' = { s with buf := s.buf.drop k, bytesPopped := p } := by
  unfold bsPop at h
  split at h
  · cases h
  · rename_i hc
    obtain ⟨p, hp, h⟩ := except_bind_ok.1 h
    simp only [pure, Except.pure, Except.ok.injEq, Prod.mk.injEq] at h
    obtain ⟨h1, rfl⟩ := h
    refine ⟨fun hn => ?_, rfl, p, store64_ok.1 hp, h1.symm⟩
    cases policy with
    | clamp => rfl
    | fault => simp [hn] at hc

/-- `BS_pop` succeeds when it asks for no more than is buffered, or the policy clamps. -/
theorem bsPop_of_allowed {policy : PopPolicy} {s : Stream} {n : Nat}
    (h : n ≤ s.buffered ∨ policy = .clamp) : ∃ r, bsPop policy s n = .ok r := by
  unfold bsPop
  rw [if_neg (by rcases h with h | rfl <;> simp; omega)]
  have : s.bytesPopped.toNat + min n s.buffered < 2 ^ 64 := by
    have := s.bytesPushed.isLt
    have := s.bytesPopped.isLt
    unfold Stream.buffered; omega
  dsimp only; rw [store64_eq this]; exact ⟨_, rfl⟩

theorem bsPop_keeps {policy : PopPolicy} {s s' : Stream} {n k : Nat} (h : bsPop policy s n = .ok (s', k))
    (hs : s.holds = true) :
    s'.holds = true ∧ s.keepsFlags s' = true ∧ s'.capacity = s.capacity ∧
      s'.bytesPushed = s.bytesPushed ∧ s'.buffered = s.buffered - k := by
  obtain ⟨-, hk, p, hp, rfl⟩ := bsPop_ok h
  have hb := Stream.buffered_of_holds hs
  rw [Stream.holds_iff] at hs ⊢
  refine ⟨⟨?_, ?_⟩, ?_, rfl, rfl, ?_⟩
  · simp only [List.length_drop]; omega
  · simp only [Stream.buffered] at *; omega
  · rw [Stream.keepsFlags_iff]; exact ⟨id, id⟩
  · simp only [Stream.buffered] at *; omega

@[simp] theorem bsClose_closed (s : Stream) : (bsClose s).closed = true := rfl
@[simp] theorem bsClose_error (s : Stream) : (bsClose s).error = s.error := rfl
@[simp] theorem bsClose_buf (s : Stream) : (bsClose s).buf = s.buf := rfl
@[simp] theorem bsClose_capacity (s : Stream) : (bsClose s).capacity = s.capacity := rfl
@[simp] theorem bsClose_bytesPushed (s : Stream) : (bsClose s).bytesPushed = s.bytesPushed := rfl
@[simp] theorem bsClose_bytesPopped (s : Stream) : (bsClose s).bytesPopped = s.bytesPopped := rfl
@[simp] theorem bsClose_available (s : Stream) : (bsClose s).available = s.available := rfl
@[simp] theorem bsClose_buffered (s : Stream) : (bsClose s).buffered = s.buffered := rfl
@[simp] theorem bsClose_holds (s : Stream) : (bsClose s).holds = s.holds := rfl

@[simp] theorem bsSetError_closed (s : Stream) : (bsSetError s).closed = s.closed := rfl
@[simp] theorem bsSetError_error (s : Stream) : (bsSetError s).error = true := rfl
@[simp] theorem bsSetError_buf (s : Stream) : (bsSetError s).buf = s.buf := rfl
@[simp] theorem bsSetError_capacity (s : Stream) : (bsSetError s).capacity = s.capacity := rfl
@[simp] theorem bsSetError_bytesPushed (s : Stream) : (bsSetError s).bytesPushed = s.bytesPushed := rfl
@[simp] theorem bsSetError_bytesPopped (s : Stream) : (bsSetError s).bytesPopped = s.bytesPopped := rfl
@[simp] theorem bsSetError_available (s : Stream) : (bsSetError s).available = s.available := rfl
@[simp] theorem bsSetError_buffered (s : Stream) : (bsSetError s).buffered = s.buffered := rfl
@[simp] theorem bsSetError_holds (s : Stream) : (bsSetError s).holds = s.holds := rfl
@[simp] theorem bsSetError_isFinished (s : Stream) : (bsSetError s).isFinished = s.isFinished := rfl

theorem Stream.keepsFlags_bsClose (s : Stream) : s.keepsFlags (bsClose s) = true := by
  rw [Stream.keepsFlags_iff]; exact ⟨fun _ => rfl, id⟩

theorem Stream.keepsFlags_bsSetError (s : Stream) : s.keepsFlags (bsSetError s) = true := by
  rw [Stream.keepsFlags_iff]; exact ⟨id, fun _ => rfl⟩

theorem Stream.keepsFlags_trans {s t u : Stream} (h1 : s.keepsFlags t = true) (h2 : t.keepsFlags u = true) :
    s.keepsFlags u = true := by
  rw [Stream.keepsFlags_iff] at *
  exact ⟨fun h => h2.1 (h1.1 h), fun h => h2.2 (h1.2 h)⟩

end Sys2Proof.Machine
end

