-- ==== Sys2Proof/Laws/Decode.lean ====
section
/-! SUPPORT. What the parts of the decoder read from the parts the encoder writes (20_memory.md R63,
30_encoding.md R81 to R84). -/

namespace Sys2Proof

theorem bytes32_length (w : U32) : (bytes32 w).length = 4 := rfl

theorem word32_bytes (w : U32) :
    word32 (w.extractLsb' 0 8) (w.extractLsb' 8 8) (w.extractLsb' 16 8) (w.extractLsb' 24 8) = w := by
  apply BitVec.eq_of_getLsbD_eq
  intro i hi
  simp only [word32, BitVec.getLsbD_append, BitVec.getLsbD_extractLsb']
  by_cases h1 : i < 8
  · simp [h1]
  · by_cases h2 : i - 8 < 8
    · have h3 : i - 8 + 8 = i := by omega
      simp [h1, h2, Nat.add_comm 8, h3]
    · by_cases h3 : i - 8 - 8 < 8
      · have h4 : i - 8 - 8 + 16 = i := by omega
        simp [h1, h2, h3, Nat.add_comm 16, h4]
      · have h4 : i - 8 - 8 - 8 + 24 = i := by omega
        have h5 : i - 8 - 8 - 8 < 8 := by omega
        simp [h1, h2, h3, h5, Nat.add_comm 24, h4]

theorem bytes_word32 (b0 b1 b2 b3 : Byte) : bytes32 (word32 b0 b1 b2 b3) = [b0, b1, b2, b3] := by
  have h : ∀ (j : Nat) (b : Byte), (∀ i < 8, (word32 b0 b1 b2 b3).getLsbD (j + i) = b.getLsbD i) →
      (word32 b0 b1 b2 b3).extractLsb' j 8 = b := by
    intro j b hb
    apply BitVec.eq_of_getLsbD_eq
    intro i hi
    simp [hi, hb i hi]
  unfold bytes32
  rw [h 0 b0, h 8 b1, h 16 b2, h 24 b3] <;> intro i hi <;>
    simp only [word32, BitVec.getLsbD_append]
  · have h1 : ¬ 24 + i < 8 := by omega
    have h2 : ¬ 24 + i - 8 < 8 := by omega
    have h3 : ¬ 24 + i - 8 - 8 < 8 := by omega
    have h4 : 24 + i - 8 - 8 - 8 = i := by omega
    simp [h1, h2, h3, h4]
  · have h1 : ¬ 16 + i < 8 := by omega
    have h2 : ¬ 16 + i - 8 < 8 := by omega
    have h3 : 16 + i - 8 - 8 = i := by omega
    simp [h1, h2, h3, hi]
  · have h1 : ¬ 8 + i < 8 := by omega
    have h2 : 8 + i - 8 = i := by omega
    simp [h1, h2, hi]
  · simp [hi]

theorem take32_bytes32 (w : U32) (rest : List Byte) : take32 (bytes32 w ++ rest) = some (w, rest) := by
  show some (word32 _ _ _ _, rest) = _
  rw [word32_bytes]

theorem take32_some {bs rest : List Byte} {w : U32} (h : take32 bs = some (w, rest)) :
    bs = bytes32 w ++ rest := by
  match bs, h with
  | b0 :: b1 :: b2 :: b3 :: bs, h =>
    simp only [take32, Option.some.injEq, Prod.mk.injEq] at h
    obtain ⟨rfl, rfl⟩ := h
    rw [bytes_word32]
    rfl

theorem append_halves (w : U64) : w.extractLsb' 32 32 ++ w.extractLsb' 0 32 = w := by
  apply BitVec.eq_of_getLsbD_eq
  intro i hi
  rw [BitVec.getLsbD_append]
  by_cases h : i < 32
  · simp [h]
  · have h1 : i - 32 < 32 := by omega
    have h2 : 32 + (i - 32) = i := by omega
    simp [h, h1, h2]

theorem halves_append (hi lo : U32) :
    (hi ++ lo : U64).extractLsb' 0 32 = lo ∧ (hi ++ lo : U64).extractLsb' 32 32 = hi := by
  constructor <;> apply BitVec.eq_of_getLsbD_eq <;> intro i h <;>
    rw [BitVec.getLsbD_extractLsb', BitVec.getLsbD_append]
  · simp [h]
  · have h1 : ¬ 32 + i < 32 := by omega
    have h2 : 32 + i - 32 = i := by omega
    simp [h, h2]

theorem take64_bytes64 (w : U64) (rest : List Byte) : take64 (bytes64 w ++ rest) = some (w, rest) := by
  simp only [take64, bytes64, List.append_assoc, take32_bytes32, Option.bind_eq_bind, Option.bind_some]
  rw [append_halves]
  rfl

theorem take64_some {bs rest : List Byte} {w : U64} (h : take64 bs = some (w, rest)) :
    bs = bytes64 w ++ rest := by
  simp only [take64, Option.bind_eq_bind, Option.bind_eq_some_iff, Prod.exists] at h
  obtain ⟨lo, bs1, h1, hi, bs2, h2, h3⟩ := h
  simp only [Option.pure_def, Option.some.injEq, Prod.mk.injEq] at h3
  obtain ⟨rfl, rfl⟩ := h3
  rw [take32_some h1, take32_some h2, bytes64, (halves_append hi lo).1, (halves_append hi lo).2,
    List.append_assoc]

theorem takeBytes_append (xs rest : List Byte) : takeBytes xs.length (xs ++ rest) = some (xs, rest) := by
  simp [takeBytes]

theorem takeBytes_some {n : Nat} {bs xs rest : List Byte} (h : takeBytes n bs = some (xs, rest)) :
    bs = xs ++ rest ∧ xs.length = n := by
  unfold takeBytes at h
  split at h
  · simp only [Option.some.injEq, Prod.mk.injEq] at h
    obtain ⟨rfl, rfl⟩ := h
    refine ⟨(List.take_append_drop n bs).symm, ?_⟩
    simp only [List.length_take]
    omega
  · cases h

theorem takeData_bytesData {data : List Byte} (h : dataFits data = true) (rest : List Byte) :
    takeData (bytesData data ++ rest) = some (data, rest) := by
  have h1 : data.length < 2 ^ 32 := by simpa [dataFits] using h
  have h2 : (BitVec.ofNat 32 data.length).toNat = data.length := by
    rw [BitVec.toNat_ofNat, Nat.mod_eq_of_lt h1]
  simp only [takeData, bytesData, List.append_assoc, take32_bytes32, Option.bind_eq_bind, Option.bind_some]
  rw [h2, takeBytes_append]

theorem takeData_some {bs data rest : List Byte} (h : takeData bs = some (data, rest)) :
    bs = bytesData data ++ rest ∧ dataFits data = true := by
  simp only [takeData, Option.bind_eq_bind, Option.bind_eq_some_iff, Prod.exists] at h
  obtain ⟨dlen, bs1, h1, h2⟩ := h
  obtain ⟨rfl, h3⟩ := takeBytes_some h2
  have hlt := dlen.isLt
  constructor
  · rw [take32_some h1, bytesData, h3, BitVec.ofNat_toNat, BitVec.setWidth_eq, List.append_assoc]
  · unfold dataFits
    rw [h3]
    exact decide_eq_true hlt

theorem ofWords_words {sd : Sd} :
    Sd.ofWords sd.seqno sd.ackno sd.w2 sd.w3 sd.payload = sd := by
  have hw : sd.w2.extractLsb' 0 16 = sd.window := by
    apply BitVec.eq_of_getLsbD_eq
    intro i h
    rw [BitVec.getLsbD_extractLsb']
    unfold Sd.w2
    rw [BitVec.getLsbD_append]
    simp [h]
  have hr : sd.w3.extractLsb' 5 27 = sd.rsvd := by
    apply BitVec.eq_of_getLsbD_eq
    intro i h
    unfold Sd.w3
    simp only [BitVec.getLsbD_extractLsb', BitVec.getLsbD_append]
    have h1 : ¬ 5 + i < 1 := by omega
    have h2 : ¬ 5 + i - 1 < 1 := by omega
    have h3 : ¬ 5 + i - 1 - 1 < 1 := by omega
    have h4 : ¬ 5 + i - 1 - 1 - 1 < 1 := by omega
    have h5 : ¬ 5 + i - 1 - 1 - 1 - 1 < 1 := by omega
    have h6 : 5 + i - 1 - 1 - 1 - 1 - 1 = i := by omega
    simp only [h, h1, h2, h3, h4, h5, h6, if_false, decide_true, Bool.true_and]
  have b0 : sd.w3.getLsbD 0 = sd.syn := by
    unfold Sd.w3; simp only [BitVec.getLsbD_append]; simp
  have b1 : sd.w3.getLsbD 1 = sd.fin := by
    unfold Sd.w3; simp only [BitVec.getLsbD_append]; simp
  have b2 : sd.w3.getLsbD 2 = sd.rstS := by
    unfold Sd.w3; simp only [BitVec.getLsbD_append]; simp
  have b3 : sd.w3.getLsbD 3 = sd.akv := by
    unfold Sd.w3; simp only [BitVec.getLsbD_append]; simp
  have b4 : sd.w3.getLsbD 4 = sd.rstR := by
    unfold Sd.w3; simp only [BitVec.getLsbD_append]; simp
  unfold Sd.ofWords
  rw [hw, hr, b0, b1, b2, b3, b4]

theorem plen_w2 {sd : Sd} (h : sd.fits = true) : (sd.w2.extractLsb' 16 16).toNat = sd.payload.length := by
  have h1 : sd.payload.length < 2 ^ 16 := by simpa [Sd.fits] using h
  have h2 : sd.w2.extractLsb' 16 16 = BitVec.ofNat 16 sd.payload.length := by
    apply BitVec.eq_of_getLsbD_eq
    intro i h
    unfold Sd.w2
    rw [BitVec.getLsbD_extractLsb', BitVec.getLsbD_append]
    have h3 : ¬ 16 + i < 16 := by omega
    have h4 : 16 + i - 16 = i := by omega
    simp [h, h4]
  rw [h2, BitVec.toNat_ofNat, Nat.mod_eq_of_lt h1]

theorem takeSd_bytesSd {sd : Sd} (h : sd.fits = true) (rest : List Byte) :
    takeSd (bytesSd sd ++ rest) = some (sd, rest) := by
  simp only [takeSd, bytesSd, List.append_assoc, take32_bytes32, Option.bind_eq_bind, Option.bind_some]
  rw [plen_w2 h, takeBytes_append, Option.bind_some, ofWords_words]
  rfl

theorem Opcode.ofCode_code (o : Opcode) : Opcode.ofCode o.code = some o := by
  cases o <;> rfl

theorem Opcode.ofCode_some {opc : Byte} {o : Opcode} (h : Opcode.ofCode opc = some o) : o.code = opc := by
  simpa using List.find?_some h

/-- The opcode field of a CMD word built from an opcode and SEL or LAST (R81). -/
theorem cmd_ofCode (o : Opcode) {bits : U32} (h : bits = 0 ∨ bits = 0x100 ∨ bits = 0x200) :
    Opcode.ofCode ((o.matchWord ||| bits).extractLsb' 0 8) = some o ∧
      (o.matchWord ||| bits).extractLsb' 10 22 = 0 := by
  obtain rfl | rfl | rfl := h <;> cases o <;> decide

theorem selBit_cases (sel : Sel) : selBit sel = 0 ∨ selBit sel = 0x100 ∨ selBit sel = 0x200 := by
  cases sel <;> decide

theorem lastBit_cases (last : Bool) : lastBit last = 0 ∨ lastBit last = 0x100 ∨ lastBit last = 0x200 := by
  cases last <;> decide

theorem cmdSel_or (o : Opcode) (sel : Sel) : cmdSel (o.matchWord ||| selBit sel) = sel := by
  cases o <;> cases sel <;> decide

theorem cmdLast_or (o : Opcode) (last : Bool) : cmdLast (o.matchWord ||| lastBit last) = last := by
  cases o <;> cases last <;> decide

theorem Opcode.match_and_mask (o : Opcode) : o.matchWord &&& o.mask = o.matchWord := by
  cases o <;> decide

/-- A CMD word that adds to the opcode only bits its mask leaves free selects the opcode's row (R87). -/
theorem Opcode.selects_or (o : Opcode) {bits : U32} (h : bits &&& o.mask = 0) :
    o.selects (o.matchWord ||| bits) = true := by
  have h1 : (o.matchWord ||| bits) &&& o.mask = o.matchWord := by
    ext i hi
    have h2 := congrArg (·[i]) h
    have h3 := congrArg (·[i]) o.match_and_mask
    simp only [BitVec.getElem_and, BitVec.getElem_or] at *
    cases hm : o.mask[i] <;> simp_all
  simp [Opcode.selects, h1]

end Sys2Proof
end

