-- ==== Sys2Proof/Laws/Memory.lean ====
section
/-! SUPPORT. Laws of the pending store: read after write, erase, the contiguous run, and that every
operation keeps the canonical form. -/

namespace Sys2Proof.Machine

theorem Memory.read_write (m : Memory) (i j : Nat) (v : Byte) :
    (Memory.write m i v).read j = if i = j then some v else m.read j := by
  induction m with
  | nil => simp [Memory.write, Memory.read]
  | cons c m ih =>
    by_cases h : i = j
    · subst h
      by_cases h1 : i < c.1
      · simp [Memory.write, h1, Memory.read]
      · by_cases h2 : i = c.1
        · simp [Memory.write, ← h2, Memory.read]
        · have h3 : ¬ c.1 = i := fun h => h2 h.symm
          simp [Memory.write, h1, h2, h3, Memory.read, ih]
    · by_cases h1 : i < c.1
      · simp [Memory.write, h1, Memory.read, h]
      · by_cases h2 : i = c.1
        · subst h2; simp [Memory.write, Memory.read, h]
        · simp [Memory.write, h1, h2, Memory.read, ih, h]

theorem Memory.read_write_same (m : Memory) (i : Nat) (v : Byte) : (Memory.write m i v).read i = some v := by
  simp [Memory.read_write]

theorem Memory.read_write_other (m : Memory) {i j : Nat} (v : Byte) (h : i ≠ j) :
    (Memory.write m i v).read j = m.read j := by
  simp [Memory.read_write, h]

/-- Reading after writing a byte sequence: inside the range the written byte, outside what was there. -/
theorem Memory.read_writeBytes (vs : List Byte) (m : Memory) (i j : Nat) :
    (Memory.writeBytes m i vs).read j = if i ≤ j ∧ j < i + vs.length then vs[j - i]? else m.read j := by
  induction vs generalizing m i with
  | nil => simp [Memory.writeBytes]
  | cons v vs ih =>
    rw [Memory.writeBytes, ih, Memory.read_write, List.length_cons]
    rcases Nat.lt_trichotomy i j with h | h | h
    · have hne : i ≠ j := by omega
      have hs : j - i = (j - (i + 1)) + 1 := by omega
      by_cases hin : j < i + (vs.length + 1)
      · rw [if_pos (by omega), if_pos (by omega), hs, List.getElem?_cons_succ]
      · rw [if_neg (by omega), if_neg hne, if_neg (by omega)]
    · subst h
      rw [if_neg (by omega), if_pos rfl, if_pos (by omega)]; simp
    · rw [if_neg (by omega), if_neg (by omega), if_neg (by omega)]

theorem Memory.read_erase (m : Memory) (lo n j : Nat) :
    (m.erase lo n).read j = if lo ≤ j ∧ j < lo + n then none else m.read j := by
  induction m with
  | nil => simp [Memory.erase, Memory.read]
  | cons c m ih =>
    simp only [Memory.erase] at ih ⊢
    by_cases hc : lo ≤ c.1 ∧ c.1 < lo + n
    · rw [List.filter_cons_of_neg (by simp [hc])]
      rw [ih, Memory.read]
      by_cases hj : c.1 = j
      · subst hj; simp [hc]
      · simp [hj]
    · rw [List.filter_cons_of_pos (by simp; omega)]
      rw [Memory.read, Memory.read, ih]
      by_cases hj : c.1 = j
      · subst hj; simp [hc]
      · simp [hj]

/-! ## Canonical form -/

@[simp] theorem Memory.wf_nil : Memory.wf [] = true := rfl

theorem Memory.wf_cons (c : Host.Cell) (m : Memory) :
    Memory.wf (c :: m) = true ↔ (∀ d ∈ m, c.1 < d.1) ∧ m.wf = true := by
  simp [Memory.wf]

theorem Memory.mem_write {m : Memory} {i : Nat} {v : Byte} {d : Host.Cell} (h : d ∈ m.write i v) :
    d = (i, v) ∨ d ∈ m := by
  induction m with
  | nil => simpa [Memory.write] using h
  | cons c m ih =>
    simp only [Memory.write] at h
    split at h
    · rcases List.mem_cons.1 h with h | h <;> simp_all
    · split at h
      · rcases List.mem_cons.1 h with h | h <;> simp_all
      · rcases List.mem_cons.1 h with h | h
        · simp [h]
        · rcases ih h with h | h <;> simp [h]

theorem Memory.wf_write {m : Memory} (h : m.wf = true) (i : Nat) (v : Byte) : (m.write i v).wf = true := by
  induction m with
  | nil => simp [Memory.write, Memory.wf]
  | cons c m ih =>
    rw [Memory.wf_cons] at h
    obtain ⟨hc, hm⟩ := h
    by_cases h1 : i < c.1
    · rw [Memory.write, if_pos h1, Memory.wf_cons, Memory.wf_cons]
      refine ⟨fun d hd => ?_, hc, hm⟩
      rcases List.mem_cons.1 hd with rfl | hd
      · exact h1
      · exact Nat.lt_trans h1 (hc d hd)
    · by_cases h2 : i = c.1
      · rw [Memory.write, if_neg h1, if_pos h2, Memory.wf_cons]
        exact ⟨fun d hd => by rw [h2]; exact hc d hd, hm⟩
      · rw [Memory.write, if_neg h1, if_neg h2, Memory.wf_cons]
        refine ⟨fun d hd => ?_, ih hm⟩
        rcases Memory.mem_write hd with rfl | hd
        · show c.1 < i; omega
        · exact hc d hd

theorem Memory.wf_writeBytes (vs : List Byte) {m : Memory} (h : m.wf = true) (i : Nat) :
    (m.writeBytes i vs).wf = true := by
  induction vs generalizing m i with
  | nil => exact h
  | cons v vs ih => exact ih (Memory.wf_write h i v) (i + 1)

theorem Memory.wf_filter {m : Memory} (h : m.wf = true) (p : Host.Cell → Bool) :
    Memory.wf (m.filter p) = true := by
  induction m with
  | nil => rfl
  | cons c m ih =>
    rw [Memory.wf_cons] at h
    by_cases hp : p c = true
    · rw [List.filter_cons_of_pos hp, Memory.wf_cons]
      exact ⟨fun d hd => h.1 d (List.mem_filter.1 hd).1, ih h.2⟩
    · rw [List.filter_cons_of_neg hp]; exact ih h.2

theorem Memory.wf_erase {m : Memory} (h : m.wf = true) (lo n : Nat) : (m.erase lo n).wf = true :=
  Memory.wf_filter h _

/-- In canonical form, an entry is what is read at its index. -/
theorem Memory.read_of_mem {m : Memory} (h : m.wf = true) {c : Host.Cell} (hc : c ∈ m) :
    m.read c.1 = some c.2 := by
  induction m with
  | nil => simp at hc
  | cons d m ih =>
    rw [Memory.wf_cons] at h
    rw [Memory.read]
    rcases List.mem_cons.1 hc with rfl | hc
    · simp
    · rw [if_neg (Nat.ne_of_lt (h.1 c hc))]; exact ih h.2 hc

theorem Memory.mem_of_read {m : Memory} {i : Nat} {v : Byte} (h : m.read i = some v) : (i, v) ∈ m := by
  induction m with
  | nil => simp [Memory.read] at h
  | cons d m ih =>
    rw [Memory.read] at h
    split at h
    · rename_i hd; cases h; subst hd; simp
    · exact List.mem_cons_of_mem _ (ih h)

theorem Memory.nodup_keys {m : Memory} (h : m.wf = true) : (m.map Prod.fst).Nodup := by
  induction m with
  | nil => simp
  | cons c m ih =>
    rw [Memory.wf_cons] at h
    rw [List.map_cons, List.nodup_cons]
    refine ⟨fun hc => ?_, ih h.2⟩
    obtain ⟨d, hd, hdc⟩ := List.mem_map.1 hc
    exact absurd (h.1 d hd) (by omega)

/-- A canonical store whose indexes lie in `(lo, hi)` has fewer than `hi − lo` entries. -/
theorem Memory.length_le_of_bounds {m : Memory} (h : m.wf = true) {lo hi : Nat}
    (hb : ∀ c ∈ m, lo < c.1 ∧ c.1 < hi) : m.length ≤ hi - lo - 1 := by
  have hsub : m.map Prod.fst ⊆ List.range' (lo + 1) (hi - lo - 1) := by
    intro k hk
    obtain ⟨c, hc, rfl⟩ := List.mem_map.1 hk
    have := hb c hc
    rw [List.mem_range'_1]; omega
  simpa using (Memory.nodup_keys h).subperm hsub |>.length_le

/-- Two canonical stores that read alike are the same store. -/
theorem Memory.eq_nil_of_read_none {m : Memory} (h : ∀ i, m.read i = none) : m = [] := by
  cases m with
  | nil => rfl
  | cons c m => have := h c.1; simp [Memory.read] at this

/-! ## The contiguous run -/

theorem Memory.runFrom_read (m : Memory) (fuel i j : Nat) (h : j < (m.runFrom i fuel).length) :
    m.read (i + j) = (m.runFrom i fuel)[j]? := by
  induction fuel generalizing i j with
  | zero => simp [Memory.runFrom] at h
  | succ fuel ih =>
    rw [Memory.runFrom] at h ⊢
    cases hr : m.read i with
    | none => simp [hr] at h
    | some v =>
      simp only [hr] at h ⊢
      cases j with
      | zero => simpa using hr
      | succ j =>
        rw [List.getElem?_cons_succ, ← ih (i + 1) j (by simpa using h)]
        congr 1; omega

theorem Memory.runFrom_stops (m : Memory) (fuel i : Nat) :
    (m.runFrom i fuel).length = fuel ∨ m.read (i + (m.runFrom i fuel).length) = none := by
  induction fuel generalizing i with
  | zero => left; rfl
  | succ fuel ih =>
    rw [Memory.runFrom]
    cases hr : m.read i with
    | none => right; simpa using hr
    | some v =>
      rcases ih (i + 1) with h | h
      · left; simp [h]
      · right; rw [List.length_cons]; rw [← h]; congr 1; omega

/-- Every byte of the run is pending at its index. -/
theorem Memory.run_read (m : Memory) (i j : Nat) (h : j < (m.run i).length) :
    m.read (i + j) = (m.run i)[j]? :=
  Memory.runFrom_read m m.length i j h

/-- The run is maximal: nothing is pending at the index after it. -/
theorem Memory.run_maximal (m : Memory) (i : Nat) : m.read (i + (m.run i).length) = none := by
  rcases Memory.runFrom_stops m m.length i with h | h
  · by_contra hne
    obtain ⟨v, hv⟩ := Option.ne_none_iff_exists'.1 hne
    have hsub : List.range' i (m.length + 1) ⊆ m.map Prod.fst := by
      intro k hk
      rw [List.mem_range'_1] at hk
      by_cases hlast : k = i + (m.run i).length
      · subst hlast; exact List.mem_map.2 ⟨_, Memory.mem_of_read hv, rfl⟩
      · have hlen : (m.run i).length = m.length := h
        have hj : k - i < (m.run i).length := by omega
        have hr := Memory.run_read m i (k - i) hj
        rw [List.getElem?_eq_getElem hj, show i + (k - i) = k by omega] at hr
        exact List.mem_map.2 ⟨_, Memory.mem_of_read hr, rfl⟩
    have := (List.nodup_range' (s := i) (n := m.length + 1)).subperm hsub |>.length_le
    simp at this
  · exact h

/-- The run is the only maximal sequence of consecutive pending bytes. -/
theorem Memory.run_unique (m : Memory) (i : Nat) (vs : List Byte)
    (h : ∀ j, j < vs.length → m.read (i + j) = vs[j]?) (hmax : m.read (i + vs.length) = none) :
    m.run i = vs := by
  have hlen : (m.run i).length = vs.length := by
    rcases Nat.lt_trichotomy (m.run i).length vs.length with hlt | heq | hgt
    · have h1 := h _ hlt
      rw [Memory.run_maximal, List.getElem?_eq_getElem hlt] at h1
      cases h1
    · exact heq
    · have h1 := Memory.run_read m i _ hgt
      rw [hmax, List.getElem?_eq_getElem hgt] at h1
      cases h1
  apply List.ext_getElem? fun j => ?_
  by_cases hj : j < vs.length
  · rw [← h j hj, Memory.run_read m i j (by omega)]
  · rw [List.getElem?_eq_none (by omega), List.getElem?_eq_none (by omega)]

end Sys2Proof.Machine
end

