-- ==== Sys2Proof/Laws/Reassembly.lean ====
section
/-! SUPPORT. What `RA_insert` does (42_reassembler.md R161), that it never faults from a state that meets
the invariants, and that it keeps 10_state.md R24 and R27. -/

namespace Sys2Proof.Machine

theorem Memory.mem_writeBytes {vs : List Byte} {m : Memory} {i : Nat} {c : Host.Cell}
    (h : c ∈ m.writeBytes i vs) : c ∈ m ∨ (i ≤ c.1 ∧ c.1 < i + vs.length) := by
  induction vs generalizing m i with
  | nil => exact .inl h
  | cons v vs ih =>
    rcases ih h with h | h
    · rcases Memory.mem_write h with rfl | h
      · right; simp
      · exact .inl h
    · right; simp only [List.length_cons]; omega

theorem Memory.mem_erase {m : Memory} {lo n : Nat} {c : Host.Cell} :
    c ∈ m.erase lo n ↔ c ∈ m ∧ ¬(lo ≤ c.1 ∧ c.1 < lo + n) := by
  simp only [Memory.erase, List.mem_filter]
  constructor
  · rintro ⟨h, hp⟩; exact ⟨h, by simp at hp; omega⟩
  · rintro ⟨h, hp⟩; exact ⟨h, by simp; omega⟩

theorem Reassembler.holds_iff (r : Reassembler) (inn : Stream) :
    r.holds inn = true ↔
      (∀ c ∈ r.pending, r.nextIndex.toNat < c.1 ∧ c.1 < r.nextIndex.toNat + inn.available) ∧
        r.pending.length + inn.buffered ≤ inn.capacity.toNat ∧
          inn.bytesPushed.toNat ≤ r.nextIndex.toNat := by
  unfold Reassembler.holds Reassembler.bytesPending
  simp only [Bool.and_eq_true, List.all_eq_true, decide_eq_true_eq, and_assoc]

/-! ## The clip and the merge -/

theorem Reassembler.length_clip (r : Reassembler) (inn : Stream) (f : Nat) (d : List Byte) :
    (r.clip inn f d).length = min (f + d.length) (r.windowEnd inn) - r.clipFrom f := by
  simp only [Reassembler.clip, List.length_take, List.length_drop, Reassembler.clipFrom]; omega

/-- The pending byte at an index after the merge: the offered byte where the offered range and the window
meet, else what was pending (R161 step 3, R162). -/
theorem Reassembler.merge_read (r : Reassembler) (inn : Stream) (f : Nat) (d : List Byte) (i : Nat) :
    (r.merge inn f d).pending.read i =
      if max f r.nextIndex.toNat ≤ i ∧ i < min (f + d.length) (r.windowEnd inn) then d[i - f]?
      else r.pending.read i := by
  rw [Reassembler.merge, Memory.read_writeBytes, Reassembler.length_clip]
  have hiff : (r.clipFrom f ≤ i ∧ i < r.clipFrom f + (min (f + d.length) (r.windowEnd inn) - r.clipFrom f)) ↔
      (max f r.nextIndex.toNat ≤ i ∧ i < min (f + d.length) (r.windowEnd inn)) := by
    unfold Reassembler.clipFrom; omega
  by_cases h : max f r.nextIndex.toNat ≤ i ∧ i < min (f + d.length) (r.windowEnd inn)
  · rw [if_pos (hiff.2 h), if_pos h, Reassembler.clip]
    unfold Reassembler.clipFrom
    rw [List.getElem?_take_of_lt (by omega), List.getElem?_drop]
    congr 1; omega
  · rw [if_neg (fun h' => h (hiff.1 h')), if_neg h]

@[simp] theorem Reassembler.merge_nextIndex (r : Reassembler) (inn : Stream) (f : Nat) (d : List Byte) :
    (r.merge inn f d).nextIndex = r.nextIndex := rfl
@[simp] theorem Reassembler.merge_endIndex (r : Reassembler) (inn : Stream) (f : Nat) (d : List Byte) :
    (r.merge inn f d).endIndex = r.endIndex := rfl

theorem Reassembler.merge_wf {r : Reassembler} (h : r.pending.wf = true) (inn : Stream) (f : Nat)
    (d : List Byte) : (r.merge inn f d).pending.wf = true :=
  Memory.wf_writeBytes _ h _

/-- After the merge every pending index lies in the window, and below 2^64 − 1. -/
theorem Reassembler.merge_bounds {r : Reassembler} {inn : Stream} (h : r.Inv inn) {f : Nat} {d : List Byte}
    (hf : f + d.length < 2 ^ 64) {c : Host.Cell} (hc : c ∈ (r.merge inn f d).pending) :
    r.nextIndex.toNat ≤ c.1 ∧ c.1 < r.nextIndex.toNat + inn.available ∧ c.1 + 1 < 2 ^ 64 := by
  rcases Memory.mem_writeBytes hc with hc | hc
  · have h1 := ((r.holds_iff inn).1 h.holds).1 c hc
    have h2 := h.below c hc
    omega
  · rw [Reassembler.length_clip] at hc
    unfold Reassembler.clipFrom Reassembler.windowEnd at hc
    omega

/-! ## The delivery -/

/-- The run that a merged reassembler delivers (R161 step 4). -/
def Reassembler.deliverable (r : Reassembler) : List Byte := r.pending.run r.nextIndex.toNat

/-- Every delivered byte was pending. -/
theorem Reassembler.deliverable_mem (r : Reassembler) {j : Nat} (h : j < r.deliverable.length) :
    ∃ v, (r.nextIndex.toNat + j, v) ∈ r.pending := by
  have := Memory.run_read r.pending r.nextIndex.toNat j h
  rw [show r.pending.run r.nextIndex.toNat = r.deliverable from rfl, List.getElem?_eq_getElem h] at this
  exact ⟨_, Memory.mem_of_read this⟩

/-- What `RA_insert` answers, from a state that meets the invariants: it does not fault, it delivers the
maximal run of the merged set, and it keeps the invariants (R161, R163). -/
theorem raInsert_spec {r : Reassembler} {inn : Stream} (hin : inn.holds = true) (h : r.Inv inn) {f : Nat}
    {d : List Byte} (hf : f + d.length < 2 ^ 64) (last : Bool) :
    ∃ (r' : Reassembler) (inn1 : Stream) (run : List Byte),
      raInsert r inn f d last =
        .ok (r', if r'.ended then bsClose inn1 else inn1, run.length) ∧
      run = (r.merge inn f d).deliverable ∧
      r'.pending = (r.merge inn f d).pending.erase r.nextIndex.toNat run.length ∧
      r'.nextIndex.toNat = r.nextIndex.toNat + run.length ∧
      r'.endIndex = (if last then some (BitVec.ofNat 64 (f + d.length)) else r.endIndex) ∧
      (((inn.closed = true ∨ inn.error = true) ∧ inn1 = inn) ∨
        (inn.closed = false ∧ inn.error = false ∧
          ∃ p : U64, p.toNat = inn.bytesPushed.toNat + run.length ∧
            inn1 = { inn with buf := inn.buf ++ run, bytesPushed := p })) ∧
      inn1.holds = true ∧ r'.Inv inn1 := by
  obtain ⟨h1, h2, h3⟩ := (r.holds_iff inn).1 h.holds
  -- the end marker
  have hend : r.noteEnd f d last =
      .ok { r with endIndex := if last then some (BitVec.ofNat 64 (f + d.length)) else r.endIndex } := by
    unfold Reassembler.noteEnd
    cases last
    · rfl
    · simp only [if_true]; rw [store64_eq hf]; rfl
  -- the merged set
  generalize hm : r.merge inn f d = m
  have hmn : m.nextIndex = r.nextIndex := by rw [← hm]; rfl
  have hbounds : ∀ c ∈ m.pending, r.nextIndex.toNat ≤ c.1 ∧ c.1 < r.nextIndex.toNat + inn.available ∧
      c.1 + 1 < 2 ^ 64 := fun c hc => Reassembler.merge_bounds h hf (hm ▸ hc)
  have hwf : m.pending.wf = true := hm ▸ Reassembler.merge_wf h.wf inn f d
  generalize hrun : m.deliverable = run
  have hlast : run.length ≤ inn.available ∧ r.nextIndex.toNat + run.length < 2 ^ 64 := by
    rcases Nat.eq_zero_or_pos run.length with h0 | h0
    · have := r.nextIndex.isLt; omega
    · obtain ⟨v, hv⟩ := m.deliverable_mem (j := run.length - 1) (by rw [hrun]; omega)
      have := hbounds _ hv
      simp only [hmn] at this
      omega
  -- the push
  obtain ⟨⟨inn1, k⟩, hpush⟩ : ∃ x, bsPush inn run = .ok x := bsPush_of_fits (by omega)
  have hpk := bsPush_keeps hpush hin
  have hpo := bsPush_ok hpush
  have hnext := store64_eq hlast.2
  refine ⟨⟨m.pending.erase r.nextIndex.toNat run.length,
      BitVec.ofNat 64 (r.nextIndex.toNat + run.length),
      if last then some (BitVec.ofNat 64 (f + d.length)) else r.endIndex⟩, inn1, run, ?_, rfl, rfl, ?_, rfl,
      ?_, hpk.1, ?_⟩
  · unfold raInsert
    rw [hend]
    simp only [bind, Except.bind, Reassembler.deliver]
    have hmr : (Reassembler.merge
        { r with endIndex := if last then some (BitVec.ofNat 64 (f + d.length)) else r.endIndex } inn f d)
        = { m with endIndex := if last then some (BitVec.ofNat 64 (f + d.length)) else r.endIndex } := by
      rw [← hm]; rfl
    rw [hmr]
    have hrun' : m.pending.run r.nextIndex.toNat = run := by rw [← hmn]; exact hrun
    simp only [hmn, hrun', hpush, hnext, pure, Except.pure]
  · exact (store64_ok.1 hnext)
  · rcases hpo with ⟨hc, he, -⟩ | ⟨hc, he, hk, p, hp, hs⟩
    · exact .inl ⟨hc, he⟩
    · refine .inr ⟨hc, he, p, by omega, ?_⟩
      have : k = run.length := by omega
      rw [hs, this, List.take_length]
  · have hnx : (BitVec.ofNat 64 (r.nextIndex.toNat + run.length)).toNat = r.nextIndex.toNat + run.length :=
      store64_ok.1 hnext
    have herase : ∀ c ∈ m.pending.erase r.nextIndex.toNat run.length,
        c ∈ m.pending ∧ r.nextIndex.toNat + run.length < c.1 := by
      intro c hc
      obtain ⟨hcm, hout⟩ := Memory.mem_erase.1 hc
      refine ⟨hcm, ?_⟩
      have hb := hbounds c hcm
      rcases Nat.lt_or_ge (r.nextIndex.toNat + run.length) c.1 with hlt | hge
      · exact hlt
      · exfalso
        have heq : c.1 = m.nextIndex.toNat + run.length := by rw [hmn]; omega
        have hmax := Memory.run_maximal m.pending m.nextIndex.toNat
        rw [show (m.pending.run m.nextIndex.toNat) = run from hrun, ← heq,
          Memory.read_of_mem hwf hcm] at hmax
        cases hmax
    have havail : r.nextIndex.toNat + inn.available ≤
        r.nextIndex.toNat + run.length + inn1.available := by
      rcases hpo with ⟨-, rfl, -⟩ | ⟨-, -, hk, p, hp, rfl⟩
      · omega
      · have := (inn.holds_iff.1 hin).2
        simp only [Stream.available, Stream.buffered] at *; omega
    have hkeys : ∀ c ∈ m.pending.erase r.nextIndex.toNat run.length,
        r.nextIndex.toNat + run.length < c.1 ∧
          c.1 < r.nextIndex.toNat + run.length + inn1.available := by
      intro c hc
      obtain ⟨hcm, hlt⟩ := herase c hc
      have hb := hbounds c hcm
      omega
    have hwf' := Memory.wf_erase hwf r.nextIndex.toNat run.length
    refine ⟨?_, hwf', fun c hc => (hbounds c (herase c hc).1).2.2⟩
    rw [Reassembler.holds_iff]
    simp only [hnx]
    refine ⟨hkeys, ?_, ?_⟩
    · have hlen := Memory.length_le_of_bounds hwf' hkeys
      have hcap := (inn1.holds_iff.1 hpk.1).2
      unfold Stream.available at hlen
      omega
    · rcases hpo with ⟨-, rfl, -⟩ | ⟨-, -, hk, p, hp, rfl⟩
      · omega
      · show p.toNat ≤ _; omega

theorem Reassembler.inv_bsClose {r : Reassembler} {inn : Stream} (h : r.Inv inn) : r.Inv (bsClose inn) :=
  ⟨h.holds, h.wf, h.below⟩

theorem Reassembler.inv_bsSetError {r : Reassembler} {inn : Stream} (h : r.Inv inn) :
    r.Inv (bsSetError inn) :=
  ⟨h.holds, h.wf, h.below⟩

/-- Freeing capacity keeps the reassembler's invariant. -/
theorem Reassembler.inv_of_pop {r : Reassembler} {inn inn' : Stream} (h : r.Inv inn)
    (hcap : inn'.capacity = inn.capacity) (hpushed : inn'.bytesPushed = inn.bytesPushed)
    (hbuf : inn'.buffered ≤ inn.buffered) : r.Inv inn' := by
  obtain ⟨h1, h2, h3⟩ := (r.holds_iff inn).1 h.holds
  refine ⟨?_, h.wf, h.below⟩
  rw [Reassembler.holds_iff, hcap, hpushed]
  refine ⟨fun c hc => ?_, by omega, h3⟩
  have := h1 c hc
  unfold Stream.available at *
  rw [hcap]; omega

/-- What `RA_insert` keeps, in one place: the invariants, the flags that only rise, the capacity. -/
theorem raInsert_keeps {r r' : Reassembler} {inn inn' : Stream} {l : Nat} (hin : inn.holds = true)
    (h : r.Inv inn) {f : Nat} {d : List Byte} (hf : f + d.length < 2 ^ 64) {last : Bool}
    (heq : raInsert r inn f d last = .ok (r', inn', l)) :
    inn'.holds = true ∧ r'.Inv inn' ∧ inn.keepsFlags inn' = true ∧ inn'.capacity = inn.capacity ∧
      inn'.bytesPopped = inn.bytesPopped := by
  obtain ⟨r1, inn1, run, hok, -, -, -, -, hpush, hh, hI⟩ := raInsert_spec hin h hf last
  rw [heq] at hok
  simp only [Except.ok.injEq, Prod.mk.injEq] at hok
  obtain ⟨rfl, rfl, -⟩ := hok
  have hf1 : inn.keepsFlags inn1 = true ∧ inn1.capacity = inn.capacity ∧
      inn1.bytesPopped = inn.bytesPopped := by
    rcases hpush with ⟨-, rfl⟩ | ⟨-, -, p, -, rfl⟩
    · exact ⟨Stream.keepsFlags_refl _, rfl, rfl⟩
    · refine ⟨?_, rfl, rfl⟩; rw [Stream.keepsFlags_iff]; exact ⟨id, id⟩
  split
  · exact ⟨hh, Reassembler.inv_bsClose hI,
      Stream.keepsFlags_trans hf1.1 (Stream.keepsFlags_bsClose _), hf1.2.1, hf1.2.2⟩
  · exact ⟨hh, hI, hf1⟩

end Sys2Proof.Machine
end

