-- ==== Sys2Proof/Laws/SequenceNumbers.lean ====
section
/-! SUPPORT. The two functions of the sequence-number unit, as arithmetic on naturals (40_sequence.md). -/

namespace Sys2Proof.Machine

theorem wrap_toNat (n : Nat) (zero : U32) : (wrap n zero).toNat = (zero.toNat + n) % 2 ^ 32 := by
  simp [wrap, BitVec.toNat_add]

/-- The offset of a wrapped number from the zero point. -/
def seqBase (raw zero : U32) : Nat := (raw - zero).toNat

theorem seqBase_lt (raw zero : U32) : seqBase raw zero < 2 ^ 32 := (raw - zero).isLt

/-- A number wraps to `raw` exactly when it is congruent to the offset. -/
theorem wrap_eq_iff (n : Nat) (raw zero : U32) : wrap n zero = raw ↔ n % 2 ^ 32 = seqBase raw zero := by
  have hz := zero.isLt
  have hr := raw.isLt
  rw [← BitVec.toNat_inj, wrap_toNat, seqBase, BitVec.toNat_sub]
  omega

/-- A checkpoint above 2^64 − 1 answers as 2^64 − 1 does. -/
theorem unwrap_min (raw zero : U32) (c : Nat) : unwrap raw zero (min c (2 ^ 64 - 1)) = unwrap raw zero c := by
  simp only [unwrap, Nat.min_assoc, Nat.min_self]

/-- The answer of `unwrap` is the offset plus a multiple of 2^32, within 2^32 of the checkpoint, and it
takes the lower candidate at half the distance (R111, R112). -/
theorem unwrap_spec (raw zero : U32) {c : Nat} (hlt : c < 2 ^ 64) :
    unwrap raw zero c % 2 ^ 32 = seqBase raw zero ∧
      (c ≤ seqBase raw zero → unwrap raw zero c = seqBase raw zero) ∧
      (seqBase raw zero < c →
        (unwrap raw zero c ≤ c ∧ (2 ^ 64 ≤ unwrap raw zero c + 2 ^ 32 ∨ c ≤ unwrap raw zero c + 2 ^ 31) ∧
            c < unwrap raw zero c + 2 ^ 32) ∨
          (c < unwrap raw zero c ∧ unwrap raw zero c < c + 2 ^ 31 ∧ unwrap raw zero c < 2 ^ 64)) := by
  have hb := seqBase_lt raw zero
  unfold unwrap
  unfold seqBase at *
  rw [Nat.min_eq_left (by omega)]
  dsimp only
  generalize (raw - zero).toNat = base at *
  split
  · refine ⟨by omega, fun _ => rfl, fun h => by omega⟩
  · rename_i hc
    have hk : (c - base) / 2 ^ 32 * 2 ^ 32 ≤ c - base := Nat.div_mul_le_self _ _
    have hk2 : c - base < (c - base) / 2 ^ 32 * 2 ^ 32 + 2 ^ 32 := by
      have := Nat.lt_div_mul_add (a := c - base) (b := 2 ^ 32) (by norm_num); omega
    generalize (c - base) / 2 ^ 32 = k at *
    split
    · refine ⟨by omega, fun h => by omega, fun _ => .inl ⟨by omega, by omega, by omega⟩⟩
    · split
      · refine ⟨by omega, fun h => by omega, fun _ => .inl ⟨by omega, by omega, by omega⟩⟩
      · refine ⟨by omega, fun h => by omega, fun _ => .inr ⟨by omega, by omega, by omega⟩⟩

/-- The answer is congruent to the offset, whatever the checkpoint (R112 (d)). -/
theorem unwrap_congr (raw zero : U32) (c : Nat) : unwrap raw zero c % 2 ^ 32 = seqBase raw zero := by
  rw [← unwrap_min]
  exact (unwrap_spec raw zero (by omega)).1

/-- The answer is a 64-bit value (R112 (b)). -/
theorem unwrap_lt (raw zero : U32) (c : Nat) : unwrap raw zero c < 2 ^ 64 := by
  have hb := seqBase_lt raw zero
  rw [← unwrap_min]
  obtain ⟨-, h2, h3⟩ := unwrap_spec raw zero (c := min c (2 ^ 64 - 1)) (by omega)
  rcases Nat.lt_or_ge (seqBase raw zero) (min c (2 ^ 64 - 1)) with h | h
  · rcases h3 h with ⟨h4, -, -⟩ | ⟨-, -, h4⟩ <;> omega
  · rw [h2 h]; omega

end Sys2Proof.Machine
end

