-- ==== Sys2Proof/Laws/Receiver.lean ====
section
/-! SUPPORT. What `RX_receive` can do, and that it keeps the invariants (43_receiver.md R191). -/

namespace Sys2Proof.Machine

/-- Everything `RX_receive` can do when it does not fault. -/
theorem rxReceive_ok {b b' : Block} {m : SenderMessage} (h : rxReceive b m = .ok b') :
    (m.rst = true ∧ b' = b.setIn (bsSetError b.bsIn)) ∨
    (m.rst = false ∧ b.rx.synSeen = false ∧ m.syn = false ∧ b' = b) ∨
    (m.rst = false ∧ (b.rx.synSeen = true ∨ m.syn = true) ∧
      ((b.rx.noteSyn m).streamIndex b.bsIn.bytesPushed.toNat m = none ∧ b' = b ∨
        ∃ idx ra inn l, (b.rx.noteSyn m).streamIndex b.bsIn.bytesPushed.toNat m = some idx ∧
          raInsert b.ra b.bsIn idx m.payload m.fin = .ok (ra, inn, l) ∧
          b' = ((b.setRx (b.rx.noteSyn m)).setRa ra).setIn inn)) := by
  unfold rxReceive at h
  split at h
  · rename_i hr; left; exact ⟨hr, by simpa using h.symm⟩
  · rename_i hr
    have hr : m.rst = false := by simpa using hr
    split at h
    · rename_i hs
      right; left
      simp only [Receiver.awaitsSyn, Bool.and_eq_true, Bool.not_eq_true'] at hs
      exact ⟨hr, hs.1, hs.2, by simpa using h.symm⟩
    · rename_i hs
      right; right
      refine ⟨hr, ?_, ?_⟩
      · unfold Receiver.awaitsSyn at hs
        revert hs; cases b.rx.synSeen <;> cases m.syn <;> simp
      · split at h
        · rename_i hn
          exact .inl ⟨hn, by simpa using h.symm⟩
        · rename_i idx hidx
          obtain ⟨⟨ra, inn, l⟩, hi, h⟩ := except_bind_ok.1 h
          exact .inr ⟨idx, ra, inn, l, hidx, hi, by simpa [pure, Except.pure] using h.symm⟩

/-- A stream index leaves room for the payload below 2^64 (R194). -/
theorem Receiver.streamIndex_fits {r : Receiver} {pushed idx : Nat} {m : SenderMessage}
    (h : r.streamIndex pushed m = some idx) : idx + m.payload.length < 2 ^ 64 := by
  unfold Receiver.streamIndex at h
  simp only [Option.ite_none_left_eq_some, Option.some.injEq] at h
  omega

/-- A first SYN always has a stream index: it is a 64-bit multiple of 2^32, and a payload is shorter than that.
So R191, which records the SYN first, and R194, which drops without any effect, agree on every segment. -/
theorem Receiver.streamIndex_first_syn {r : Receiver} {m : SenderMessage} (pushed : Nat)
    (hr : r.synSeen = false) (hm : m.syn = true) (hl : m.payload.length < 2 ^ 32) :
    (r.noteSyn m).streamIndex pushed m = some (unwrap m.seqno m.seqno (pushed + 1)) := by
  have h0 : seqBase m.seqno m.seqno = 0 := by simp [seqBase]
  have hc := unwrap_congr m.seqno m.seqno (pushed + 1)
  have hlt := unwrap_lt m.seqno m.seqno (pushed + 1)
  simp only [Receiver.noteSyn, Receiver.streamIndex, hr, hm, Bool.not_false, Bool.and_self, if_true,
    Bool.not_true, Bool.false_and, Bool.false_eq_true, if_false]
  exact if_neg (by omega)

/-- From a state that meets the invariants `RX_receive` does not fault. -/
theorem rxReceive_succeeds {b : Block} (hin : b.bsIn.holds = true) (hra : b.ra.Inv b.bsIn)
    (m : SenderMessage) : ∃ b', rxReceive b m = .ok b' := by
  unfold rxReceive
  split
  · exact ⟨_, rfl⟩
  · split
    · exact ⟨_, rfl⟩
    · split
      · exact ⟨_, rfl⟩
      · rename_i idx hidx
        obtain ⟨r', inn1, run, hok, -⟩ := raInsert_spec hin hra (Receiver.streamIndex_fits hidx) m.fin
        rw [hok]; exact ⟨_, rfl⟩

/-- What `RX_receive` leaves alone, and what it keeps. -/
theorem rxReceive_keeps {b b' : Block} {m : SenderMessage} (hin : b.bsIn.holds = true)
    (hra : b.ra.Inv b.bsIn) (h : rxReceive b m = .ok b') :
    b'.bsIn.holds = true ∧ b'.ra.Inv b'.bsIn ∧ b.bsIn.keepsFlags b'.bsIn = true ∧
      b'.bsIn.capacity = b.bsIn.capacity ∧ b'.bsIn.bytesPopped = b.bsIn.bytesPopped ∧
      b'.cfg = b.cfg ∧ b'.bsOut = b.bsOut ∧ b'.tx = b.tx ∧ b'.pr = b.pr ∧ b'.sys = b.sys := by
  rcases rxReceive_ok h with ⟨-, rfl⟩ | ⟨-, -, -, rfl⟩ | ⟨-, -, ⟨-, rfl⟩ | ⟨idx, ra, inn, l, hidx, hi, rfl⟩⟩
  · exact ⟨hin, Reassembler.inv_bsSetError hra, Stream.keepsFlags_bsSetError _, rfl, rfl, rfl, rfl, rfl, rfl, rfl⟩
  · exact ⟨hin, hra, Stream.keepsFlags_refl _, rfl, rfl, rfl, rfl, rfl, rfl, rfl⟩
  · exact ⟨hin, hra, Stream.keepsFlags_refl _, rfl, rfl, rfl, rfl, rfl, rfl, rfl⟩
  · obtain ⟨h1, h2, h3, h4, h5⟩ := raInsert_keeps hin hra (Receiver.streamIndex_fits hidx) hi
    exact ⟨h1, h2, h3, h4, h5, rfl, rfl, rfl, rfl, rfl⟩

end Sys2Proof.Machine
end

