-- ==== Sys2Proof/Laws/Sender.lean ====
section
/-! SUPPORT. What `TX_push`, `TX_receive` and `TX_tick` can do, and that they keep 10_state.md R24 and R31
(44_sender.md). -/

namespace Sys2Proof.Machine

/-! ## The queue -/

theorem totalSeqLen_append (q1 q2 : List OutEntry) :
    totalSeqLen (q1 ++ q2) = totalSeqLen q1 + totalSeqLen q2 := by
  induction q1 with
  | nil => simp [totalSeqLen]
  | cons e q1 ih => simp only [List.cons_append, totalSeqLen, ih]; omega

/-- A contiguous queue stays contiguous when an entry is appended at its end. -/
theorem contiguousFrom_append {n : Nat} {q : List OutEntry} {e : OutEntry} (h : contiguousFrom n q = true)
    (he : e.absSeqno.toNat = n + totalSeqLen q) : contiguousFrom n (q ++ [e]) = true := by
  induction q generalizing n with
  | nil => simpa [contiguousFrom, totalSeqLen] using he
  | cons x q ih =>
    simp only [contiguousFrom, Bool.and_eq_true, decide_eq_true_eq] at h
    simp only [List.cons_append, contiguousFrom, Bool.and_eq_true, decide_eq_true_eq]
    refine ⟨h.1, ih h.2 ?_⟩
    simp only [totalSeqLen] at he
    simp only [OutEntry.endSeqno]; omega

theorem Sender.holds_iff (t : Sender) (out : Stream) :
    t.holds out = true ↔
      t.bytesAcked.toNat ≤ t.bytesSent.toNat ∧ totalSeqLen t.outstanding = t.inFlight ∧
        contiguousFrom t.bytesAcked.toNat t.outstanding = true ∧
        t.timerRunning = !t.outstanding.isEmpty ∧
        t.bytesSent.toNat = b2n t.synSent + out.bytesPopped.toNat + b2n t.finSent ∧
        t.inFlight ≤ 65535 := by
  unfold Sender.holds
  simp only [Bool.and_eq_true, decide_eq_true_eq, beq_iff_eq, and_assoc]

theorem b2n_le_one (b : Bool) : b2n b ≤ 1 := by cases b <;> decide

theorem Sender.effWindow_bounds (t : Sender) : 1 ≤ t.effWindow ∧ t.effWindow ≤ 65535 := by
  unfold Sender.effWindow
  have := t.windowSize.isLt
  split
  · omega
  · rename_i h
    have : t.windowSize.toNat ≠ 0 := fun h0 => h (by apply BitVec.eq_of_toNat_eq; simpa using h0)
    omega

theorem Sender.expired_eq_false_iff (t : Sender) :
    t.expired = false ↔ (t.timerRunning = true → t.timerElapsed.toNat < t.rto.toNat) := by
  unfold Sender.expired
  cases t.timerRunning <;> simp

/-! ## What the sender needs of the block -/

/-- The part of the block's invariant that the sender's functions need and keep. -/
structure Block.SenderInv (b : Block) : Prop where
  legal : b.cfg.legal = true
  bsOut : b.bsOut.holds = true
  tx : b.tx.Inv b.cfg b.bsOut

theorem Config.initialRto_pos {c : Config} (h : c.legal = true) : 0 < c.initialRto.toNat := by
  unfold Config.legal at h
  rcases Nat.eq_zero_or_pos c.initialRto.toNat with h0 | h0
  · have : c.initialRto = 0 := by apply BitVec.eq_of_toNat_eq; simpa using h0
    simp [this] at h
  · exact h0

theorem zext_toNat (w : U32) : (w.zeroExtend 64).toNat = w.toNat := by
  have := w.isLt
  simp [BitVec.toNat_setWidth]; omega

/-! ## One pass of TX_push -/

/-- The message of the next segment when `out` is OUT after its payload is read (R212). -/
def Block.segment (b : Block) (out : Stream) : SenderMessage where
  seqno := wrap b.tx.bytesSent.toNat b.tx.zeroPoint
  syn := !b.tx.synSent
  payload := b.bsOut.buf.take b.nextPayloadSize
  fin := out.isFinished && decide (b2n (!b.tx.synSent) + b.nextPayloadSize + 1 ≤ b.tx.room)
  rst := out.error

/-- Everything one pass can do: it exits, or it sends one segment (R212). -/
theorem txPass_ok {e : Emission} {b : Block} {o : Option (Block × Sd)} (h : txPass e b = .ok o) :
    (o = none ∧ (b.tx.finSent = true ∨ b.tx.rightEdge ≤ b.tx.bytesSent.toNat ∨
        ∃ out, bsPop b.cfg.popPolicy b.bsOut b.nextPayloadSize = .ok (out, min b.nextPayloadSize b.bsOut.buffered) ∧
          b.tx.synSent = true ∧ b.nextPayloadSize = 0 ∧ (b.segment out).fin = false)) ∨
      (b.tx.finSent = false ∧ b.tx.bytesSent.toNat < b.tx.rightEdge ∧
        ∃ (out : Stream) (sent : U64),
          bsPop b.cfg.popPolicy b.bsOut b.nextPayloadSize = .ok (out, min b.nextPayloadSize b.bsOut.buffered) ∧
          sent.toNat = b.tx.bytesSent.toNat +
            (b2n (!b.tx.synSent) + b.nextPayloadSize + b2n (b.segment out).fin) ∧
          0 < b2n (!b.tx.synSent) + b.nextPayloadSize + b2n (b.segment out).fin ∧
          o = some ((b.setOut out).setTx (b.tx.afterSend b.cfg (b.segment out) sent),
            e (b.setOut out) (b.segment out))) := by
  unfold txPass at h
  split at h
  · rename_i hf; left; exact ⟨by simpa using h.symm, .inl hf⟩
  · rename_i hf
    split at h
    · rename_i hr; left; exact ⟨by simpa using h.symm, .inr (.inl hr)⟩
    · rename_i hr
      obtain ⟨⟨out, k⟩, hp, h⟩ := except_bind_ok.1 h
      have hk := (bsPop_ok hp).2.1
      subst hk
      dsimp only at h
      split at h
      · rename_i hz
        left
        refine ⟨by simpa [pure, Except.pure] using h.symm, .inr (.inr ⟨out, hp, ?_, ?_, ?_⟩)⟩
        · cases hs : b.tx.synSent
          · simp [hs, b2n] at hz
          · rfl
        · omega
        · have : b2n (b.segment out).fin = 0 := by
            show b2n (out.isFinished && _) = 0; omega
          cases hfin : (b.segment out).fin
          · rfl
          · simp [hfin, b2n] at this
      · rename_i hz
        obtain ⟨sent, hs, h⟩ := except_bind_ok.1 h
        right
        refine ⟨by simpa using hf, by omega, out, sent, hp, store64_ok.1 hs, Nat.pos_of_ne_zero hz, ?_⟩
        simp only [pure, Except.pure, Except.ok.injEq] at h
        exact h.symm

theorem Block.nextPayloadSize_le (b : Block) :
    b.nextPayloadSize ≤ b.cfg.maxPayload.toNat ∧ b.nextPayloadSize ≤ b.tx.room - b2n (!b.tx.synSent) ∧
      b.nextPayloadSize ≤ b.bsOut.buffered := by
  unfold Block.nextPayloadSize; omega

/-- The sequence length of the next segment (00_scope.md R17). -/
theorem Block.segment_seqLen {b : Block} (hout : b.bsOut.holds = true) (out : Stream) :
    (b.segment out).seqLen = b2n (!b.tx.synSent) + b.nextPayloadSize + b2n (b.segment out).fin := by
  have h := b.nextPayloadSize_le.2.2
  rw [Stream.buffered_of_holds hout] at h
  have hl : (b.segment out).payload.length = b.nextPayloadSize := by
    simp only [Block.segment, List.length_take]; omega
  rw [SenderMessage.seqLen, hl]; rfl

/-- The next segment fits the room (R213, R215). -/
theorem Block.segment_fits {b : Block} (h : b.tx.bytesSent.toNat < b.tx.rightEdge) (out : Stream) :
    b2n (!b.tx.synSent) + b.nextPayloadSize + b2n (b.segment out).fin ≤ b.tx.room := by
  have hn := b.nextPayloadSize_le.2.1
  have hs := b2n_le_one (!b.tx.synSent)
  have hroom : 1 ≤ b.tx.room := by unfold Sender.room; omega
  cases hfin : (b.segment out).fin
  · have : b2n false = 0 := rfl
    omega
  · have : (out.isFinished && decide (b2n (!b.tx.synSent) + b.nextPayloadSize + 1 ≤ b.tx.room)) = true := hfin
    simp only [Bool.and_eq_true, decide_eq_true_eq] at this
    have : b2n true = 1 := rfl
    omega

/-- One pass keeps the sender's invariant, sends at least one sequence number and stays within the right
edge (R215). -/
theorem txPass_keeps {e : Emission} {b b' : Block} {sd : Sd} (hb : b.SenderInv)
    (h : txPass e b = .ok (some (b', sd))) :
    b'.SenderInv ∧ b.bsOut.keepsFlags b'.bsOut = true ∧ b'.bsOut.capacity = b.bsOut.capacity ∧
      b.tx.bytesSent.toNat < b'.tx.bytesSent.toNat ∧ b'.tx.bytesSent.toNat ≤ b.tx.rightEdge ∧
      b'.tx.rightEdge = b.tx.rightEdge ∧ b'.tx.zeroPoint = b.tx.zeroPoint ∧
      b'.cfg = b.cfg ∧ b'.bsIn = b.bsIn ∧ b'.ra = b.ra ∧ b'.rx = b.rx ∧ b'.pr = b.pr ∧ b'.sys = b.sys := by
  rcases txPass_ok h with ⟨ho, -⟩ | ⟨hf, hr, out, sent, hp, hsent, hpos, ho⟩
  · cases ho
  · injection ho with ho
    injection ho with hb' hsd
    subst hb'
    have hlen := Block.segment_seqLen hb.bsOut out
    have hfits := Block.segment_fits hr out
    have hpk := bsPop_keeps hp hb.bsOut
    obtain ⟨-, hk, p, hpp, hout⟩ := bsPop_ok hp
    have hn := b.nextPayloadSize_le.2.2
    obtain ⟨h1, h2, h3, h4, h5, h6⟩ := (b.tx.holds_iff b.bsOut).1 hb.tx.holds
    have heff := b.tx.effWindow_bounds
    have hroom : b.tx.room = b.tx.bytesAcked.toNat + b.tx.effWindow - b.tx.bytesSent.toNat := rfl
    have hright : b.tx.rightEdge = b.tx.bytesAcked.toNat + b.tx.effWindow := rfl
    have hpop : out.bytesPopped.toNat = b.bsOut.bytesPopped.toNat + b.nextPayloadSize := by
      rw [hout]; show p.toNat = _; omega
    have hsyn : (b.tx.synSent || (b.segment out).syn) = true := by
      show (b.tx.synSent || !b.tx.synSent) = true; cases b.tx.synSent <;> rfl
    have hinit := zext_toNat b.cfg.initialRto
    have hrto := Config.initialRto_pos hb.legal
    refine ⟨⟨hb.legal, hpk.1, ⟨?_, ?_, ?_, ?_, ?_, ?_⟩⟩, hpk.2.1, hpk.2.2.1, ?_, ?_, rfl, rfl, rfl, rfl, rfl,
      rfl, rfl, rfl⟩
    · rw [Sender.holds_iff]
      simp only [Block.setTx_tx, Block.setTx_bsOut, Block.setOut_bsOut, Sender.afterSend, Sender.inFlight,
        totalSeqLen_append, totalSeqLen] at *
      refine ⟨by omega, by omega, ?_, by simp, ?_, by omega⟩
      · apply contiguousFrom_append h3
        simp only; omega
      · rw [hsyn, hf, hpop, hsent, h5, hf]
        cases hs : b.tx.synSent <;> simp [b2n] <;> omega
    · intro en hen
      simp only [Block.setTx_tx, Sender.afterSend, List.mem_append, List.mem_singleton] at hen
      rcases hen with hen | rfl
      · exact hb.tx.occupies en hen
      · show 0 < (b.segment out).seqLen; omega
    · intro hs
      simp only [Block.setTx_tx, Sender.afterSend] at hs
      rw [hsyn] at hs; cases hs
    · intro hfin
      simp only [Block.setTx_tx, Sender.afterSend, hf, Bool.false_or] at hfin
      have : (out.isFinished && decide (b2n (!b.tx.synSent) + b.nextPayloadSize + 1 ≤ b.tx.room)) = true := hfin
      simp only [Bool.and_eq_true] at this
      exact this.1
    · simp only [Block.setTx_tx, Sender.afterSend, Block.setTx_cfg, Block.setOut_cfg]
      split
      · exact hb.tx.rtoFloor
      · omega
    · have hne := (b.tx.expired_eq_false_iff).1 hb.tx.notExpired
      rw [Sender.expired_eq_false_iff]
      intro _
      simp only [Block.setTx_tx, Sender.afterSend]
      cases ht : b.tx.timerRunning
      · simp only [Bool.false_eq_true, if_false]
        rw [hinit]; exact hrto
      · exact hne ht
    · show b.tx.bytesSent.toNat < sent.toNat; omega
    · show sent.toNat ≤ _; omega

/-- What a run of passes keeps. -/
theorem txPasses_keeps {e : Emission} {fuel : Nat} {b b' : Block} {sds : List Sd} (hb : b.SenderInv)
    (h : txPasses e fuel b = .ok (b', sds)) :
    b'.SenderInv ∧ b.bsOut.keepsFlags b'.bsOut = true ∧ b'.bsOut.capacity = b.bsOut.capacity ∧
      b'.tx.zeroPoint = b.tx.zeroPoint ∧ b'.cfg = b.cfg ∧ b'.bsIn = b.bsIn ∧ b'.ra = b.ra ∧
      b'.rx = b.rx ∧ b'.pr = b.pr ∧ b'.sys = b.sys := by
  induction fuel generalizing b sds with
  | zero =>
    simp only [txPasses, Except.ok.injEq, Prod.mk.injEq] at h
    obtain ⟨rfl, -⟩ := h
    exact ⟨hb, Stream.keepsFlags_refl _, rfl, rfl, rfl, rfl, rfl, rfl, rfl, rfl⟩
  | succ fuel ih =>
    rw [txPasses] at h
    obtain ⟨o, ho, h⟩ := except_bind_ok.1 h
    cases o with
    | none =>
      simp only [pure, Except.pure, Except.ok.injEq, Prod.mk.injEq] at h
      obtain ⟨rfl, -⟩ := h
      exact ⟨hb, Stream.keepsFlags_refl _, rfl, rfl, rfl, rfl, rfl, rfl, rfl, rfl⟩
    | some x =>
      obtain ⟨b1, sd⟩ := x
      obtain ⟨⟨b2, sds'⟩, hrest, h⟩ := except_bind_ok.1 h
      simp only [pure, Except.pure, Except.ok.injEq, Prod.mk.injEq] at h
      obtain ⟨rfl, -⟩ := h
      obtain ⟨g1, g2, g3, -, -, -, g4, g5, g6, g7, g8, g9, g10⟩ := txPass_keeps hb ho
      obtain ⟨k1, k2, k3, k4, k5, k6, k7, k8, k9, k10⟩ := ih g1 hrest
      exact ⟨k1, Stream.keepsFlags_trans g2 k2, k3.trans g3, k4.trans g4, k5.trans g5, k6.trans g6,
        k7.trans g7, k8.trans g8, k9.trans g9, k10.trans g10⟩

/-- With no room left, a pass exits: the bound on the passes of `TX_push` cuts nothing off (R215). -/
theorem txPass_no_room {e : Emission} {b : Block} (h : b.tx.room = 0) : txPass e b = .ok none := by
  unfold txPass
  unfold Sender.room at h
  split
  · rfl
  · rw [if_pos (by omega)]

/-! ## TX_receive -/

/-- Removing the covered messages of a contiguous queue: what is left is contiguous from the new
bytes_acked, and the removed and the left lengths add up (R221). -/
theorem popAcked_spec {a : Nat} (ha : a < 2 ^ 64) {q : List OutEntry} {acked : U64}
    (hc : contiguousFrom acked.toNat q = true) :
    contiguousFrom (popAcked a q acked).2.toNat (popAcked a q acked).1 = true ∧
      totalSeqLen (popAcked a q acked).1 + (popAcked a q acked).2.toNat = totalSeqLen q + acked.toNat ∧
      acked.toNat ≤ (popAcked a q acked).2.toNat ∧
      (∀ e ∈ (popAcked a q acked).1, e ∈ q) := by
  induction q generalizing acked with
  | nil => exact ⟨rfl, rfl, Nat.le_refl _, fun _ h => h⟩
  | cons h q ih =>
    simp only [contiguousFrom, Bool.and_eq_true, decide_eq_true_eq] at hc
    rw [popAcked]
    split
    · rename_i hle
      have hend : (BitVec.ofNat 64 h.endSeqno).toNat = h.endSeqno := by
        simp only [BitVec.toNat_ofNat]; omega
      obtain ⟨h1, h2, h3, h4⟩ := ih (acked := BitVec.ofNat 64 h.endSeqno) (by rw [hend]; exact hc.2)
      rw [hend] at h2 h3
      refine ⟨h1, ?_, ?_, fun e he => List.mem_cons_of_mem _ (h4 e he)⟩
      · simp only [totalSeqLen, OutEntry.endSeqno] at *; omega
      · simp only [OutEntry.endSeqno] at *; omega
    · refine ⟨?_, rfl, Nat.le_refl _, fun _ h => h⟩
      simp only [contiguousFrom, Bool.and_eq_true, decide_eq_true_eq]; exact hc

/-- The sender's invariant without its two clauses about the timer's state: what holds between the
acknowledgment and the stop of the timer. -/
structure Sender.MidInv (t : Sender) (c : Config) (out : Stream) : Prop where
  order : t.bytesAcked.toNat ≤ t.bytesSent.toNat
  total : totalSeqLen t.outstanding = t.inFlight
  contiguous : contiguousFrom t.bytesAcked.toNat t.outstanding = true
  running : t.outstanding ≠ [] → t.timerRunning = true
  sum : t.bytesSent.toNat = b2n t.synSent + out.bytesPopped.toNat + b2n t.finSent
  flight : t.inFlight ≤ 65535
  occupies : ∀ e ∈ t.outstanding, 0 < e.sm.seqLen
  synFirst : t.synSent = false → t.bytesSent = 0
  finLast : t.finSent = true → out.isFinished = true
  rtoFloor : c.initialRto.toNat ≤ t.rto.toNat
  notExpired : t.expired = false

theorem Sender.Inv.mid {t : Sender} {c : Config} {out : Stream} (h : t.Inv c out) : t.MidInv c out := by
  obtain ⟨h1, h2, h3, h4, h5, h6⟩ := (t.holds_iff out).1 h.holds
  refine ⟨h1, h2, h3, fun hne => ?_, h5, h6, h.occupies, h.synFirst, h.finLast, h.rtoFloor, h.notExpired⟩
  rw [h4]; cases hq : t.outstanding
  · exact absurd hq hne
  · rfl

theorem Sender.MidInv.stop {t : Sender} {c : Config} {out : Stream} (h : t.MidInv c out) :
    t.stopIfEmpty.Inv c out := by
  unfold Sender.stopIfEmpty
  split
  · rename_i he
    refine ⟨?_, h.occupies, h.synFirst, h.finLast, h.rtoFloor, rfl⟩
    rw [Sender.holds_iff]
    exact ⟨h.order, h.total, h.contiguous, by simp [he], h.sum, h.flight⟩
  · rename_i he
    refine ⟨?_, h.occupies, h.synFirst, h.finLast, h.rtoFloor, h.notExpired⟩
    rw [Sender.holds_iff]
    have hne : t.outstanding ≠ [] := fun h0 => he (by rw [h0]; rfl)
    refine ⟨h.order, h.total, h.contiguous, ?_, h.sum, h.flight⟩
    rw [h.running hne]; simpa using he

theorem Sender.MidInv.acknowledge {t : Sender} {c : Config} {out : Stream} (hleg : c.legal = true)
    (h : t.MidInv c out) (w : U32) : (t.acknowledge c w).MidInv c out := by
  unfold Sender.acknowledge
  dsimp only
  split
  · rename_i hr
    obtain ⟨h1, h2, h3, h4⟩ := popAcked_spec (a := unwrap w t.zeroPoint t.bytesAcked.toNat)
      (unwrap_lt _ _ _) h.contiguous
    generalize popAcked (unwrap w t.zeroPoint t.bytesAcked.toNat) t.outstanding t.bytesAcked = p at *
    have ht := h.total
    have hfl := h.flight
    have ho := h.order
    unfold Sender.inFlight at ht hfl
    refine ⟨?_, ?_, h1, fun hne => ?_, h.sum, ?_, fun e he => h.occupies e (h4 e he), h.synFirst, h.finLast,
      ?_, ?_⟩
    · show p.2.toNat ≤ t.bytesSent.toNat; omega
    · show totalSeqLen p.1 = t.bytesSent.toNat - p.2.toNat; omega
    · apply h.running
      cases hp : p.1 with
      | nil => exact absurd hp hne
      | cons x l =>
        have := h4 x (by rw [hp]; simp)
        intro h0; rw [h0] at this; simp at this
    · show t.bytesSent.toNat - p.2.toNat ≤ 65535; omega
    · rw [zext_toNat]
    · rw [Sender.expired_eq_false_iff]
      intro _
      show 0 < (c.initialRto.zeroExtend 64).toNat
      rw [zext_toNat]; exact Config.initialRto_pos hleg
  · exact h

/-- What `TX_receive` keeps and leaves alone. -/
theorem txReceive_keeps {b : Block} (hb : b.SenderInv) (m : ReceiverMessage) :
    (txReceive b m).SenderInv ∧ b.bsOut.keepsFlags (txReceive b m).bsOut = true ∧
      (txReceive b m).bsOut.capacity = b.bsOut.capacity ∧
      (txReceive b m).tx.zeroPoint = b.tx.zeroPoint ∧ (txReceive b m).cfg = b.cfg ∧
      (txReceive b m).bsIn = b.bsIn ∧ (txReceive b m).ra = b.ra ∧ (txReceive b m).rx = b.rx ∧
      (txReceive b m).pr = b.pr ∧ (txReceive b m).sys = b.sys := by
  unfold txReceive
  split
  · refine ⟨⟨hb.legal, hb.bsOut, ?_⟩, Stream.keepsFlags_bsSetError _, rfl, rfl, rfl, rfl, rfl, rfl, rfl, rfl⟩
    exact ⟨hb.tx.holds, hb.tx.occupies, hb.tx.synFirst, hb.tx.finLast, hb.tx.rtoFloor, hb.tx.notExpired⟩
  · dsimp only
    have hmid : ({ b.tx with windowSize := m.windowSize } : Sender).MidInv b.cfg b.bsOut := by
      have h := hb.tx.mid
      exact ⟨h.order, h.total, h.contiguous, h.running, h.sum, h.flight, h.occupies, h.synFirst, h.finLast,
        h.rtoFloor, h.notExpired⟩
    have hzp : ∀ (t : Sender) (w : U32), (t.acknowledge b.cfg w).zeroPoint = t.zeroPoint := by
      intro t w; unfold Sender.acknowledge; dsimp only; split <;> rfl
    have hstop : ∀ t : Sender, t.stopIfEmpty.zeroPoint = t.zeroPoint := by
      intro t; unfold Sender.stopIfEmpty; split <;> rfl
    refine ⟨⟨hb.legal, hb.bsOut, ?_⟩, Stream.keepsFlags_refl _, rfl, ?_, rfl, rfl, rfl, rfl, rfl, rfl⟩
    · show (Sender.stopIfEmpty _).Inv b.cfg b.bsOut
      cases m.ackno with
      | none => exact hmid.stop
      | some w => exact (hmid.acknowledge hb.legal w).stop
    · show (Sender.stopIfEmpty _).zeroPoint = b.tx.zeroPoint
      rw [hstop]
      cases m.ackno with
      | none => rfl
      | some w => exact hzp _ w

/-! ## TX_tick -/

/-- Everything `TX_tick` can do when it does not fault (R224). -/
theorem txTick_ok {ms : Nat} {e : Emission} {b b' : Block} {sds : List Sd}
    (h : txTick ms e b = .ok (b', sds)) :
    ∃ el : U64, el.toNat = b.tx.timerElapsed.toNat + ms ∧
      ((({ b.tx with timerElapsed := el } : Sender).expired = false ∧ sds = [] ∧
          b' = b.setTx { b.tx with timerElapsed := el }) ∨
        (({ b.tx with timerElapsed := el } : Sender).expired = true ∧
          sds = b.tx.outstanding.head?.toList.map
            (fun h => e (b.setTx { b.tx with timerElapsed := el }) h.sm) ∧
          ∃ rto n : U64,
            (b.tx.windowSize = 0 → rto = b.tx.rto ∧ n = b.tx.consecutiveRetx) ∧
            (b.tx.windowSize ≠ 0 → rto.toNat = 2 * b.tx.rto.toNat ∧
              n.toNat = b.tx.consecutiveRetx.toNat + 1) ∧
            b' = b.setTx { b.tx with timerElapsed := 0, rto := rto, consecutiveRetx := n })) := by
  unfold txTick at h
  obtain ⟨el, hel, h⟩ := except_bind_ok.1 h
  refine ⟨el, store64_ok.1 hel, ?_⟩
  dsimp only at h
  split at h
  · rename_i hx
    right
    obtain ⟨t, ht, h⟩ := except_bind_ok.1 h
    simp only [pure, Except.pure, Except.ok.injEq, Prod.mk.injEq] at h
    obtain ⟨rfl, rfl⟩ := h
    refine ⟨hx, rfl, ?_⟩
    unfold Sender.backoff at ht
    split at ht
    · rename_i hw
      simp only [Except.ok.injEq] at ht
      subst ht
      exact ⟨b.tx.rto, b.tx.consecutiveRetx, fun _ => ⟨rfl, rfl⟩, fun hw' => absurd hw hw', rfl⟩
    · rename_i hw
      obtain ⟨rto, hr, ht⟩ := except_bind_ok.1 ht
      obtain ⟨n, hn, ht⟩ := except_bind_ok.1 ht
      simp only [pure, Except.pure, Except.ok.injEq] at ht
      subst ht
      exact ⟨rto, n, fun hw' => absurd hw' hw, fun _ => ⟨store64_ok.1 hr, store64_ok.1 hn⟩, rfl⟩
  · rename_i hx
    left
    simp only [pure, Except.pure, Except.ok.injEq, Prod.mk.injEq] at h
    exact ⟨by simpa using hx, h.2.symm, h.1.symm⟩

/-- What `TX_tick` keeps. -/
theorem txTick_keeps {ms : Nat} {e : Emission} {b b' : Block} {sds : List Sd} (hb : b.SenderInv)
    (h : txTick ms e b = .ok (b', sds)) :
    b'.SenderInv ∧ b'.bsOut = b.bsOut ∧ b'.tx.zeroPoint = b.tx.zeroPoint ∧ b'.cfg = b.cfg ∧
      b'.bsIn = b.bsIn ∧ b'.ra = b.ra ∧ b'.rx = b.rx ∧ b'.pr = b.pr ∧ b'.sys = b.sys := by
  have ht := hb.tx
  obtain ⟨el, -, ⟨hx, -, rfl⟩ | ⟨-, -, rto, n, h0, h1, rfl⟩⟩ := txTick_ok h
  · refine ⟨⟨hb.legal, hb.bsOut, ⟨ht.holds, ht.occupies, ht.synFirst, ht.finLast, ht.rtoFloor, hx⟩⟩, rfl, rfl,
      rfl, rfl, rfl, rfl, rfl, rfl⟩
  · have hfloor : b.cfg.initialRto.toNat ≤ rto.toNat := by
      have := ht.rtoFloor
      by_cases hw : b.tx.windowSize = 0
      · rw [(h0 hw).1]; exact this
      · have := (h1 hw).1; omega
    have hpos := Config.initialRto_pos hb.legal
    refine ⟨⟨hb.legal, hb.bsOut, ⟨ht.holds, ht.occupies, ht.synFirst, ht.finLast, hfloor, ?_⟩⟩, rfl, rfl,
      rfl, rfl, rfl, rfl, rfl, rfl⟩
    rw [Sender.expired_eq_false_iff]
    intro _
    show 0 < rto.toNat
    omega

end Sys2Proof.Machine
end

