-- ==== Sys2Proof/Laws/Peer.lean ====
section
/-! SUPPORT. The block's invariant, assembled from its units', and what the peer's operations keep
(45_peer.md). -/

namespace Sys2Proof.Machine

/-! ## The block's invariant -/

theorem Block.Inv.sender {b : Block} (h : b.Inv) : b.SenderInv := ⟨h.legal, h.bsOut, h.tx⟩

/-- The block's invariant contains the spec's (10_state.md R24, R27, R31). -/
theorem Block.Inv.holds {b : Block} (h : b.Inv) : b.holds = true := by
  unfold Block.holds
  simp only [Bool.and_eq_true]
  exact ⟨⟨⟨h.bsIn, h.bsOut⟩, h.ra.holds⟩, h.tx.holds⟩

/-- The check of fault cause 3 passes when the post-state meets the invariant and no flag of a stream
fell (60_exceptions.md R304). -/
theorem invariantsHold_of {b b' : Block} (h : b'.Inv) (hin : b.bsIn.keepsFlags b'.bsIn = true)
    (hout : b.bsOut.keepsFlags b'.bsOut = true) : invariantsHold b b' = true := by
  unfold invariantsHold
  simp only [Bool.and_eq_true]
  exact ⟨⟨h.holds, hin⟩, hout⟩

/-- A change of the inbound side keeps the block's invariant. -/
theorem Block.Inv.of_inbound {b b' : Block} (h : b.Inv) (hin : b'.bsIn.holds = true)
    (hra : b'.ra.Inv b'.bsIn) (hcap : b'.bsIn.capacity = b.bsIn.capacity) (hcfg : b'.cfg = b.cfg)
    (hout : b'.bsOut = b.bsOut) (htx : b'.tx = b.tx) (hpr : b'.pr = b.pr) (hsys : b'.sys = b.sys) :
    b'.Inv := by
  refine ⟨?_, ?_, ?_, ?_, hin, ?_, hra, ?_, ?_, ?_⟩
  · rw [hcfg]; exact h.legal
  · rw [hcap, hcfg]; exact h.capIn
  · rw [hout, hcfg]; exact h.capOut
  · rw [htx, hcfg]; exact h.isn
  · rw [hout]; exact h.bsOut
  · rw [htx, hcfg, hout]; exact h.tx
  · rw [hpr]; exact h.pr
  · rw [hsys]; exact h.sys

/-- A change of the outbound side keeps the block's invariant. -/
theorem Block.Inv.of_outbound {b b' : Block} (h : b.Inv) (hs : b'.SenderInv)
    (hcap : b'.bsOut.capacity = b.bsOut.capacity) (hzp : b'.tx.zeroPoint = b.tx.zeroPoint)
    (hcfg : b'.cfg = b.cfg) (hin : b'.bsIn = b.bsIn) (hra : b'.ra = b.ra) (hpr : b'.pr = b.pr)
    (hsys : b'.sys = b.sys) : b'.Inv := by
  refine ⟨hs.legal, ?_, ?_, ?_, ?_, hs.bsOut, ?_, hs.tx, ?_, ?_⟩
  · rw [hin, hcfg]; exact h.capIn
  · rw [hcap, hcfg]; exact h.capOut
  · rw [hzp, hcfg]; exact h.isn
  · rw [hin]; exact h.bsIn
  · rw [hra, hin]; exact h.ra
  · rw [hpr]; exact h.pr
  · rw [hsys]; exact h.sys

/-- A change of PR and nothing else keeps the block's invariant when the clock is kept ahead. -/
theorem Block.Inv.setPr {b : Block} (h : b.Inv) {p : Peer} (hp : p.Inv) : (b.setPr p).Inv :=
  ⟨h.legal, h.capIn, h.capOut, h.isn, h.bsIn, h.bsOut, h.ra, h.tx, hp, h.sys⟩

/-! ## The internal functions keep it -/

theorem rxReceive_inv {b b' : Block} {m : SenderMessage} (hb : b.Inv) (h : rxReceive b m = .ok b') :
    b'.Inv ∧ b.bsIn.keepsFlags b'.bsIn = true ∧ b'.bsOut = b.bsOut := by
  obtain ⟨h1, h2, h3, h4, -, h6, h7, h8, h9, h10⟩ := rxReceive_keeps hb.bsIn hb.ra h
  exact ⟨hb.of_inbound h1 h2 h4 h6 h7 h8 h9 h10, h3, h7⟩

theorem txReceive_inv {b : Block} (hb : b.Inv) (m : ReceiverMessage) :
    (txReceive b m).Inv ∧ b.bsOut.keepsFlags (txReceive b m).bsOut = true ∧
      (txReceive b m).bsIn = b.bsIn := by
  obtain ⟨h1, h2, h3, h4, h5, h6, h7, -, h9, h10⟩ := txReceive_keeps hb.sender m
  exact ⟨hb.of_outbound h1 h3 h4 h5 h6 h7 h9 h10, h2, h6⟩

theorem txPush_inv {e : Emission} {b b' : Block} {sds : List Sd} (hb : b.Inv)
    (h : txPush e b = .ok (b', sds)) :
    b'.Inv ∧ b.bsOut.keepsFlags b'.bsOut = true ∧ b'.bsIn = b.bsIn := by
  obtain ⟨h1, h2, h3, h4, h5, h6, h7, -, h9, h10⟩ := txPasses_keeps hb.sender h
  exact ⟨hb.of_outbound h1 h3 h4 h5 h6 h7 h9 h10, h2, h6⟩

theorem txTick_inv {ms : Nat} {e : Emission} {b b' : Block} {sds : List Sd} (hb : b.Inv)
    (h : txTick ms e b = .ok (b', sds)) : b'.Inv ∧ b'.bsOut = b.bsOut ∧ b'.bsIn = b.bsIn := by
  obtain ⟨h1, h2, h3, h4, h5, h6, -, h8, h9⟩ := txTick_keeps hb.sender h
  exact ⟨hb.of_outbound h1 (by rw [h2]) h3 h4 h5 h6 h8 h9, h2, h5⟩

/-- Clearing the linger flag changes nothing else. -/
theorem Block.updateLinger_eq (b : Block) :
    b.updateLinger = b ∨ b.updateLinger = b.setPr { b.pr with linger := false } := by
  unfold Block.updateLinger
  split
  · exact .inr rfl
  · exact .inl rfl

theorem Block.Inv.updateLinger {b : Block} (h : b.Inv) : b.updateLinger.Inv := by
  rcases b.updateLinger_eq with he | he <;> rw [he]
  · exact h
  · exact h.setPr h.pr

/-- What PR.RECV's body does on an active peer, as the receiver's and the sender's functions (R251). -/
theorem prReceive_ok {b b' : Block} {sm : SenderMessage} {rm : ReceiverMessage} {sds : List Sd}
    (h : prReceive b sm rm = .ok (b', sds)) :
    ∃ b1, rxReceive (b.setPr { b.pr with timeOfLastReceiptMs := b.pr.cumulativeTimeMs }) sm = .ok b1 ∧
      b' = (txReceive b1 rm).updateLinger ∧
      sds = if (b.setPr { b.pr with timeOfLastReceiptMs := b.pr.cumulativeTimeMs }).owesReply sm then
          [sdMerge (txEmpty b') (rxSend b')] else [] := by
  unfold prReceive at h
  obtain ⟨b1, h1, h⟩ := except_bind_ok.1 h
  simp only [pure, Except.pure, Except.ok.injEq, Prod.mk.injEq] at h
  obtain ⟨rfl, rfl⟩ := h
  exact ⟨b1, h1, rfl, rfl⟩

theorem prReceive_inv {b b' : Block} {sm : SenderMessage} {rm : ReceiverMessage} {sds : List Sd}
    (hb : b.Inv) (h : prReceive b sm rm = .ok (b', sds)) :
    b'.Inv ∧ b.bsIn.keepsFlags b'.bsIn = true ∧ b.bsOut.keepsFlags b'.bsOut = true := by
  obtain ⟨b1, h1, rfl, -⟩ := prReceive_ok h
  have hp : (b.setPr { b.pr with timeOfLastReceiptMs := b.pr.cumulativeTimeMs }).Inv :=
    hb.setPr (Nat.le_refl _)
  obtain ⟨g1, g2, g3⟩ := rxReceive_inv hp h1
  obtain ⟨k1, k2, k3⟩ := txReceive_inv g1 rm
  have hin : ∀ c : Block, c.updateLinger.bsIn = c.bsIn ∧ c.updateLinger.bsOut = c.bsOut := by
    intro c
    rcases c.updateLinger_eq with he | he <;> rw [he] <;> exact ⟨rfl, rfl⟩
  refine ⟨k1.updateLinger, ?_, ?_⟩
  · rw [(hin _).1, k3]; exact g2
  · rw [(hin _).2]
    have : b.bsOut = b1.bsOut := g3.symm
    rw [this]; exact k2

theorem prReceive_succeeds {b : Block} (hb : b.Inv) (sm : SenderMessage) (rm : ReceiverMessage) :
    ∃ r, prReceive b sm rm = .ok r := by
  have hp : (b.setPr { b.pr with timeOfLastReceiptMs := b.pr.cumulativeTimeMs }).Inv :=
    hb.setPr (Nat.le_refl _)
  obtain ⟨b1, h1⟩ := rxReceive_succeeds hp.bsIn hp.ra sm
  unfold prReceive
  simp only [bind, Except.bind, h1]
  exact ⟨_, rfl⟩

/-- PR.TICK's body is the clock's advance followed by the sender's tick (R257). -/
theorem prTick_ok {ms : Nat} {b b' : Block} {sds : List Sd} (h : prTick ms b = .ok (b', sds)) :
    ∃ now : U64, now.toNat = b.pr.cumulativeTimeMs.toNat + ms ∧
      txTick ms emitMerged (b.setPr { b.pr with cumulativeTimeMs := now }) = .ok (b', sds) := by
  unfold prTick at h
  obtain ⟨now, hn, h⟩ := except_bind_ok.1 h
  exact ⟨now, store64_ok.1 hn, h⟩

theorem prTick_inv {ms : Nat} {b b' : Block} {sds : List Sd} (hb : b.Inv)
    (h : prTick ms b = .ok (b', sds)) : b'.Inv ∧ b'.bsOut = b.bsOut ∧ b'.bsIn = b.bsIn := by
  obtain ⟨now, hn, h⟩ := prTick_ok h
  have hp : (b.setPr { b.pr with cumulativeTimeMs := now }).Inv := by
    apply hb.setPr
    have := hb.pr
    unfold Peer.Inv at *
    show b.pr.timeOfLastReceiptMs.toNat ≤ now.toNat
    omega
  have k := txTick_inv hp h
  exact ⟨k.1, k.2.1, k.2.2⟩

end Sys2Proof.Machine
end

