-- ==== Sys2Proof/Laws/PerInstr.lean ====
section
/-! SUPPORT. A family stated command by command: what the CMD word of a command is (30_encoding.md R81,
R86, R87). -/

namespace Sys2Proof.Laws

/-- The CMD word of a command carries the opcode of its row of R86, selects that row by R87, and has its
reserved bits [31:10] 0 (R81). -/
def CmdWord.Statement (i : Instr) : Prop :=
  Opcode.ofCode (i.cmd.extractLsb' 0 8) = some i.opcode ∧
    i.opcode.selects i.cmd = true ∧
    i.cmd.extractLsb' 10 22 = 0

theorem CmdWord.sqWrap (a b : U64) :
    CmdWord.Statement (.sqWrap a b) := by
  obtain ⟨h1, h2⟩ := cmd_ofCode .sqWrap (bits := 0) (.inl rfl)
  exact ⟨h1, Opcode.selects_or .sqWrap (bits := 0) (by decide), h2⟩

theorem CmdWord.sqUnwrap (a b c : U64) :
    CmdWord.Statement (.sqUnwrap a b c) := by
  obtain ⟨h1, h2⟩ := cmd_ofCode .sqUnwrap (bits := 0) (.inl rfl)
  exact ⟨h1, Opcode.selects_or .sqUnwrap (bits := 0) (by decide), h2⟩

theorem CmdWord.bsPush (sel : Sel) (data : List Byte) :
    CmdWord.Statement (.bsPush sel data) := by
  obtain ⟨h1, h2⟩ := cmd_ofCode .bsPush (bits := selBit sel) (selBit_cases sel)
  exact ⟨h1, Opcode.selects_or .bsPush (bits := selBit sel) (by cases sel <;> decide), h2⟩

theorem CmdWord.bsClose (sel : Sel) :
    CmdWord.Statement (.bsClose sel) := by
  obtain ⟨h1, h2⟩ := cmd_ofCode .bsClose (bits := selBit sel) (selBit_cases sel)
  exact ⟨h1, Opcode.selects_or .bsClose (bits := selBit sel) (by cases sel <;> decide), h2⟩

theorem CmdWord.bsSeterr (sel : Sel) :
    CmdWord.Statement (.bsSeterr sel) := by
  obtain ⟨h1, h2⟩ := cmd_ofCode .bsSeterr (bits := selBit sel) (selBit_cases sel)
  exact ⟨h1, Opcode.selects_or .bsSeterr (bits := selBit sel) (by cases sel <;> decide), h2⟩

theorem CmdWord.bsPeek (sel : Sel) :
    CmdWord.Statement (.bsPeek sel) := by
  obtain ⟨h1, h2⟩ := cmd_ofCode .bsPeek (bits := selBit sel) (selBit_cases sel)
  exact ⟨h1, Opcode.selects_or .bsPeek (bits := selBit sel) (by cases sel <;> decide), h2⟩

theorem CmdWord.bsPop (sel : Sel) (n : U64) :
    CmdWord.Statement (.bsPop sel n) := by
  obtain ⟨h1, h2⟩ := cmd_ofCode .bsPop (bits := selBit sel) (selBit_cases sel)
  exact ⟨h1, Opcode.selects_or .bsPop (bits := selBit sel) (by cases sel <;> decide), h2⟩

theorem CmdWord.raInsert (last : Bool) (first : U64) (data : List Byte) :
    CmdWord.Statement (.raInsert last first data) := by
  obtain ⟨h1, h2⟩ := cmd_ofCode .raInsert (bits := lastBit last) (lastBit_cases last)
  exact ⟨h1, Opcode.selects_or .raInsert (bits := lastBit last) (by cases last <;> decide), h2⟩

theorem CmdWord.rxRecv (sd : Sd) :
    CmdWord.Statement (.rxRecv sd) := by
  obtain ⟨h1, h2⟩ := cmd_ofCode .rxRecv (bits := 0) (.inl rfl)
  exact ⟨h1, Opcode.selects_or .rxRecv (bits := 0) (by decide), h2⟩

theorem CmdWord.rxSend :
    CmdWord.Statement (.rxSend) := by
  obtain ⟨h1, h2⟩ := cmd_ofCode .rxSend (bits := 0) (.inl rfl)
  exact ⟨h1, Opcode.selects_or .rxSend (bits := 0) (by decide), h2⟩

theorem CmdWord.txPush :
    CmdWord.Statement (.txPush) := by
  obtain ⟨h1, h2⟩ := cmd_ofCode .txPush (bits := 0) (.inl rfl)
  exact ⟨h1, Opcode.selects_or .txPush (bits := 0) (by decide), h2⟩

theorem CmdWord.txRecv (sd : Sd) :
    CmdWord.Statement (.txRecv sd) := by
  obtain ⟨h1, h2⟩ := cmd_ofCode .txRecv (bits := 0) (.inl rfl)
  exact ⟨h1, Opcode.selects_or .txRecv (bits := 0) (by decide), h2⟩

theorem CmdWord.txTick (ms : U64) :
    CmdWord.Statement (.txTick ms) := by
  obtain ⟨h1, h2⟩ := cmd_ofCode .txTick (bits := 0) (.inl rfl)
  exact ⟨h1, Opcode.selects_or .txTick (bits := 0) (by decide), h2⟩

theorem CmdWord.txEmpty :
    CmdWord.Statement (.txEmpty) := by
  obtain ⟨h1, h2⟩ := cmd_ofCode .txEmpty (bits := 0) (.inl rfl)
  exact ⟨h1, Opcode.selects_or .txEmpty (bits := 0) (by decide), h2⟩

theorem CmdWord.prRecv (sd : Sd) :
    CmdWord.Statement (.prRecv sd) := by
  obtain ⟨h1, h2⟩ := cmd_ofCode .prRecv (bits := 0) (.inl rfl)
  exact ⟨h1, Opcode.selects_or .prRecv (bits := 0) (by decide), h2⟩

theorem CmdWord.prPush :
    CmdWord.Statement (.prPush) := by
  obtain ⟨h1, h2⟩ := cmd_ofCode .prPush (bits := 0) (.inl rfl)
  exact ⟨h1, Opcode.selects_or .prPush (bits := 0) (by decide), h2⟩

theorem CmdWord.prTick (ms : U64) :
    CmdWord.Statement (.prTick ms) := by
  obtain ⟨h1, h2⟩ := cmd_ofCode .prTick (bits := 0) (.inl rfl)
  exact ⟨h1, Opcode.selects_or .prTick (bits := 0) (by decide), h2⟩

theorem CmdWord.rdreg (addr : U64) :
    CmdWord.Statement (.rdreg addr) := by
  obtain ⟨h1, h2⟩ := cmd_ofCode .rdreg (bits := 0) (.inl rfl)
  exact ⟨h1, Opcode.selects_or .rdreg (bits := 0) (by decide), h2⟩

end Sys2Proof.Laws
end

