-- ==== Sys2Proof/Laws/Responses.lean ====
section
/-! SUPPORT. What is read back from a response carried as bytes (20_memory.md R63, 30_encoding.md R83). -/

namespace Sys2Proof.Machine

@[simp] theorem bytesSds_nil : bytesSds [] = [] := rfl
@[simp] theorem bytesSds_cons (sd : Sd) (sds : List Sd) : bytesSds (sd :: sds) = bytesSd sd ++ bytesSds sds := rfl

@[simp] theorem State.responseBytes_answer (s : State) (r : Response) :
    (s.answer r).responseBytes = some r.bytes := rfl

/-- The codes tell the statuses apart (60_exceptions.md R300). -/
theorem Status.code_injective {x y : Status} (h : x.code = y.code) : x = y := by
  cases x <;> cases y <;> first | rfl | cases h

/-- After the status byte a reader of 64-bit words finds R0, and behind it the other elements. -/
theorem Response.take64_tail_bytes (r : Response) :
    take64 r.bytes.tail = some (r.r0, r.rdata ++ (bytesSds r.rsd.toList ++ bytesSds r.emit)) :=
  take64_bytes64 _ _

/-- A reader of descriptors takes the first of a list whole and stands before the next. -/
theorem takeSd_bytesSds_cons {sd : Sd} {sds : List Sd} (h : sd.fits = true) (rest : List Byte) :
    takeSd (bytesSds (sd :: sds) ++ rest) = some (sd, bytesSds sds ++ rest) := by
  rw [bytesSds_cons, List.append_assoc, takeSd_bytesSd h]

end Sys2Proof.Machine
end

