-- ==== Sys2Proof/Tests/Slice0.lean ====
section
/-! SUPPORT. The model's own tests. Words and expected results are those of 95_test_vectors.md and of the rules
each test cites; no expected value is the model's own answer. The theorems `witness_…` show, for each statement
of Certificates/Slice0/Obligations.lean with hypotheses, concrete values that meet them. -/

open Sys2Proof Sys2Proof.Machine

namespace Tests

/-! ## Helpers -/

/-- The state after a command, the same state where there is none. -/
def after (s : State) (i : Instr) : State :=
  match exec i s with
  | .next t => t
  | _ => s

/-- The state after commands, in order. -/
def afterAll (s : State) (is : List Instr) : State := is.foldl after s

/-- The state after a step, the same state where there is none. -/
def stepped (s : State) : State :=
  match step s with
  | .next t => t
  | _ => s

/-- The outcome is a next state. -/
def isNext (r : Result) : Bool :=
  match r with
  | .next _ => true
  | _ => false

theorem ran {i : Instr} {s : State} (h : isNext (exec i s) = true) : exec i s = .next (after s i) := by
  unfold after; cases he : exec i s <;> rw [he] at h <;> first | rfl | cases h

theorem stepRan {s : State} (h : isNext (step s) = true) : step s = .next (stepped s) := by
  unfold stepped; cases he : step s <;> rw [he] at h <;> first | rfl | cases h

/-- A configuration that differs from the defaults of 00_scope.md R10 in what its name says. -/
def small : Config := { Config.default with capIn := 10, capOut := 3, maxDataLen := 6 }
def noPeer : Config := { Config.default with hasPeer := false }
def popFaults : Config := { Config.default with popPolicy := .fault }
def finOnClosed : Config := { Config.default with finAckOn := .closed }

/-- A descriptor with no flag, no ackno and no payload. -/
def plain : Sd :=
  { seqno := 0, ackno := 0, window := 0, syn := false, fin := false, rstS := false, akv := false, rstR := false
    rsvd := 0, payload := [] }
def syn7 : Sd := { plain with seqno := 7, syn := true }
def ack1 : Sd := { plain with ackno := 1, window := 1000, akv := true }

/-- The reset block after TX.PUSH: the SYN is in flight and the timer runs. -/
def synSent : State := after State.reset .txPush
/-- A block in the fault state by R304's cause 2. -/
def faulted : State := after (State.resetWith popFaults) (.bsPop .inbound 1)

/-- The invariant as a check on a concrete state. -/
def invCheck (s : State) : Bool :=
  let b := s.block
  b.cfg.legal && decide (b.bsIn.capacity = b.cfg.capIn) && decide (b.bsOut.capacity = b.cfg.capOut) &&
    decide (b.tx.zeroPoint = b.cfg.isn) && b.holds && b.ra.pending.wf &&
    b.ra.pending.all (fun c => decide (c.1 + 1 < 2 ^ 64)) &&
    b.tx.outstanding.all (fun e => decide (0 < e.sm.seqLen)) &&
    (b.tx.synSent || decide (b.tx.bytesSent = 0)) && (!b.tx.finSent || b.bsOut.isFinished) &&
    decide (b.cfg.initialRto.toNat ≤ b.tx.rto.toNat) && !b.tx.expired &&
    decide (b.pr.timeOfLastReceiptMs.toNat ≤ b.pr.cumulativeTimeMs.toNat) &&
    (b.sys.fault == decide (b.sys.faultCause ≠ .none))

theorem inv_of_check {s : State} (h : invCheck s = true) : s.Inv := by
  unfold invCheck Block.holds at h
  simp only [Bool.and_eq_true, decide_eq_true_eq, List.all_eq_true, Bool.or_eq_true, Bool.not_eq_true',
    beq_iff_eq] at h
  obtain ⟨⟨⟨⟨⟨⟨⟨⟨⟨⟨⟨⟨⟨h1, h2⟩, h3⟩, h4⟩, ⟨⟨h5, h6⟩, h7⟩, h8⟩, h9⟩, h10⟩, h11⟩, h12⟩, h13⟩, h14⟩, h15⟩, h16⟩, h17⟩ := h
  refine ⟨h1, h2, h3, h4, h5, h6, ⟨h7, h9, h10⟩, ⟨h8, h11, fun h => ?_, fun h => ?_, h14, h15⟩, h16, ?_⟩
  · rcases h12 with h12 | h12
    · rw [h] at h12; cases h12
    · exact h12
  · rcases h13 with h13 | h13
    · rw [h] at h13; cases h13
    · exact h13
  · rw [h17]; exact decide_eq_true_iff

theorem inv_reset : State.reset.Inv := inv_of_check (by decide)
theorem inv_small : (State.resetWith small).Inv := inv_of_check (by decide)
theorem inv_synSent : synSent.Inv := inv_of_check (by decide)
theorem inv_faulted : faulted.Inv := inv_of_check (by decide)

/-- The response to a command. -/
def reply (s : State) (i : Instr) : Option Response := (after s i).resp
/-- The value a register reads (46_register_access.md R280). -/
def reg (s : State) (a : U64) : Option U64 := (reply s (.rdreg a)).map Response.r0

/-! ## Well-formed commands: a term that each check refuses -/

theorem test_wellFormed_refuses_push :
    (Instr.bsPush .outbound (List.replicate (2 ^ 32) 0)).wellFormed = false := by
  simp only [Instr.wellFormed, dataFits, List.length_replicate, decide_eq_false_iff_not]; omega
theorem test_wellFormed_refuses_insert :
    (Instr.raInsert false 0 (List.replicate (2 ^ 32) 0)).wellFormed = false := by
  simp only [Instr.wellFormed, dataFits, List.length_replicate, decide_eq_false_iff_not]; omega
theorem test_wellFormed_refuses_rxRecv :
    (Instr.rxRecv { plain with payload := List.replicate (2 ^ 16) 0 }).wellFormed = false := by
  simp only [Instr.wellFormed, Sd.fits, List.length_replicate, decide_eq_false_iff_not]; omega
theorem test_wellFormed_refuses_txRecv :
    (Instr.txRecv { plain with payload := List.replicate (2 ^ 16) 0 }).wellFormed = false := by
  simp only [Instr.wellFormed, Sd.fits, List.length_replicate, decide_eq_false_iff_not]; omega
theorem test_wellFormed_refuses_prRecv :
    (Instr.prRecv { plain with payload := List.replicate (2 ^ 16) 0 }).wellFormed = false := by
  simp only [Instr.wellFormed, Sd.fits, List.length_replicate, decide_eq_false_iff_not]; omega

/-! ## Decoding: the words of 95_test_vectors.md section 3 and of 30_encoding.md R81 to R83, R86, R92 -/

/-- 30_encoding.md R82 format AB: `sq.wrap 4294967313, 15`. -/
theorem test_decode_sqWrap :
    decode [0x01, 0, 0, 0, 0x11, 0, 0, 0, 1, 0, 0, 0, 0x0F, 0, 0, 0, 0, 0, 0, 0] =
      .command (.sqWrap 4294967313 15) [] := by decide
/-- Format ABC: `sq.unwrap 17, 15, 4294967296`. -/
theorem test_decode_sqUnwrap :
    decode [0x02, 0, 0, 0, 0x11, 0, 0, 0, 0, 0, 0, 0, 0x0F, 0, 0, 0, 0, 0, 0, 0, 0, 0, 0, 0, 1, 0, 0, 0] =
      .command (.sqUnwrap 17 15 4294967296) [] := by decide
/-- R92. -/
theorem test_decode_bsPush :
    decode [0x10, 0x01, 0, 0, 3, 0, 0, 0, 0x63, 0x61, 0x74] =
      .command (.bsPush .outbound [0x63, 0x61, 0x74]) [] := by decide
/-- Program P1, step 1. -/
theorem test_decode_bsPush_in :
    decode [0x10, 0, 0, 0, 1, 0, 0, 0, 0x78] = .command (.bsPush .inbound [0x78]) [] := by decide
/-- Program P3, step 10. -/
theorem test_decode_bsClose : decode [0x11, 0x01, 0, 0] = .command (.bsClose .outbound) [] := by decide
theorem test_decode_bsSeterr : decode [0x12, 0x01, 0, 0] = .command (.bsSeterr .outbound) [] := by decide
/-- Program P1, step 9. -/
theorem test_decode_bsPeek : decode [0x13, 0, 0, 0] = .command (.bsPeek .inbound) [] := by decide
/-- Program P1, step 10. -/
theorem test_decode_bsPop :
    decode [0x14, 0, 0, 0, 0x0A, 0, 0, 0, 0, 0, 0, 0] = .command (.bsPop .inbound 10) [] := by decide
/-- Program P1, step 5. -/
theorem test_decode_raInsert :
    decode [0x20, 0x02, 0, 0, 4, 0, 0, 0, 0, 0, 0, 0, 1, 0, 0, 0, 0x65] =
      .command (.raInsert true 4 [0x65]) [] := by decide
/-- Program P2, step 4. -/
theorem test_decode_rxRecv :
    decode [0x30, 0, 0, 0, 0xED, 3, 0, 0, 0, 0, 0, 0, 0, 0, 2, 0, 2, 0, 0, 0, 0x79, 0x6F] =
      .command (.rxRecv { plain with seqno := 1005, fin := true, payload := [0x79, 0x6F] }) [] := by decide
theorem test_decode_rxSend : decode [0x31, 0, 0, 0] = .command .rxSend [] := by decide
theorem test_decode_txPush : decode [0x40, 0, 0, 0] = .command .txPush [] := by decide
/-- Program P3, step 2. -/
theorem test_decode_txRecv :
    decode [0x41, 0, 0, 0, 0, 0, 0, 0, 0xFF, 0xFF, 0xFF, 0xFF, 0x0A, 0, 0, 0, 8, 0, 0, 0] =
      .command (.txRecv { plain with ackno := 4294967295, window := 10, akv := true }) [] := by decide
/-- Program P3, step 6. -/
theorem test_decode_txTick :
    decode [0x42, 0, 0, 0, 0xE7, 3, 0, 0, 0, 0, 0, 0] = .command (.txTick 999) [] := by decide
theorem test_decode_txEmpty : decode [0x43, 0, 0, 0] = .command .txEmpty [] := by decide
/-- Program P4, step 5. -/
theorem test_decode_prRecv :
    decode [0x50, 0, 0, 0, 0x89, 0x13, 0, 0, 5, 0, 0, 0, 0xE8, 3, 4, 0, 8, 0, 0, 0, 0x70, 0x6F, 0x6E, 0x67] =
      .command (.prRecv { plain with
        seqno := 5001, ackno := 5, window := 1000, akv := true, payload := [0x70, 0x6F, 0x6E, 0x67] }) [] := by
  decide
theorem test_decode_prPush : decode [0x51, 0, 0, 0] = .command .prPush [] := by decide
/-- Program P4, step 6. -/
theorem test_decode_prTick :
    decode [0x52, 0, 0, 0, 0xF4, 1, 0, 0, 0, 0, 0, 0] = .command (.prTick 500) [] := by decide
/-- Program P3, step 5. -/
theorem test_decode_rdreg :
    decode [0x70, 0, 0, 0, 0x43, 0, 0, 0, 0, 0, 0, 0] = .command (.rdreg 0x43) [] := by decide
/-- Every flag of W3 at its bit (R83): RST_S 2, RST_R 4, a reserved bit 5. -/
theorem test_decode_flags :
    decode [0x41, 0, 0, 0, 0, 0, 0, 0, 0, 0, 0, 0, 0, 0, 0, 0, 0x34, 0, 0, 0] =
      .command (.txRecv { plain with rstS := true, rstR := true, rsvd := 1 }) [] := by decide
/-- Vectors E1, E4, E6, E7: an undefined opcode, and must-be-0 bits of CMD. -/
theorem test_decode_rejects :
    decode [0x15, 0, 0, 0] = .undefinedOpcode 0x15 [] ∧
      decode [0x40, 0x01, 0, 0] = .reservedBits .txPush [] ∧
      decode [0x20, 0x01, 0, 0, 0, 0, 0, 0, 0, 0, 0, 0, 0, 0, 0, 0] = .reservedBits .raInsert [] ∧
      decode [0x14, 0x02, 0, 0, 0, 0, 0, 0, 0, 0, 0, 0] = .reservedBits .bsPop [] := by decide
/-- What the host asks of a row: RDREG's, and that the step runs it as the first command. -/
theorem test_tableWord :
    decodeTableWord 32 0x70 = some (.rdreg 0) ∧
      stepped (State.reset.withFetchWord 32 0x70) =
        State.reset.answer (Response.word 0x4D544307) := by decide

/-! ## Responses as bytes: written out from 20_memory.md R63, 30_encoding.md R83 and the rules named -/

/-- 46_register_access.md R280: RDREG 0 is the identification 0x4D544307 of 10_state.md R36. -/
theorem test_bytes_word :
    (after State.reset (.rdreg 0)).responseBytes = some [0x00, 0x07, 0x43, 0x54, 0x4D, 0, 0, 0, 0] := by decide
/-- Section 1.4, step 2: RDATA in index order after R0 = 2; and a rejection (60_exceptions.md R301). -/
theorem test_bytes_data :
    (after (after State.reset (.bsPush .outbound [0x63, 0x61])) (.bsPeek .outbound)).responseBytes =
        some [0x00, 2, 0, 0, 0, 0, 0, 0, 0, 0x63, 0x61] ∧
      (after State.reset (.bsClose .inbound)).responseBytes = some [0x03, 0, 0, 0, 0, 0, 0, 0, 0] := by decide
/-- R195's example: AKV = 1, ACKNO = 1003 = 0x3EB, WINDOW = 63998 = 0xF9FE. -/
theorem test_bytes_descriptor :
    (after (after State.reset (.rxRecv { plain with seqno := 1000, syn := true, payload := [0x48, 0x69] }))
        .rxSend).responseBytes =
      some [0x00, 0, 0, 0, 0, 0, 0, 0, 0,
        0, 0, 0, 0, 0xEB, 3, 0, 0, 0xFE, 0xF9, 0, 0, 8, 0, 0, 0] := by decide

/-! ## Commands: vectors of 95_test_vectors.md section 2, and its scenarios -/

/-- W1, W6. -/
theorem test_sqWrap_drops_high_bits :
    reply State.reset (.sqWrap 4294967313 15) = some (Response.word 32) := by decide
theorem test_sqWrap_operand :
    reply State.reset (.sqWrap 0 4294967296) = some (Response.bare .errOperand) := by decide
/-- U4 and U8. -/
theorem test_sqUnwrap_tie : reply State.reset (.sqUnwrap 0 0 2147483648) = some (Response.word 0) := by
  decide +kernel
theorem test_sqUnwrap_top :
    reply State.reset (.sqUnwrap 0 0 18446744073709551615) = some (Response.word 18446744069414584320) := by
  decide +kernel
/-- B2 and B20. -/
theorem test_bsPush_clips :
    let t := after (State.resetWith small) (.bsPush .outbound [0x61, 0x62, 0x63, 0x64])
    t.resp = some (Response.word 3) ∧ reg t 0x19 = some 3 ∧ reg t 0x1C = some 0 := by decide
theorem test_bsPush_error :
    reply (after State.reset (.bsSeterr .outbound)) (.bsPush .outbound [0x61, 0x62]) =
      some (Response.word 0) := by decide
/-- B4 and B7. -/
theorem test_bsClose :
    let t := after State.reset (.bsPush .outbound [0x61])
    reg (after t (.bsClose .outbound)) 0x1D = some 1 := by decide
theorem test_bsClose_in : reply State.reset (.bsClose .inbound) = some (Response.bare .errOwner) := by decide
/-- B9. -/
theorem test_bsSeterr_in :
    let t := after State.reset (.bsSeterr .inbound)
    reg t 0x15 = some 2 ∧ reg t 0x1D = some 0 := by decide
/-- Section 1.4, step 2. -/
theorem test_bsPeek :
    reply (after State.reset (.bsPush .outbound [0x63, 0x61])) (.bsPeek .outbound) =
      some { status := .ok, r0 := 2, rdata := [0x63, 0x61], rsd := none, emit := [] } := by decide
/-- B21, and B14 with E18. -/
theorem test_bsPop_clamps :
    let t := after (after State.reset (.raInsert false 0 [0x77, 0x78, 0x79, 0x7A])) (.bsPop .inbound 10)
    t.resp = some (Response.word 4) ∧ reg t 0x12 = some 4 := by decide
theorem test_bsPop_faults :
    faulted.resp = some (Response.bare .fault) ∧ reg faulted 0xF0 = some 1 ∧ reg faulted 0xF1 = some 2 := by
  decide
/-- A1 to A3: the newest byte wins. -/
theorem test_raInsert_newest :
    let t := afterAll (State.resetWith small)
      [.raInsert false 2 [0x63, 0x64], .raInsert false 3 [0x58, 0x59], .raInsert false 0 [0x61, 0x62]]
    t.resp = some (Response.word 5) ∧ t.block.bsIn.buf = [0x61, 0x62, 0x63, 0x58, 0x59] ∧
      reg t 0x23 = some 0 := by decide
/-- A10. -/
theorem test_raInsert_range :
    reply State.reset (.raInsert false 18446744073709551615 [0x61]) = some (Response.bare .errOperand) := by
  decide
/-- X3 and X5: a SYN, then a segment at absolute 0. -/
theorem test_rxRecv_syn :
    let t := after State.reset
      (.rxRecv { plain with seqno := 0xFFFFFFFF, syn := true, payload := [0x61, 0x62] })
    reg t 0x31 = some 4294967295 ∧ t.block.bsIn.buf = [0x61, 0x62] ∧
      reg (after t (.rxRecv { plain with seqno := 0xFFFFFFFF, payload := [0x7A] })) 0x11 = some 2 := by decide
/-- X9: RST returns before the SYN is processed. -/
theorem test_rxRecv_rst :
    let t := after State.reset (.rxRecv { syn7 with rstS := true, payload := [0x61] })
    reg t 0x15 = some 2 ∧ reg t 0x30 = some 0 := by decide
/-- X12. -/
theorem test_rxSend_fin :
    reply (after State.reset (.rxRecv { plain with syn := true, fin := true })) .rxSend =
      some (Response.descriptor { plain with ackno := 2, window := 64000, akv := true }) := by decide
/-- Section 1.6, step 2, with one byte: the ackno counts the FIN under CLOSED only. -/
theorem test_rxSend_finAckOn :
    let sd := { plain with seqno := 1000, syn := true, fin := true, payload := [0x48] }
    reply (after State.reset (.rxRecv sd)) .rxSend =
        some (Response.descriptor { plain with ackno := 1002, window := 63999, akv := true }) ∧
      reply (after (State.resetWith finOnClosed) (.rxRecv sd)) .rxSend =
        some (Response.descriptor { plain with ackno := 1003, window := 63999, akv := true }) := by decide
/-- T6, with MAX_PAYLOAD_SIZE = 2. -/
theorem test_txPush_segments :
    let t := afterAll (State.resetWith { Config.default with maxPayload := 2 })
      [.txPush, .txRecv { ack1 with window := 100 }, .bsPush .outbound [0x61, 0x62, 0x63, 0x64, 0x65], .txPush]
    t.resp = some (Response.emitted
        [{ plain with seqno := 1, payload := [0x61, 0x62] }, { plain with seqno := 3, payload := [0x63, 0x64] },
          { plain with seqno := 5, payload := [0x65] }]) ∧ reg t 0x41 = some 6 ∧ reg t 0x49 = some 3 := by decide
/-- T3 and T4: the FIN waits for room, then goes alone. -/
theorem test_txPush_fin :
    let t := afterAll State.reset
      [.bsPush .outbound [0x61, 0x62, 0x63], .bsClose .outbound, .txPush, .txRecv { ack1 with window := 3 }, .txPush]
    t.resp = some (Response.emitted [{ plain with seqno := 1, payload := [0x61, 0x62, 0x63] }]) ∧
      reply (after t (.txRecv { ack1 with ackno := 4, window := 1 })) .txPush =
        some (Response.emitted [{ plain with seqno := 4, fin := true }]) := by decide
/-- As T18, an ack beyond what was sent; and section 1.7 step 4. -/
theorem test_txRecv_beyond :
    let t := after synSent (.txRecv { ack1 with ackno := 8, window := 9 })
    reg t 0x42 = some 0 ∧ reg t 0x44 = some 9 ∧ reg t 0x47 = some 3 := by decide
theorem test_txRecv_acks :
    let t := after synSent (.txRecv ack1)
    reg t 0x42 = some 1 ∧ reg t 0x44 = some 1000 ∧ reg t 0x47 = some 2 ∧ reg t 0x49 = some 0 := by decide
/-- T30 with section 1.7 step 3; section 1.8 steps 4 and 5. -/
theorem test_txTick_fires :
    let t := after synSent (.txTick 1000)
    t.resp = some (Response.emitted [{ plain with syn := true }]) ∧ reg t 0x46 = some 2000 ∧
      reg t 0x48 = some 1 ∧ reg t 0x45 = some 0 := by decide
theorem test_txTick_zero_window :
    let t := afterAll synSent [.txRecv { ack1 with window := 0 }, .bsPush .outbound [0x61, 0x62], .txPush, .txTick 1000]
    t.resp = some (Response.emitted [{ plain with seqno := 1, payload := [0x61] }]) ∧ reg t 0x46 = some 1000 ∧
      reg t 0x48 = some 0 := by decide
/-- T10. -/
theorem test_txEmpty :
    reply (after (after State.reset (.bsSeterr .outbound)) .txPush) .txEmpty =
      some (Response.descriptor { plain with seqno := 1, rstS := true }) := by decide
/-- P-2 and P-10. -/
theorem test_prRecv_replies :
    reply State.reset (.prRecv syn7) =
      some (Response.emitted [{ plain with ackno := 8, window := 64000, akv := true }]) := by decide
/-- R251, R252, R254: a FIN before any SYN occupies sequence space, so a reply is owed, without an ackno; with
RST it reflects the error. The receiver ignores the first (43_receiver.md R192 (c)). -/
theorem test_prRecv_before_syn :
    reply State.reset (.prRecv { plain with fin := true }) =
        some (Response.emitted [{ plain with window := 64000 }]) ∧
      reg (after State.reset (.prRecv { plain with fin := true })) 0x30 = some 0 ∧
      reply State.reset (.prRecv { plain with fin := true, rstS := true }) =
        some (Response.emitted [{ plain with window := 64000, rstR := true }]) := by decide
theorem test_prRecv_linger :
    let t := after (State.resetWith finOnClosed) (.prRecv { syn7 with fin := true, payload := [0x61, 0x62] })
    t.resp = some (Response.emitted [{ plain with ackno := 11, window := 63998, akv := true }]) ∧
      reg t 0x50 = some 1 := by decide
/-- P-7. -/
theorem test_prPush :
    let t := afterAll State.reset [.prRecv syn7, .prRecv { plain with seqno := 8, rstS := true }]
    reply t .prPush = some (Response.emitted
      [{ plain with syn := true, ackno := 8, window := 64000, akv := true, rstR := true }]) := by decide
/-- P-14, and P-12 with P-13. -/
theorem test_prTick_retransmits :
    let t := after synSent (.prTick 1000)
    t.resp = some (Response.emitted [{ plain with syn := true, window := 64000 }]) ∧ reg t 0x46 = some 2000 ∧
      reg t 0x51 = some 1000 := by decide
theorem test_prTick_overflows :
    reply (after State.reset (.prTick 18446744073709551615)) (.prTick 1) = some (Response.bare .fault) := by
  decide
/-- G3, G9. -/
theorem test_rdreg_flags :
    reg (State.resetWith { Config.default with finAckOn := .closed, popPolicy := .fault }) 0x01 = some 7 := by
  decide
theorem test_rdreg_no_peer :
    reply (State.resetWith noPeer) (.rdreg 0x50) = some (Response.bare .errReg) := by decide

/-! ## Priority, the fault state and reset -/

/-- E2, E5 and E15: check 3 before 4, check 4 before 6, and check 1 before 2. -/
theorem test_priority :
    (stepped ((State.resetWith noPeer).setPort
        [0x50, 0x04, 0, 0, 0, 0, 0, 0, 0, 0, 0, 0, 0, 0, 0, 0, 0, 0, 0, 0])).resp =
      some (Response.bare .errNopeer) ∧
    (stepped ((State.resetWith noPeer).setPort [0x10, 0x04, 0, 0, 1, 0, 0, 0, 0x61])).resp =
      some (Response.bare .errRsvd) ∧
    (stepped (faulted.setPort [0xE0, 0, 0, 0])).resp = some (Response.bare .fault) := by decide
/-- E11. -/
theorem test_reserved_descriptor :
    reply State.reset (.rxRecv { plain with rsvd := 1 }) = some (Response.bare .errRsvd) := by decide
/-- 60_exceptions.md R304, cause 3, from a state no run reaches: RA.next_index below IN.bytes_pushed (R27 (c)). -/
theorem test_invariant_fault :
    let bad := State.reset.setBlock (State.reset.block.setIn
      { State.reset.block.bsIn with buf := [0x61], bytesPushed := 1 })
    (after bad (.bsSeterr .inbound)).block.sys = { fault := true, faultCause := .invariant } := by decide
/-- E19: reset leaves the fault state. -/
theorem test_reset_leaves_fault :
    stepped { faulted with resetIn := some Config.default } = State.reset := by decide

/-! ## Witnesses: concrete values that meet the hypotheses of each statement, clause by clause -/

theorem witness_EncodedCommandsDecode : (Instr.bsPush .outbound [0x61]).wellFormed = true := by decide

theorem witness_DecodedCommandsReencode : ∃ i rest, decode [0x13, 0, 0, 0, 0xAA] = .command i rest :=
  ⟨.bsPeek .inbound, [0xAA], by decide⟩

theorem witness_TransactionLengthIsTheFormats :
    (decode [0x13, 0, 0, 0, 0xAA]).opcode ≠ none ∧ (decode [0x40, 0x01, 0, 0]).opcode ≠ none := by decide

theorem witness_CmdWordSelectsOneRow :
    Opcode.selects .bsPeek 0x113 = true ∧
      take32 [0x13, 0x01, 0, 0] = some (0x113, []) ∧ decode [0x13, 0x01, 0, 0] = .command (.bsPeek .outbound) [] ∧
      take32 [0x40, 0x01, 0, 0] = some (0x140, []) ∧ decode [0x40, 0x01, 0, 0] = .reservedBits .txPush [] ∧
      take32 [0xE0, 0, 0, 0] = some (0xE0, []) ∧ decode [0xE0, 0, 0, 0] = .undefinedOpcode 0xE0 [] := by decide

theorem witness_UndefinedOpcodesAreRefused :
    let s := State.reset.setPort [0x71, 0, 0, 0]
    s.resetIn = none ∧ take32 s.port = some (0x71, []) ∧ Opcode.ofCode ((0x71 : U32).extractLsb' 0 8) = none ∧
      s.block.sys.fault = false := by decide

theorem witness_StepRunsTheDecodedCommand :
    let s := State.reset.setPort [0x40, 0, 0, 0]
    let w := State.reset.setPort [0x40, 0, 0]
    s.resetIn = none ∧ decode s.port = .command .txPush [] ∧ w.resetIn = none ∧ decode w.port = .incomplete := by
  decide

theorem witness_StepRunsTheEncodedCommand :
    let s := State.reset.setPort (encode (.txTick 5) ++ [0x40])
    s.resetIn = none ∧ (Instr.txTick 5).wellFormed = true ∧ s.port = encode (.txTick 5) ++ [0x40] := by decide

/-- Each of the eight checks fails first somewhere, and none does somewhere. -/
theorem witness_FirstFailedCheckIsReported :
    let s (c : Config) (bs : List Byte) : State := (State.resetWith c).setPort bs
    let first (t : State) : Option Status := firstFailed t.block (decode t.port)
    (s noPeer [0x40, 0, 0, 0]).resetIn = none ∧ decode [0x40, 0, 0, 0] ≠ .incomplete ∧
      first (faulted.setPort [0x40, 0, 0, 0]) = some .fault ∧ first (s noPeer [0xE0, 0, 0, 0]) = some .errOpcode ∧
      first (s noPeer [0x51, 0, 0, 0]) = some .errNopeer ∧ first (s noPeer [0x40, 4, 0, 0]) = some .errRsvd ∧
      first (s noPeer (encode (.txRecv { plain with rsvd := 1 }))) = some .errRsvd ∧
      first (s noPeer (encode (.bsPop .outbound 1))) = some .errOwner ∧
      first (s noPeer (encode (.sqWrap 0 4294967296))) = some .errOperand ∧
      first (s noPeer (encode (.rdreg 0x50))) = some .errReg ∧ first (s noPeer [0x40, 0, 0, 0]) = none := by decide

/-- An answer with a descriptor to send, and one with a value in R0. -/
theorem witness_ResponseBytesReadBack :
    (∃ t r, State.reset.Inv ∧ exec .txPush State.reset = .next t ∧ t.resp = some r ∧ r.emit ≠ []) ∧
      ∃ t r, exec (.rdreg 0) State.reset = .next t ∧ t.resp = some r ∧ r.r0 ≠ 0 :=
  ⟨⟨synSent, _, inv_reset, ran (by decide), rfl, by decide⟩, ⟨_, _, ran (by decide), rfl, by decide⟩⟩

theorem witness_ResetGivesTheResetValues :
    let s := { faulted with resetIn := some small }
    s.resetIn = some small ∧ small.legal = true := by decide

/-- The least INITIAL_RTO of R10, and the one below it. -/
theorem witness_ResetTakesLegalConfigurations :
    1 ≤ ({ small with initialRto := 1 } : Config).initialRto.toNat ∧
      ({ small with initialRto := 0 } : Config).initialRto.toNat = 0 := by decide

theorem witness_ResetMeetsTheInvariant : small.legal = true := by decide

theorem witness_StepKeepsTheInvariant :
    ∃ s t : State, s.Inv ∧ step s = .next t ∧ t.block ≠ s.block :=
  ⟨State.reset.setPort [0x40, 0, 0, 0], stepped (State.reset.setPort [0x40, 0, 0, 0]),
    inv_of_check (by decide), stepRan (by decide), by decide⟩

/-- The premise holds where the fault was there before (no run reaches such a state). -/
theorem witness_InvariantFaultNeverHappens :
    ∃ s t : State, s.Inv ∧ step s = .next t ∧ t.block.sys.faultCause = .invariant :=
  let s := State.reset.enterFault .invariant
  ⟨s, s, inv_of_check (by decide), stepRan (by decide), by decide⟩

theorem witness_NextIndexTracksBytesPushed :
    ∃ s t : State, s.Inv ∧
      (s.block.bsIn.closed = false → s.block.bsIn.error = false →
        s.block.ra.nextIndex = s.block.bsIn.bytesPushed) ∧
      step s = .next t ∧ t.block.bsIn.closed = false ∧ t.block.bsIn.error = false ∧
      t.block.ra.nextIndex = 1 :=
  let s := State.reset.setPort (encode (.raInsert false 0 [0x61]))
  ⟨s, stepped s, inv_of_check (by decide), by decide, stepRan (by decide), by decide, by decide, by decide⟩

theorem witness_CapacityLaw : (State.resetWith small).Inv := inv_small

theorem witness_FaultStateAnswersFault : faulted.block.sys.fault = true := by decide

theorem witness_FaultEntryDiscardsEffects :
    ∃ t r, exec (.bsPop .inbound 1) (State.resetWith popFaults) = .next t ∧
      (State.resetWith popFaults).block.sys.fault = false ∧ t.block.sys.fault = true ∧ t.resp = some r ∧
      r.status = .fault :=
  ⟨faulted, Response.bare .fault, ran (by decide), by decide, by decide, by decide, by decide⟩

theorem witness_RejectedCommandsHaveNoEffect :
    ∃ (s t : State) (r : Response), s.resetIn = none ∧ decode s.port ≠ .incomplete ∧ step s = .next t ∧
      t.resp = some r ∧ r.status ≠ .ok ∧ r.status ≠ .fault ∧ transactionLength s.port = none :=
  let s := State.reset.setPort [0xE0, 0, 0, 0, 0x40]
  ⟨s, stepped s, Response.bare .errOpcode, by decide, by decide, stepRan (by decide), by decide, by decide, by decide, by decide⟩

theorem witness_WithoutPeerNoPeerCommandsOrRegisters :
    (State.resetWith noPeer).block.cfg.hasPeer = false ∧ (State.resetWith noPeer).block.sys.fault = false := by
  decide

/-- Flags that hold before, one command, and the two that it clears. -/
theorem witness_FlagsAreClearedOnlyAsListed :
    (∃ t, exec (.txRecv ack1) synSent = .next t ∧ synSent.block.tx.timerRunning = true ∧
      t.block.tx.timerRunning = false) ∧
    (let sd := { syn7 with fin := true }
     ∃ t, exec (.prRecv sd) State.reset = .next t ∧ State.reset.block.pr.linger = true ∧
      t.block.pr.linger = false) ∧
    (let sd := { syn7 with fin := true }
     let s := afterAll State.reset
      [.bsSeterr .inbound, .bsSeterr .outbound, .bsClose .outbound, .rxRecv sd, .txPush, .txRecv ack1, .txPush]
     s.block.bsIn.closed = true ∧ s.block.bsOut.closed = true ∧ s.block.bsIn.error = true ∧
      s.block.bsOut.error = true ∧ s.block.rx.synSeen = true ∧ s.block.ra.endIndex ≠ none ∧
      s.block.tx.synSent = true ∧ s.block.tx.finSent = true) ∧
    faulted.block.sys.fault = true :=
  ⟨⟨after synSent (.txRecv ack1), ran (by decide), by decide, by decide⟩,
    ⟨after State.reset (.prRecv { syn7 with fin := true }), ran (by decide), by decide, by decide⟩, by decide, by decide⟩

/-- Each flag is set by some command. -/
theorem witness_FlagsAreSetOnlyAsListed :
    let t (i : Instr) : Block := (after State.reset i).block
    let b := State.reset.block
    (b.bsOut.closed, (t (.bsClose .outbound)).bsOut.closed) = (false, true) ∧
      (b.bsIn.closed, (t (.raInsert true 0 [])).bsIn.closed) = (false, true) ∧
      (b.bsIn.error, (t (.rxRecv { plain with rstS := true })).bsIn.error) = (false, true) ∧
      (b.bsOut.error, (t (.txRecv { plain with rstR := true })).bsOut.error) = (false, true) ∧
      (b.rx.synSeen, (t (.rxRecv syn7)).rx.synSeen) = (false, true) ∧
      (b.ra.endIndex, (t (.raInsert true 5 [])).ra.endIndex) = (none, some 5) ∧
      (b.tx.timerRunning, (t .txPush).tx.timerRunning) = (false, true) ∧
      (b.tx.synSent, (t .txPush).tx.synSent) = (false, true) ∧
      (let s := afterAll State.reset [.bsClose .outbound, .txPush, .txRecv ack1]
       (s.block.tx.finSent, (after s .txPush).block.tx.finSent) = (false, true)) ∧
      ((State.resetWith popFaults).block.sys.fault, faulted.block.sys.fault) = (false, true) := by decide

theorem witness_ConfigurationNeverChanges :
    let s := (after State.reset (.rxRecv syn7)).setPort (encode (.rxRecv { syn7 with seqno := 100 }))
    ∃ t, s.resetIn = none ∧ step s = .next t ∧ s.block.rx.synSeen = true ∧ t.block.rx.zeroPoint = 7 :=
  ⟨stepped ((after State.reset (.rxRecv syn7)).setPort (encode (.rxRecv { syn7 with seqno := 100 }))),
    by decide, stepRan (by decide), by decide, by decide⟩

theorem witness_CountersNeverDecrease :
    ∃ s t : State, s.Inv ∧ s.resetIn = none ∧ step s = .next t ∧ s.block.tx.bytesSent < t.block.tx.bytesSent :=
  ⟨State.reset.setPort [0x40, 0, 0, 0], stepped (State.reset.setPort [0x40, 0, 0, 0]),
    inv_of_check (by decide), by decide, stepRan (by decide), by decide⟩

theorem witness_QueriesChangeNoState :
    ∀ i ∈ [.rdreg 0x99, .bsPeek .inbound, .rxSend, .txEmpty, .sqWrap 1 2, .sqUnwrap 1 2 3],
      Instr.isQuery i = true := by decide

theorem witness_CommandsWriteOnlyTheirState : ∃ t, exec .txPush State.reset = .next t := ⟨synSent, ran (by decide)⟩

theorem witness_GiveUpIsOnlyAStatusBit :
    (∀ a, Instr.txTick 1000 ≠ .rdreg a) ∧ ∃ t, exec (.txTick 1000) synSent = .next t :=
  ⟨nofun, after synSent (.txTick 1000), ran (by decide)⟩

/-- B at the two sides of 2^32. -/
theorem witness_SqWrapResult :
    State.reset.block.sys.fault = false ∧ (4294967295 : U64).toNat < 2 ^ 32 ∧ 2 ^ 32 ≤ (4294967296 : U64).toNat := by
  decide

theorem witness_SqUnwrapNearestCandidate :
    State.reset.block.sys.fault = false ∧ (4294967295 : U64).toNat < 2 ^ 32 ∧ 2 ^ 32 ≤ (4294967296 : U64).toNat := by
  decide

theorem witness_WrapUnwrapRoundTrip :
    State.reset.block.sys.fault = false ∧ (4294967295 : U64).toNat < 2 ^ 32 := by decide

/-- OUT with `pushed` bytes ever pushed, all popped, the SYN sent before them, and all acknowledged. -/
def drained (pushed : U64) : State :=
  let b := (State.resetWith small).block
  (State.resetWith small).setBlock
    { b with
      bsOut := { b.bsOut with bytesPushed := pushed, bytesPopped := pushed }
      tx := { b.tx with bytesSent := pushed + 1, bytesAcked := pushed + 1, synSent := true } }

theorem inv_drained : (drained 18446744073709551614).Inv := inv_of_check (by decide)

/-- A DLEN at MAX_DATA_LEN and one above it; a closed and an erroneous OUT; a push to the last value of
OUT.bytes_pushed, and one past it. -/
theorem witness_BsPushResult :
    (State.resetWith small).Inv ∧ (drained 18446744073709551614).Inv ∧
      (let s := drained 18446744073709551614
       let out := s.block.bsOut
       let k (d : List Byte) := min d.length (out.capacity.toNat - (out.bytesPushed.toNat - out.bytesPopped.toNat))
       s.block.sys.fault = false ∧ out.closed = false ∧ out.error = false ∧
        ([0, 0, 0, 0, 0, 0] : List Byte).length ≤ s.block.cfg.maxDataLen.toNat ∧
        s.block.cfg.maxDataLen.toNat < ([0, 0, 0, 0, 0, 0, 0] : List Byte).length ∧
        out.bytesPushed.toNat + k [0] < 2 ^ 64 ∧ 2 ^ 64 ≤ out.bytesPushed.toNat + k [0, 0]) ∧
      (after (State.resetWith small) (.bsClose .outbound)).Inv ∧
      (after (State.resetWith small) (.bsClose .outbound)).block.bsOut.closed = true ∧
      (after (State.resetWith small) (.bsSeterr .outbound)).Inv ∧
      (after (State.resetWith small) (.bsSeterr .outbound)).block.bsOut.error = true :=
  ⟨inv_small, inv_drained, by decide, inv_of_check (by decide), by decide, inv_of_check (by decide), by decide⟩

theorem witness_BsCloseResult : State.reset.Inv ∧ State.reset.block.sys.fault = false := ⟨inv_reset, by decide⟩

theorem witness_BsSeterrResult : State.reset.Inv ∧ State.reset.block.sys.fault = false := ⟨inv_reset, by decide⟩

theorem witness_BsPeekResult : State.reset.block.sys.fault = false := by decide

/-- A pop of what is buffered under FAULT and one byte more; and one byte more under CLAMP. -/
theorem witness_BsPopResult :
    let f := after (State.resetWith popFaults) (.raInsert false 0 [0x61])
    let c := after State.reset (.raInsert false 0 [0x61])
    f.Inv ∧ c.Inv ∧ f.block.sys.fault = false ∧ (1 : U64).toNat ≤ f.block.bsIn.buf.length ∧
      f.block.bsIn.buf.length < (2 : U64).toNat ∧ f.block.cfg.popPolicy = .fault ∧
      c.block.sys.fault = false ∧ c.block.bsIn.buf.length < (2 : U64).toNat ∧ c.block.cfg.popPolicy = .clamp :=
  ⟨inv_of_check (by decide), inv_of_check (by decide), by decide⟩

theorem witness_PortOwnership :
    ∃ t r, exec (.bsClose .inbound) State.reset = .next t ∧ State.reset.block.sys.fault = false ∧
      t.resp = some r ∧ r.status = .errOwner :=
  ⟨after State.reset (.bsClose .inbound), Response.bare .errOwner, ran (by decide), by decide, by decide, by decide⟩

/-- The ends of the operand ranges: DLEN 6 and 7 of 6, and A + DLEN at 2^64 − 1 and at 2^64. -/
theorem witness_RaInsertResult :
    (State.resetWith small).Inv ∧
      (let s := State.resetWith small
       s.block.sys.fault = false ∧ ([0, 0, 0, 0, 0, 0] : List Byte).length ≤ s.block.cfg.maxDataLen.toNat ∧
        s.block.cfg.maxDataLen.toNat < ([0, 0, 0, 0, 0, 0, 0] : List Byte).length ∧
        (18446744073709551614 : U64).toNat + ([0] : List Byte).length ≤ 2 ^ 64 - 1 ∧
        2 ^ 64 - 1 < (18446744073709551615 : U64).toNat + ([0] : List Byte).length) :=
  ⟨inv_small, by decide⟩

/-- Section 1.2 with a shorter string: overlapping, repeated, out of order. -/
theorem witness_ReassemblyRoundTrip :
    let str : List Byte := [0x61, 0x62, 0x63]
    let pieces : List (Bool × U64 × List Byte) :=
      [(true, 1, [0x62, 0x63]), (false, 0, [0x61, 0x62]), (false, 0, [0x61, 0x62])]
    small.legal = true ∧ str.length ≤ small.capIn.toNat ∧
      (∀ p ∈ pieces, p.2.2.length ≤ small.maxDataLen.toNat ∧ p.2.1.toNat + p.2.2.length ≤ str.length ∧
        p.2.2 = (str.drop p.2.1.toNat).take p.2.2.length ∧
        (p.1 = true → p.2.1.toNat + p.2.2.length = str.length)) ∧
      (∀ k, k < str.length → ∃ p ∈ pieces, p.2.1.toNat ≤ k ∧ k < p.2.1.toNat + p.2.2.length) := by
  decide

/-- IN after `pushed` bytes, all popped, with the SYN seen at zero point 0 or not. -/
def longRun (pushed : U64) (synSeen : Bool) : State :=
  let b := (State.resetWith small).block
  (State.resetWith small).setBlock
    { b with
      bsIn := { b.bsIn with bytesPushed := pushed, bytesPopped := pushed }
      ra := { b.ra with nextIndex := pushed }
      rx := { synSeen := synSeen, zeroPoint := 0 } }

theorem inv_longRun : (longRun 18446744073709551613 true).Inv ∧ (longRun 18446744073709551615 false).Inv :=
  ⟨inv_of_check (by decide), inv_of_check (by decide)⟩

/-- R112 (b): at the checkpoint 2^64 a first SYN is at 2^64 − 2^32, the last 64-bit candidate, which was
delivered long ago. -/
theorem test_rxRecv_at_the_end :
    let t := after (longRun 18446744073709551615 false) (.rxRecv { syn7 with payload := [0x61] })
    unwrap 7 7 (2 ^ 64) = 2 ^ 64 - 2 ^ 32 ∧ t.resp = some Response.done ∧
      t.block.rx = { synSeen := true, zeroPoint := 7 } ∧ t.block.bsIn.buf = [] ∧ t.block.ra.pending = [] := by
  decide +kernel

/-- Each clause: an RST; no SYN yet; a segment at absolute 0 (X5); a delivered one (X6). -/
theorem witness_RxRecvResult :
    let s := after State.reset (.rxRecv { plain with seqno := 0xFFFFFFFF, syn := true, payload := [0x61, 0x62] })
    let at0 := unwrap 0xFFFFFFFF s.block.rx.zeroPoint (s.block.bsIn.bytesPushed.toNat + 1)
    let next := unwrap 2 s.block.rx.zeroPoint (s.block.bsIn.bytesPushed.toNat + 1)
    State.reset.Inv ∧ s.Inv ∧ s.block.sys.fault = false ∧ plain.rsvd = 0 ∧
      plain.payload.length ≤ s.block.cfg.maxDataLen.toNat ∧ ({ plain with rstS := true } : Sd).rstS = true ∧
      State.reset.block.rx.synSeen = false ∧ plain.syn = false ∧ s.block.rx.synSeen = true ∧ at0 = 0 ∧ next = 3 :=
  ⟨inv_reset, inv_of_check (by decide), by decide⟩

/-- The drop by length, at its boundary: at stream index 2^64 − 2 one byte is handed on and two are dropped. -/
theorem witness_RxRecvResult_overflow :
    let s := longRun 18446744073709551613 true
    let a := unwrap 0xFFFFFFFF s.block.rx.zeroPoint (s.block.bsIn.bytesPushed.toNat + 1)
    s.Inv ∧ s.block.sys.fault = false ∧ s.block.rx.synSeen = true ∧
      ([0x61, 0x62] : List Byte).length ≤ s.block.cfg.maxDataLen.toNat ∧
      a - 1 = 2 ^ 64 - 2 ∧ ¬ 2 ^ 64 - 1 < a - 1 + ([0x61] : List Byte).length ∧
      2 ^ 64 - 1 < a - 1 + ([0x61, 0x62] : List Byte).length :=
  ⟨inv_longRun.1, by decide +kernel⟩

theorem witness_RxSendResult : State.reset.block.sys.fault = false := by decide

theorem witness_TxPushResult :
    State.reset.Inv ∧ State.reset.block.sys.fault = false ∧ State.reset.block.tx.rightEdge < 2 ^ 64 :=
  ⟨inv_reset, by decide, by decide⟩

/-- `drained` with one more byte in OUT, so that TX.bytes_sent is at its last value before the segment. -/
def brimful : State :=
  let s := drained 18446744073709551613
  let s := s.setBlock (s.block.setOut { s.block.bsOut with buf := [0x61, 0x62], bytesPushed := 18446744073709551615 })
  s.setBlock (s.block.setTx { s.block.tx with windowSize := 2 })

theorem inv_brimful : brimful.Inv := inv_of_check (by decide)

/-- Both clauses: from reset the SYN is sent and the loop exits; with TX.bytes_sent at 2^64 − 2, two bytes
overflow. -/
theorem witness_TxPushOverflow :
    (∃ ms b, sends State.reset.block ms b ∧ nextSegment b = none) ∧
      brimful.Inv ∧ brimful.block.sys.fault = false ∧ sends brimful.block [] brimful.block ∧
      ∃ sm, nextSegment brimful.block = some sm ∧ 2 ^ 64 ≤ brimful.block.tx.bytesSent.toNat + sm.seqLen := by
  refine ⟨⟨[{ seqno := 0, syn := true, payload := [], fin := false, rst := false }], synSent.block, ?_, by decide⟩,
    inv_brimful, by decide, rfl,
    { seqno := 18446744073709551614, syn := false, payload := [0x61, 0x62], fin := false, rst := false },
    by decide, by decide⟩
  exact ⟨by decide, by decide, rfl⟩

/-- T5: the data and the FIN in one segment. -/
theorem witness_TxPushSegments :
    let s := afterAll State.reset
      [.txPush, .txRecv { ack1 with window := 4 }, .bsPush .outbound [0x61, 0x62, 0x63], .bsClose .outbound]
    ∃ t r, s.Inv ∧ s.block.sys.fault = false ∧ exec .txPush s = .next t ∧ t.resp = some r ∧ r.status = .ok ∧
      r.emit = [{ plain with seqno := 1, fin := true, payload := [0x61, 0x62, 0x63] }] :=
  let s := afterAll State.reset
    [.txPush, .txRecv { ack1 with window := 4 }, .bsPush .outbound [0x61, 0x62, 0x63], .bsClose .outbound]
  ⟨after s .txPush, Response.emitted [{ plain with seqno := 1, fin := true, payload := [0x61, 0x62, 0x63] }],
    inv_of_check (by decide), by decide, ran (by decide), by decide, by decide, by decide⟩

/-- An RST; an ack of nothing new; an ack of all that was sent. -/
theorem witness_TxRecvResult :
    synSent.Inv ∧ synSent.block.sys.fault = false ∧ ack1.rsvd = 0 ∧
      ack1.payload.length ≤ synSent.block.cfg.maxDataLen.toNat ∧ ({ plain with rstR := true } : Sd).rstR = true ∧
      ack1.rstR = false ∧ ack1.akv = true ∧
      (let tx := synSent.block.tx
       unwrap 0 tx.zeroPoint tx.bytesAcked.toNat = 0 ∧ tx.bytesAcked.toNat = 0 ∧
        unwrap ack1.ackno tx.zeroPoint tx.bytesAcked.toNat = 1 ∧ tx.bytesSent.toNat = 1) :=
  ⟨inv_synSent, by decide⟩

/-- The sender after the SYN with its RTO and its count at the last values that double and count, and past
them. -/
def worn (rto retx : U64) : State :=
  synSent.setBlock (synSent.block.setTx { synSent.block.tx with rto := rto, consecutiveRetx := retx })

/-- Every clause of TX.TICK at a boundary: one ms short of the RTO, at it, with a window of 0 and without,
and each of the three overflows. -/
theorem witness_TxTickResult :
    synSent.Inv ∧ synSent.block.sys.fault = false ∧
      (synSent.block.tx.timerElapsed.toNat + (999 : U64).toNat < synSent.block.tx.rto.toNat) ∧
      (synSent.block.tx.rto.toNat ≤ synSent.block.tx.timerElapsed.toNat + (1000 : U64).toNat ∧
        synSent.block.tx.timerRunning = true ∧ synSent.block.tx.windowSize ≠ 0) ∧
      (let z := afterAll synSent [.txRecv { ack1 with window := 0 }, .bsPush .outbound [0x61], .txPush]
       z.Inv ∧ z.block.tx.windowSize = 0 ∧ z.block.tx.timerRunning = true) ∧
      (worn 9223372036854775807 0).Inv ∧ 2 * (9223372036854775807 : U64).toNat < 2 ^ 64 ∧
      (worn 9223372036854775808 0).Inv ∧ 2 ^ 64 ≤ 2 * (9223372036854775808 : U64).toNat ∧
      (worn 1000 18446744073709551615).Inv ∧ 2 ^ 64 ≤ (18446744073709551615 : U64).toNat + 1 ∧
      (after State.reset (.txTick 1)).Inv ∧
      2 ^ 64 ≤ (after State.reset (.txTick 1)).block.tx.timerElapsed.toNat + (18446744073709551615 : U64).toNat :=
  ⟨inv_synSent, by decide, by decide, by decide, ⟨inv_of_check (by decide), by decide, by decide⟩,
    inv_of_check (by decide), by decide, inv_of_check (by decide), by decide, inv_of_check (by decide), by decide,
    inv_of_check (by decide), by decide⟩

theorem witness_TickOfZeroNeverFires : synSent.Inv ∧ synSent.block.sys.fault = false := ⟨inv_synSent, by decide⟩

theorem witness_TxEmptyResult : synSent.block.sys.fault = false := by decide

theorem witness_RetransmissionBackoff : ({ small with initialRto := 1 } : Config).legal = true := by decide

theorem witness_PrRecvResult :
    State.reset.Inv ∧ State.reset.block.sys.fault = false ∧ State.reset.block.cfg.hasPeer = true ∧ syn7.rsvd = 0 ∧
      syn7.payload.length ≤ State.reset.block.cfg.maxDataLen.toNat ∧ State.reset.block.active = true :=
  ⟨inv_reset, by decide⟩

/-- Each way to be inactive: an error on IN, an error on OUT, and a clean end with the linger rule off, or with
10 · INITIAL_RTO ms exactly since the last receipt. -/
theorem witness_PrRecvDroppedWhenInactive :
    let ended (linger : Bool) (now : U64) : Block :=
      { State.reset.block with
        bsIn := { State.reset.block.bsIn with closed := true }
        bsOut := { State.reset.block.bsOut with closed := true }
        pr := { linger := linger, cumulativeTimeMs := now, timeOfLastReceiptMs := 0 } }
    let gone (b : Block) : Bool :=
      decide (b.tx.bytesSent = b.tx.bytesAcked) && b.bsOut.closed && b.bsIn.closed &&
        decide (b.bsOut.bytesPushed = b.bsOut.bytesPopped) &&
        (!b.pr.linger || decide (10 * b.cfg.initialRto.toNat + b.pr.timeOfLastReceiptMs.toNat ≤
          b.pr.cumulativeTimeMs.toNat))
    (after State.reset (.bsSeterr .inbound)).block.bsIn.error = true ∧
      (after State.reset (.bsSeterr .outbound)).block.bsOut.error = true ∧
      gone (ended false 0) = true ∧ gone (ended true 10000) = true ∧ gone (ended true 9999) = false ∧
      (ended true 0).cfg.hasPeer = true ∧ (ended true 0).sys.fault = false ∧ plain.rsvd = 0 ∧
      plain.payload.length ≤ (ended true 0).cfg.maxDataLen.toNat := by decide

theorem witness_PrPushResult :
    State.reset.Inv ∧ State.reset.block.sys.fault = false ∧ State.reset.block.cfg.hasPeer = true ∧
      State.reset.block.tx.rightEdge < 2 ^ 64 := ⟨inv_reset, by decide, by decide, by decide⟩

/-- Both clauses, as for TX.PUSH. -/
theorem witness_PrPushOverflow :
    State.reset.block.cfg.hasPeer = true ∧ (∃ ms b, sends State.reset.block ms b ∧ nextSegment b = none) ∧
      brimful.Inv ∧ brimful.block.sys.fault = false ∧ brimful.block.cfg.hasPeer = true ∧
      sends brimful.block [] brimful.block ∧
      ∃ sm, nextSegment brimful.block = some sm ∧ 2 ^ 64 ≤ brimful.block.tx.bytesSent.toNat + sm.seqLen :=
  ⟨by decide, witness_TxPushOverflow.1, inv_brimful, by decide, by decide, rfl, witness_TxPushOverflow.2.2.2.2⟩

/-- A tick that fires, and one ms that carries the peer's clock past 2^64 − 1 (P-13). -/
theorem witness_PrTickResult :
    let late := after State.reset (.prTick 18446744073709551615)
    synSent.Inv ∧ late.Inv ∧ synSent.block.sys.fault = false ∧ synSent.block.cfg.hasPeer = true ∧
      late.block.sys.fault = false ∧ late.block.cfg.hasPeer = true ∧
      synSent.block.pr.cumulativeTimeMs.toNat + (1000 : U64).toNat < 2 ^ 64 ∧
      2 ^ 64 ≤ late.block.pr.cumulativeTimeMs.toNat + (1 : U64).toNat :=
  ⟨inv_synSent, inv_of_check (by decide), by decide⟩

/-- The clock changes under PR.TICK, and the receipt time under a PR.RECV after it. -/
theorem witness_PeerTimeKeeping :
    let s := after State.reset (.prTick 5)
    (∃ t, exec (.prTick 5) State.reset = .next t ∧
      t.block.pr.cumulativeTimeMs ≠ State.reset.block.pr.cumulativeTimeMs) ∧
    ∃ t, exec (.prRecv syn7) s = .next t ∧ t.block.pr.timeOfLastReceiptMs ≠ s.block.pr.timeOfLastReceiptMs :=
  ⟨⟨after State.reset (.prTick 5), ran (by decide), by decide⟩,
    after (after State.reset (.prTick 5)) (.prRecv syn7), ran (by decide), by decide⟩

theorem witness_RdregReadsTheRegisterMap : State.reset.Inv ∧ faulted.Inv := ⟨inv_reset, inv_faulted⟩

/-- The address 0x50 is mapped or not with HAS_PEER; 0x08 never is. -/
theorem witness_UnmappedRegistersAnswerErrReg :
    addressMapped true 0x50 = true ∧ addressMapped false 0x50 = false ∧ addressMapped true 0x08 = false := by decide

end Tests
end

/-! PROOFS. The step, what a reset answers, the block without the PRU, that every command answers, and the
response as bytes (00_scope.md R7, R8, R10, R15). -/

namespace Sys2Proof

/-! ## The decoder reads what the encoder writes (30_encoding.md R80 to R83) -/

/-- The CMD word of every command, by the command's own law. -/
theorem cmdWord (i : Instr) : Laws.CmdWord.Statement i := by
  cases i with
  | sqWrap a b => exact Laws.CmdWord.sqWrap a b
  | sqUnwrap a b c => exact Laws.CmdWord.sqUnwrap a b c
  | bsPush sel data => exact Laws.CmdWord.bsPush sel data
  | bsClose sel => exact Laws.CmdWord.bsClose sel
  | bsSeterr sel => exact Laws.CmdWord.bsSeterr sel
  | bsPeek sel => exact Laws.CmdWord.bsPeek sel
  | bsPop sel n => exact Laws.CmdWord.bsPop sel n
  | raInsert last first data => exact Laws.CmdWord.raInsert last first data
  | rxRecv sd => exact Laws.CmdWord.rxRecv sd
  | rxSend => exact Laws.CmdWord.rxSend
  | txPush => exact Laws.CmdWord.txPush
  | txRecv sd => exact Laws.CmdWord.txRecv sd
  | txTick ms => exact Laws.CmdWord.txTick ms
  | txEmpty => exact Laws.CmdWord.txEmpty
  | prRecv sd => exact Laws.CmdWord.prRecv sd
  | prPush => exact Laws.CmdWord.prPush
  | prTick ms => exact Laws.CmdWord.prTick ms
  | rdreg addr => exact Laws.CmdWord.rdreg addr

/-- The operands of a well-formed command are read back, with SEL and LAST from its CMD word (R81, R82). -/
theorem decodeOperands_operandBytes {i : Instr} (h : i.wellFormed = true) (rest : List Byte) :
    decodeOperands i.opcode i.cmd (i.operandBytes ++ rest) = some (i, rest) := by
  cases i with
  | sqWrap a b => simp [Instr.opcode, Instr.operandBytes, decodeOperands, take64_bytes64]
  | sqUnwrap a b c => simp [Instr.opcode, Instr.operandBytes, decodeOperands, take64_bytes64]
  | bsPush sel data =>
    have hsel : cmdSel (Instr.bsPush sel data).cmd = sel := cmdSel_or .bsPush sel
    simp [Instr.opcode, Instr.operandBytes, decodeOperands, takeData_bytesData h, hsel]
  | bsClose sel => exact congrArg (fun x => some (Instr.bsClose x, rest)) (cmdSel_or .bsClose sel)
  | bsSeterr sel => exact congrArg (fun x => some (Instr.bsSeterr x, rest)) (cmdSel_or .bsSeterr sel)
  | bsPeek sel => exact congrArg (fun x => some (Instr.bsPeek x, rest)) (cmdSel_or .bsPeek sel)
  | bsPop sel n =>
    have hsel : cmdSel (Instr.bsPop sel n).cmd = sel := cmdSel_or .bsPop sel
    simp [Instr.opcode, Instr.operandBytes, decodeOperands, take64_bytes64, hsel]
  | raInsert last first data =>
    have hlast : cmdLast (Instr.raInsert last first data).cmd = last := cmdLast_or .raInsert last
    simp [Instr.opcode, Instr.operandBytes, decodeOperands, take64_bytes64, takeData_bytesData h, hlast]
  | rxRecv sd => simp [Instr.opcode, Instr.operandBytes, decodeOperands, takeSd_bytesSd h]
  | rxSend => rfl
  | txPush => rfl
  | txRecv sd => simp [Instr.opcode, Instr.operandBytes, decodeOperands, takeSd_bytesSd h]
  | txTick ms => simp [Instr.opcode, Instr.operandBytes, decodeOperands, take64_bytes64]
  | txEmpty => rfl
  | prRecv sd => simp [Instr.opcode, Instr.operandBytes, decodeOperands, takeSd_bytesSd h]
  | prPush => rfl
  | prTick ms => simp [Instr.opcode, Instr.operandBytes, decodeOperands, take64_bytes64]
  | rdreg addr => simp [Instr.opcode, Instr.operandBytes, decodeOperands, take64_bytes64]

/-- Whatever follows, the transaction of a well-formed command decodes to it. -/
theorem decode_encode {i : Instr} (h : i.wellFormed = true) (rest : List Byte) :
    decode (encode i ++ rest) = .command i rest := by
  obtain ⟨hopc, hsel, -⟩ := cmdWord i
  rw [encode, List.append_assoc, decode, take32_bytes32]
  simp [hopc, decodeOperands_operandBytes h, hsel]

theorem Sd.fits_iff (sd : Sd) : sd.fits = true ↔ sd.payload.length < 2 ^ 16 := by
  simp [Sd.fits]

/-! ## The bytes of a word (20_memory.md R63) -/

/-- A byte of the low or of the high word is a byte of the operand. -/
theorem extractLsb'_byte_of_half (w : U64) (start k : Nat) (h : k + 8 ≤ 32) :
    (w.extractLsb' start 32).extractLsb' k 8 = w.extractLsb' (start + k) 8 := by
  apply BitVec.eq_of_getLsbD_eq
  intro i hi
  have h1 : k + i < 32 := by omega
  simp [hi, h1, Nat.add_assoc]

/-- A 64-bit word goes least significant byte first. -/
theorem bytes64_eq_map (w : U64) : bytes64 w = (List.range 8).map fun k => w.extractLsb' (8 * k) 8 := by
  simp [bytes64, bytes32, extractLsb'_byte_of_half, List.range_succ]

/-- The byte at position `k` of a 64-bit word, as a digit of its value. -/
theorem bytes64_getElem? (w : U64) {k : Nat} (h : k < 8) :
    (bytes64 w)[k]? = some (BitVec.ofNat 8 (w.toNat / 2 ^ (8 * k))) := by
  rw [bytes64_eq_map, List.getElem?_map, List.getElem?_range h, Option.map_some, BitVec.extractLsb',
    Nat.shiftRight_eq_div_pow]

theorem bytes64_length (w : U64) : (bytes64 w).length = 8 := rfl

end Sys2Proof

namespace Sys2Proof.Machine

/-! ## The cases of a step (00_scope.md R7, 70_reset_and_hazards.md R340, R341) -/

theorem step_of_reset {s : State} {c : Config} (h : s.resetIn = some c) : step s = takeReset c := by
  simp [step, h]

theorem step_of_command {s : State} {i : Instr} {rest : List Byte} (h : s.resetIn = none)
    (hd : decode s.port = .command i rest) : step s = exec i (s.setPort rest) := by
  simp [step, h, hd]

theorem step_of_incomplete {s : State} (h : s.resetIn = none) (hd : decode s.port = .incomplete) :
    step s = .next s := by
  simp [step, h, hd]

theorem step_of_reservedBits {s : State} {o : Opcode} {rest : List Byte} (h : s.resetIn = none)
    (hd : decode s.port = .reservedBits o rest) : step s = (s.setPort rest).rejectReserved o := by
  simp [step, h, hd]

theorem step_of_undefinedOpcode {s : State} {opc : Byte} {rest : List Byte} (h : s.resetIn = none)
    (hd : decode s.port = .undefinedOpcode opc rest) : step s = (s.setPort rest).rejectUndefined := by
  simp [step, h, hd]

/-- Settles O7, by the step's two cases. -/
theorem stepRunsTheDecodedCommand : Obligations.StepRunsTheDecodedCommand :=
  ⟨fun _ _ _ => step_of_command, fun _ => step_of_incomplete⟩

/-- Settles O8: the encoded bytes decode to the command, which the step runs. -/
theorem stepRunsTheEncodedCommand : Obligations.StepRunsTheEncodedCommand := by
  intro s i rest hr hwf hport
  exact step_of_command hr (hport ▸ decode_encode hwf rest)

/-! ## Reset (00_scope.md R10, 70_reset_and_hazards.md R340, R342) -/

theorem Config.legal_iff (c : Config) : c.legal = true ↔ 1 ≤ c.initialRto.toNat := by
  refine ⟨Config.initialRto_pos, fun h => ?_⟩
  have hne : c.initialRto ≠ 0 := fun h0 => by simp [h0] at h
  simpa [Config.legal] using hne

theorem takeReset_of_legal {c : Config} (h : c.legal = true) : takeReset c = .next (State.resetWith c) := by
  simp [takeReset, h]

theorem takeReset_of_illegal {c : Config} (h : c.legal = false) : takeReset c = .refused .illegalConfig := by
  simp [takeReset, h]

/-- Settles O11: a legal configuration is INITIAL_RTO ≥ 1, and reset then gives the reset values. -/
theorem resetTakesLegalConfigurations : Obligations.ResetTakesLegalConfigurations := by
  intro s c hr
  rw [step_of_reset hr]
  constructor
  · intro hpos
    exact ⟨State.resetWith c, takeReset_of_legal ((Config.legal_iff c).2 hpos), rfl, rfl, rfl, rfl, rfl⟩
  · intro hzero
    apply takeReset_of_illegal
    rw [Bool.eq_false_iff, ne_eq, Config.legal_iff]
    omega

/-! ## Without the PRU (00_scope.md R15) -/

theorem State.withPeer_of_absent {s : State} (h : s.block.cfg.hasPeer = false) (k : Result) :
    s.withPeer k = s.reject .errNopeer := by
  simp [State.withPeer, h]

theorem Register.mem_all (r : Register) : r ∈ Register.all := by
  cases r <;> decide

/-- No two registers share an address (10_state.md R36 to R44). -/
theorem Register.address_injective {r r' : Register} (h : r.address = r'.address) : r = r' :=
  List.inj_on_of_nodup_map (f := Register.address) (l := Register.all) (by decide) r.mem_all r'.mem_all h

/-- The PRU's registers are unmapped without it (46_register_access.md R281). -/
theorem Register.atAddress_of_absent_peer {c : Config} (h : c.hasPeer = false) {r : Register}
    (hr : r.isPeer = true) : Register.atAddress c r.address = none := by
  rw [Register.atAddress, List.find?_eq_none]
  intro x _ hx
  simp only [h, Bool.false_or, Bool.and_eq_true, beq_iff_eq, Bool.not_eq_true'] at hx
  obtain ⟨haddr, hpeer⟩ := hx
  rw [Register.address_injective haddr, hr] at hpeer
  cases hpeer

theorem execRdreg_of_unmapped {s : State} {a : U64} (h : Register.atAddress s.block.cfg a.toNat = none) :
    execRdreg a s = .next (s.answer (Response.bare .errReg)) := by
  simp [execRdreg, h, State.reject]

/-- Settles O22: the check for the PRU comes first outside the fault state, and its addresses name no other
register. -/
theorem withoutPeerNoPeerCommandsOrRegisters : Obligations.WithoutPeerNoPeerCommandsOrRegisters := by
  intro s hp
  refine ⟨fun hf => ⟨fun sd => ?_, ?_, fun ms => ?_⟩, fun a ha => ?_⟩
  · exact (State.unlessFaulted_of_not hf).trans (State.withPeer_of_absent hp _)
  · exact (State.unlessFaulted_of_not hf).trans (State.withPeer_of_absent hp _)
  · exact (State.unlessFaulted_of_not hf).trans (State.withPeer_of_absent hp _)
  · apply execRdreg_of_unmapped
    simp only [List.mem_cons, List.not_mem_nil, or_false] at ha
    obtain rfl | rfl | rfl := ha
    · exact Register.atAddress_of_absent_peer hp (r := .prStatus) rfl
    · exact Register.atAddress_of_absent_peer hp (r := .prCumulativeMs) rfl
    · exact Register.atAddress_of_absent_peer hp (r := .prLastReceiptMs) rfl

/-! ## The descriptors the block sends have a PLEN (30_encoding.md R83, R85) -/

/-- The emission function sends a message's payload unchanged. -/
def Emission.KeepsPayload (e : Emission) : Prop := ∀ b sm, (e b sm).payload = sm.payload

theorem emitSM_keepsPayload : Emission.KeepsPayload emitSM := fun _ _ => rfl

theorem emitMerged_keepsPayload : Emission.KeepsPayload emitMerged := fun _ _ => rfl

/-- MAX_PAYLOAD has 16 bits, so a new segment fits (44_sender.md R212). -/
theorem txPass_fits {e : Emission} (he : e.KeepsPayload) {b b' : Block} {sd : Sd}
    (h : txPass e b = .ok (some (b', sd))) : sd.fits = true := by
  rcases txPass_ok h with ⟨ho, -⟩ | ⟨-, -, out, sent, -, -, -, ho⟩
  · cases ho
  · injection ho with ho
    injection ho with _ hsd
    have hn := b.nextPayloadSize_le.1
    have hmax := b.cfg.maxPayload.isLt
    rw [hsd, Sd.fits_iff, he]
    simp only [Block.segment, List.length_take]
    omega

theorem txPasses_fits {e : Emission} (he : e.KeepsPayload) {fuel : Nat} {b b' : Block} {sds : List Sd}
    (h : txPasses e fuel b = .ok (b', sds)) : ∀ sd ∈ sds, sd.fits = true := by
  induction fuel generalizing b sds with
  | zero =>
    simp only [txPasses, Except.ok.injEq, Prod.mk.injEq] at h
    simp [← h.2]
  | succ fuel ih =>
    rw [txPasses] at h
    obtain ⟨o, ho, h⟩ := except_bind_ok.1 h
    cases o with
    | none =>
      simp only [pure, Except.pure, Except.ok.injEq, Prod.mk.injEq] at h
      simp [← h.2]
    | some x =>
      obtain ⟨b1, sd⟩ := x
      obtain ⟨⟨b2, sds'⟩, hrest, h⟩ := except_bind_ok.1 h
      simp only [pure, Except.pure, Except.ok.injEq, Prod.mk.injEq] at h
      obtain ⟨rfl, rfl⟩ := h
      exact List.forall_mem_cons.2 ⟨txPass_fits he ho, ih hrest⟩

theorem payload_le_totalSeqLen {e : OutEntry} {q : List OutEntry} (h : e ∈ q) :
    e.sm.payload.length ≤ totalSeqLen q := by
  induction q with
  | nil => cases h
  | cons x q ih =>
    rw [totalSeqLen]
    rcases List.mem_cons.1 h with rfl | h
    · rw [SenderMessage.seqLen]; omega
    · have := ih h; omega

/-- At most 65535 sequence numbers are in flight, so a queued message fits when it goes out again
(10_state.md R31). -/
theorem Block.SenderInv.outstanding_fits {b : Block} (hb : b.SenderInv) {e : OutEntry}
    (h : e ∈ b.tx.outstanding) : e.sm.payload.length < 2 ^ 16 := by
  obtain ⟨-, htotal, -, -, -, hflight⟩ := (b.tx.holds_iff b.bsOut).1 hb.tx.holds
  have := payload_le_totalSeqLen h
  omega

theorem txTick_fits {e : Emission} (he : e.KeepsPayload) {ms : Nat} {b b' : Block} {sds : List Sd}
    (hb : b.SenderInv) (h : txTick ms e b = .ok (b', sds)) : ∀ sd ∈ sds, sd.fits = true := by
  obtain ⟨el, -, ⟨-, rfl, -⟩ | ⟨-, rfl, -⟩⟩ := txTick_ok h
  · simp
  · intro sd hsd
    simp only [List.mem_map, Option.mem_toList] at hsd
    obtain ⟨entry, hentry, rfl⟩ := hsd
    rw [Sd.fits_iff, he]
    exact hb.outstanding_fits (List.mem_of_mem_head? hentry)

theorem prTick_fits {ms : Nat} {b b' : Block} {sds : List Sd} (hb : b.SenderInv)
    (h : prTick ms b = .ok (b', sds)) : ∀ sd ∈ sds, sd.fits = true := by
  obtain ⟨now, -, h⟩ := prTick_ok h
  have hb' : (b.setPr { b.pr with cumulativeTimeMs := now }).SenderInv := ⟨hb.legal, hb.bsOut, hb.tx⟩
  exact txTick_fits emitMerged_keepsPayload hb' h

/-- A reply of PR.RECV has no payload (45_peer.md R252). -/
theorem prReceive_fits {b b' : Block} {sm : SenderMessage} {rm : ReceiverMessage} {sds : List Sd}
    (h : prReceive b sm rm = .ok (b', sds)) : ∀ sd ∈ sds, sd.fits = true := by
  obtain ⟨b1, -, -, rfl⟩ := prReceive_ok h
  intro sd hsd
  split at hsd
  · rw [List.mem_singleton.1 hsd]; rfl
  · cases hsd

/-! ## Every command answers (20_memory.md R70) -/

/-- Every descriptor of a response has a payload that its PLEN can count (30_encoding.md R83). -/
def Response.DescriptorsFit (r : Response) : Prop :=
  ∀ sd, r.rsd = some sd ∨ sd ∈ r.emit → sd.fits = true

theorem Response.fits_of_none {r : Response} (hrsd : r.rsd = none) (hemit : r.emit = []) :
    r.DescriptorsFit := by
  simp [Response.DescriptorsFit, hrsd, hemit]

theorem Response.descriptor_fits {sd : Sd} (h : sd.fits = true) : (Response.descriptor sd).DescriptorsFit := by
  simpa [Response.DescriptorsFit, Response.descriptor, Response.done, Response.bare] using h

theorem Response.emitted_fits {sds : List Sd} (h : ∀ sd ∈ sds, sd.fits = true) :
    (Response.emitted sds).DescriptorsFit := by
  simpa [Response.DescriptorsFit, Response.emitted, Response.done, Response.bare] using h

/-- The outcome `k` of a command performed in `s` is a next state with a response, whose descriptors fit when
`s` meets the invariant. -/
def State.Answers (s : State) (k : Result) : Prop :=
  ∃ t r, k = .next t ∧ t.resp = some r ∧ (s.Inv → r.DescriptorsFit)

theorem State.respond_answers {s : State} {r : Response} (h : r.DescriptorsFit) : s.Answers (s.respond r) :=
  ⟨_, r, rfl, rfl, fun _ => h⟩

theorem State.reject_answers (s : State) (st : Status) : s.Answers (s.reject st) :=
  State.respond_answers (Response.fits_of_none rfl rfl)

theorem State.unlessFaulted_answers {s : State} {k : Result} (h : s.Answers k) :
    s.Answers (s.unlessFaulted k) := by
  unfold State.unlessFaulted
  split
  · exact s.reject_answers .fault
  · exact h

theorem State.withPeer_answers {s : State} {k : Result} (h : s.Answers k) : s.Answers (s.withPeer k) := by
  unfold State.withPeer
  split
  · exact h
  · exact s.reject_answers .errNopeer

theorem State.ite_answers {s : State} {p : Prop} [Decidable p] {k k' : Result} (h : s.Answers k)
    (h' : s.Answers k') : s.Answers (if p then k else k') := by
  split
  · exact h
  · exact h'

/-- A command that writes the block answers FAULT, or the response it computed. -/
theorem State.commit_answers {s : State} {x : Except FaultCause (Block × Response)}
    (h : s.Inv → ∀ b r, x = .ok (b, r) → r.DescriptorsFit) : s.Answers (s.commit x) := by
  unfold State.commit
  split
  · exact ⟨_, _, rfl, rfl, fun _ => Response.fits_of_none rfl rfl⟩
  · split
    · exact ⟨_, _, rfl, rfl, fun hs => h hs _ _ rfl⟩
    · exact ⟨_, _, rfl, rfl, fun _ => Response.fits_of_none rfl rfl⟩

theorem State.commit_ok_answers {s : State} {b : Block} {r : Response} (h : r.DescriptorsFit) :
    s.Answers (s.commit (.ok (b, r))) := by
  refine State.commit_answers fun _ b' r' he => ?_
  injection he with he
  injection he with _ hr
  exact hr ▸ h

/-- A command whose block and response follow from a computation `x` that may fault. -/
theorem State.commit_bind_answers {α : Type} {s : State} {x : Except FaultCause α}
    {f : α → Except FaultCause (Block × Response)}
    (h : s.Inv → ∀ a, x = .ok a → ∃ b r, f a = .ok (b, r) ∧ r.DescriptorsFit) :
    s.Answers (s.commit (x >>= f)) := by
  refine State.commit_answers fun hs b r he => ?_
  obtain ⟨a, hx, hf⟩ := except_bind_ok.1 he
  obtain ⟨b', r', hf', hr⟩ := h hs a hx
  cases hf.symm.trans hf'
  exact hr

/-- A command that emits the descriptors of a computation `x` (44_sender.md R210, 45_peer.md R255). -/
theorem State.commit_emitted_answers {s : State} {x : Except FaultCause (Block × List Sd)}
    (h : s.Inv → ∀ b sds, x = .ok (b, sds) → ∀ sd ∈ sds, sd.fits = true) :
    s.Answers (s.commit (x >>= fun p => pure (p.1, Response.emitted p.2))) :=
  State.commit_bind_answers fun hs ⟨b, sds⟩ hx => ⟨b, _, rfl, Response.emitted_fits (h hs b sds hx)⟩

theorem execRdreg_answers (addr : U64) (s : State) : s.Answers (execRdreg addr s) := by
  unfold execRdreg
  split
  · exact s.reject_answers .errReg
  · exact State.respond_answers (Response.fits_of_none rfl rfl)

/-- Every command answers, in every state. -/
theorem exec_answers (i : Instr) (s : State) : s.Answers (exec i s) := by
  cases i with
  | sqWrap a b =>
    exact State.unlessFaulted_answers <|
      State.ite_answers (State.respond_answers (Response.fits_of_none rfl rfl)) (s.reject_answers _)
  | sqUnwrap a b c =>
    exact State.unlessFaulted_answers <|
      State.ite_answers (State.respond_answers (Response.fits_of_none rfl rfl)) (s.reject_answers _)
  | bsPush sel data =>
    exact State.unlessFaulted_answers <| State.ite_answers (s.reject_answers _) <|
      State.ite_answers
        (State.commit_bind_answers fun _ _ _ => ⟨_, _, rfl, Response.fits_of_none rfl rfl⟩)
        (s.reject_answers _)
  | bsClose sel =>
    exact State.unlessFaulted_answers <| State.ite_answers (s.reject_answers _) <|
      State.commit_ok_answers (Response.fits_of_none rfl rfl)
  | bsSeterr sel =>
    exact State.unlessFaulted_answers <| State.commit_ok_answers (Response.fits_of_none rfl rfl)
  | bsPeek sel => exact State.unlessFaulted_answers <| State.respond_answers (Response.fits_of_none rfl rfl)
  | bsPop sel n =>
    exact State.unlessFaulted_answers <| State.ite_answers (s.reject_answers _) <|
      State.commit_bind_answers fun _ _ _ => ⟨_, _, rfl, Response.fits_of_none rfl rfl⟩
  | raInsert last first data =>
    exact State.unlessFaulted_answers <|
      State.ite_answers
        (State.commit_bind_answers fun _ _ _ => ⟨_, _, rfl, Response.fits_of_none rfl rfl⟩)
        (s.reject_answers _)
  | rxRecv sd =>
    exact State.unlessFaulted_answers <| State.ite_answers (s.reject_answers _) <|
      State.ite_answers
        (State.commit_bind_answers fun _ _ _ => ⟨_, _, rfl, Response.fits_of_none rfl rfl⟩)
        (s.reject_answers _)
  | rxSend => exact State.unlessFaulted_answers <| State.respond_answers (Response.descriptor_fits rfl)
  | txPush =>
    exact State.unlessFaulted_answers <| State.commit_emitted_answers fun _ _ _ hpush =>
      txPasses_fits emitSM_keepsPayload hpush
  | txRecv sd =>
    exact State.unlessFaulted_answers <| State.ite_answers (s.reject_answers _) <|
      State.ite_answers (State.commit_ok_answers (Response.fits_of_none rfl rfl)) (s.reject_answers _)
  | txTick ms =>
    exact State.unlessFaulted_answers <| State.commit_emitted_answers fun hs _ _ htick =>
      txTick_fits emitSM_keepsPayload (Block.Inv.sender hs) htick
  | txEmpty => exact State.unlessFaulted_answers <| State.respond_answers (Response.descriptor_fits rfl)
  | prRecv sd =>
    exact State.unlessFaulted_answers <| State.withPeer_answers <| State.ite_answers (s.reject_answers _) <|
      State.ite_answers
        (State.ite_answers
          (State.commit_emitted_answers fun _ _ _ hrecv => prReceive_fits hrecv)
          (State.respond_answers (Response.fits_of_none rfl rfl)))
        (s.reject_answers _)
  | prPush =>
    exact State.unlessFaulted_answers <| State.withPeer_answers <|
      State.commit_emitted_answers fun _ _ _ hpush => txPasses_fits emitMerged_keepsPayload hpush
  | prTick ms =>
    exact State.unlessFaulted_answers <| State.withPeer_answers <|
      State.commit_emitted_answers fun hs _ _ htick => prTick_fits (Block.Inv.sender hs) htick
  | rdreg addr => exact execRdreg_answers addr s

theorem State.rejectUndefined_answers (s : State) : s.Answers s.rejectUndefined :=
  State.unlessFaulted_answers (s.reject_answers .errOpcode)

theorem State.rejectReserved_answers (s : State) (o : Opcode) : s.Answers (s.rejectReserved o) := by
  have hanswer := State.ite_answers (p := (o.isPeer && !s.block.cfg.hasPeer) = true)
    (s.reject_answers .errNopeer) (s.reject_answers .errRsvd)
  exact State.ite_answers hanswer (State.unlessFaulted_answers hanswer)

theorem State.Answers.next {s : State} {k : Result} (h : s.Answers k) : ∃ t, k = .next t := by
  obtain ⟨t, -, hk, -⟩ := h
  exact ⟨t, hk⟩

/-- With no reset asked for, the step has a next state whatever stands on the port. -/
theorem step_next_of_no_reset {s : State} (h : s.resetIn = none) : ∃ t, step s = .next t := by
  cases hd : decode s.port with
  | command i rest => exact step_of_command h hd ▸ (exec_answers i _).next
  | reservedBits o rest => exact step_of_reservedBits h hd ▸ (State.rejectReserved_answers _ o).next
  | undefinedOpcode opc rest => exact step_of_undefinedOpcode h hd ▸ (State.rejectUndefined_answers _).next
  | incomplete => exact ⟨s, step_of_incomplete h hd⟩

theorem Config.initialRto_of_illegal {c : Config} (h : c.legal = false) : c.initialRto = 0 := by
  simpa [Config.legal] using h

/-- Settles O21: every arm of `exec` answers, and a step refuses nothing but an illegal reset. -/
theorem everyCommandCompletes : Obligations.EveryCommandCompletes := by
  refine ⟨fun i s => ?_, fun s => ?_⟩
  · obtain ⟨t, r, hexec, hresp, -⟩ := exec_answers i s
    exact ⟨t, r, hexec, hresp⟩
  · cases hr : s.resetIn with
    | none => exact .inl (step_next_of_no_reset hr)
    | some c =>
      rw [step_of_reset hr]
      cases hc : c.legal with
      | true => exact .inl ⟨_, takeReset_of_legal hc⟩
      | false => exact .inr ⟨c, rfl, Config.initialRto_of_illegal hc, takeReset_of_illegal hc⟩

/-! ## The response as bytes (20_memory.md R63, 30_encoding.md R83) -/

/-- The eight bytes behind the status code are R0's. -/
theorem Response.bytes_r0 (r : Response) {k : Nat} (h : k < 8) :
    r.bytes[1 + k]? = some (BitVec.ofNat 8 (r.r0.toNat / 2 ^ (8 * k))) := by
  rw [Response.bytes, Nat.add_comm, List.getElem?_cons_succ, List.getElem?_append_left h, bytes64_getElem? _ h]

/-- Behind the status code and R0 stand the other elements. -/
theorem Response.drop_bytes (r : Response) :
    r.bytes.drop 9 = r.rdata ++ (bytesSds r.rsd.toList ++ bytesSds r.emit) := by
  rw [Response.bytes, List.drop_succ_cons]
  exact List.drop_left' (bytes64_length r.r0)

/-- From a state of the invariant every descriptor of an answer can be read back. -/
theorem exec_descriptorsFit {i : Instr} {s t : State} {r : Response} (hs : s.Inv) (h : exec i s = .next t)
    (hr : t.resp = some r) : r.DescriptorsFit := by
  obtain ⟨t', r', h', hr', hfits⟩ := exec_answers i s
  obtain rfl : t = t' := by simpa using h.symm.trans h'
  obtain rfl : r = r' := by simpa using hr.symm.trans hr'
  exact hfits hs

/-- Settles O58: the positions are those of the byte layout, and the descriptors read back because their
payloads fit PLEN. -/
theorem responseBytesReadBack : Obligations.ResponseBytesReadBack := by
  intro i s t r hs hexec hresp
  refine ⟨by simp [State.responseBytes, hresp], rfl, fun k => r.bytes_r0, r.drop_bytes, ?_⟩
  intro sd rest hsd
  exact takeSd_bytesSd (exec_descriptorsFit hs hexec hresp sd hsd) rest

end Sys2Proof.Machine

/-! PROOFS. The state's family: what a reset gives, what a command can do, the invariant every step keeps, the
flags, the configuration and the counters, and the register map (10_state.md). -/

namespace Sys2Proof.Machine

/-! ## Reset (10_state.md R46) -/

/-- Settles O10: the next state is `State.resetWith c`, whose elements are R46's by definition. -/
theorem resetGivesTheResetValues : Obligations.ResetGivesTheResetValues := by
  intro s c hr hc
  refine ⟨State.resetWith c, (step_of_reset hr).trans (takeReset_of_legal hc), rfl, rfl, rfl, fun sel => ?_, ?_⟩
  · cases sel <;> exact ⟨rfl, rfl, rfl, rfl, rfl⟩
  · simp [State.resetWith, Block.reset]

theorem Stream.holds_reset (capacity : U64) : (Stream.reset capacity).holds = true := by
  simp [Stream.holds_iff, Stream.reset, Stream.buffered]

/-- Nothing is pending, and nothing is delivered. -/
theorem Reassembler.inv_reset (c : Config) : (Block.reset c).ra.Inv (Block.reset c).bsIn := by
  refine ⟨?_, rfl, by simp [Block.reset]⟩
  simp [Reassembler.holds_iff, Block.reset, Stream.reset, Stream.buffered]

/-- Nothing is sent, and the timer is stopped at INITIAL_RTO. -/
theorem Sender.inv_reset (c : Config) : (Block.reset c).tx.Inv c (Block.reset c).bsOut where
  holds := by
    simp [Sender.holds_iff, Block.reset, Stream.reset, Sender.inFlight, totalSeqLen, contiguousFrom, b2n]
  occupies := by simp [Block.reset]
  synFirst _ := rfl
  finLast h := by cases h
  rtoFloor := (zext_toNat c.initialRto).ge
  notExpired := rfl

theorem Block.inv_reset {c : Config} (h : c.legal = true) : (Block.reset c).Inv where
  legal := h
  capIn := rfl
  capOut := rfl
  isn := rfl
  bsIn := Stream.holds_reset c.capIn
  bsOut := Stream.holds_reset c.capOut
  ra := Reassembler.inv_reset c
  tx := Sender.inv_reset c
  pr := Nat.le_refl _
  sys := by simp [Block.reset]

/-- Settles O13: the empty units meet their invariants under every legal configuration, the default one included. -/
theorem resetMeetsTheInvariant : Obligations.ResetMeetsTheInvariant :=
  ⟨Block.inv_reset (c := Config.default) rfl, fun _ => Block.inv_reset⟩

/-! ## The causes of a fault (10_state.md R33, 60_exceptions.md R304) -/

/-- Where the computation faults, it names a cause. -/
def NamesCause {α : Type} (x : Except FaultCause α) : Prop := ∀ c, x = .error c → c ≠ .none

theorem NamesCause.ok {α : Type} (a : α) : NamesCause (.ok a) := nofun

theorem NamesCause.error {α : Type} {c : FaultCause} (h : c ≠ .none) :
    NamesCause (.error c : Except FaultCause α) := by
  rintro _ ⟨⟩
  exact h

theorem NamesCause.bind {α β : Type} {x : Except FaultCause α} {f : α → Except FaultCause β}
    (hx : NamesCause x) (hf : ∀ a, NamesCause (f a)) : NamesCause (x >>= f) := by
  cases x with
  | error c => exact NamesCause.error (hx c rfl)
  | ok a => exact hf a

theorem NamesCause.ite {α : Type} {p : Prop} [Decidable p] {x y : Except FaultCause α} (hx : NamesCause x)
    (hy : NamesCause y) : NamesCause (if p then x else y) := by
  split
  · exact hx
  · exact hy

theorem store64_namesCause (n : Nat) : NamesCause (store64 n) :=
  .ite (.ok _) (.error (by decide))

theorem bsPush_namesCause (s : Stream) (d : List Byte) : NamesCause (bsPush s d) :=
  .ite (.ok _) ((store64_namesCause _).bind fun _ => .ok _)

theorem bsPop_namesCause (policy : PopPolicy) (s : Stream) (n : Nat) : NamesCause (bsPop policy s n) :=
  .ite (.error (by decide)) ((store64_namesCause _).bind fun _ => .ok _)

theorem raInsert_namesCause (r : Reassembler) (inn : Stream) (f : Nat) (d : List Byte) (last : Bool) :
    NamesCause (raInsert r inn f d last) := by
  have hend : NamesCause (r.noteEnd f d last) := .ite ((store64_namesCause _).bind fun _ => .ok _) (.ok _)
  have hdeliver (r : Reassembler) : NamesCause (r.deliver inn) :=
    (bsPush_namesCause _ _).bind fun _ => (store64_namesCause _).bind fun _ => .ok _
  exact hend.bind fun _ => (hdeliver _).bind fun _ => .ok _

theorem rxReceive_namesCause (b : Block) (m : SenderMessage) : NamesCause (rxReceive b m) := by
  refine .ite (.ok _) (.ite (.ok _) ?_)
  split
  · exact .ok _
  · exact (raInsert_namesCause _ _ _ _ _).bind fun _ => .ok _

theorem txPass_namesCause (e : Emission) (b : Block) : NamesCause (txPass e b) :=
  .ite (.ok _) <| .ite (.ok _) <| (bsPop_namesCause _ _ _).bind fun _ =>
    .ite (.ok _) ((store64_namesCause _).bind fun _ => .ok _)

theorem txPasses_namesCause (e : Emission) (fuel : Nat) (b : Block) : NamesCause (txPasses e fuel b) := by
  induction fuel generalizing b with
  | zero => exact .ok _
  | succ fuel ih =>
    refine (txPass_namesCause e b).bind fun o => ?_
    cases o with
    | none => exact .ok _
    | some x => exact (ih x.1).bind fun _ => .ok _

theorem txTick_namesCause (ms : Nat) (e : Emission) (b : Block) : NamesCause (txTick ms e b) := by
  have hbackoff (t : Sender) : NamesCause t.backoff :=
    .ite (.ok _) ((store64_namesCause _).bind fun _ => (store64_namesCause _).bind fun _ => .ok _)
  exact (store64_namesCause _).bind fun _ => .ite ((hbackoff _).bind fun _ => .ok _) (.ok _)

theorem prReceive_namesCause (b : Block) (sm : SenderMessage) (rm : ReceiverMessage) :
    NamesCause (prReceive b sm rm) :=
  (rxReceive_namesCause _ sm).bind fun _ => .ok _

theorem prTick_namesCause (ms : Nat) (b : Block) : NamesCause (prTick ms b) :=
  (store64_namesCause _).bind fun _ => txTick_namesCause _ _ _

/-! ## What a command can do (60_exceptions.md R301, R304) -/

/-- A command that writes the block is performed: from `b` it computes the block and the response, before the
check of the invariants. -/
inductive Performs (b : Block) : Instr → Block → Response → Prop where
  | bsPush {data : List Byte} {out : Stream} {k : Nat} (hpush : bsPush b.bsOut data = .ok (out, k)) :
    Performs b (.bsPush .outbound data) (b.setOut out) (Response.word (BitVec.ofNat 64 k))
  | bsClose : Performs b (.bsClose .outbound) (b.setOut (bsClose b.bsOut)) Response.done
  | bsSeterr (sel : Sel) :
    Performs b (.bsSeterr sel) (b.setStream sel (bsSetError (b.stream sel))) Response.done
  | bsPop {n : U64} {inn : Stream} {k : Nat} (hpop : bsPop b.cfg.popPolicy b.bsIn n.toNat = .ok (inn, k)) :
    Performs b (.bsPop .inbound n) (b.setIn inn) (Response.word (BitVec.ofNat 64 k))
  | raInsert {last : Bool} {first : U64} {data : List Byte} {ra : Reassembler} {inn : Stream} {l : Nat}
    (hfits : first.toNat + data.length < 2 ^ 64)
    (hinsert : raInsert b.ra b.bsIn first.toNat data last = .ok (ra, inn, l)) :
    Performs b (.raInsert last first data) ((b.setRa ra).setIn inn) (Response.word (BitVec.ofNat 64 l))
  | rxRecv {sd : Sd} {b' : Block} (hrx : rxReceive b (smOf sd) = .ok b') :
    Performs b (.rxRecv sd) b' Response.done
  | txPush {b' : Block} {sds : List Sd} (hpush : txPush emitSM b = .ok (b', sds)) :
    Performs b .txPush b' (Response.emitted sds)
  | txRecv (sd : Sd) : Performs b (.txRecv sd) (txReceive b (rmOf sd)) Response.done
  | txTick {ms : U64} {b' : Block} {sds : List Sd} (htick : txTick ms.toNat emitSM b = .ok (b', sds)) :
    Performs b (.txTick ms) b' (Response.emitted sds)
  | prRecv {sd : Sd} {b' : Block} {sds : List Sd} (hrecv : prReceive b (smOf sd) (rmOf sd) = .ok (b', sds)) :
    Performs b (.prRecv sd) b' (Response.emitted sds)
  | prPush {b' : Block} {sds : List Sd} (hpush : txPush emitMerged b = .ok (b', sds)) :
    Performs b .prPush b' (Response.emitted sds)
  | prTick {ms : U64} {b' : Block} {sds : List Sd} (htick : prTick ms.toNat b = .ok (b', sds)) :
    Performs b (.prTick ms) b' (Response.emitted sds)

/-- The ways a command can go from `s` to `t`: it only answers, it enters the fault state, or it is performed
and its block passes the check of the invariants. -/
inductive Ends (i : Instr) (s t : State) : Prop where
  | answered (r : Response) (ht : t = s.answer r)
  | faulted (c : FaultCause) (hc : c ≠ .none) (hf : s.block.sys.fault = false) (ht : t = s.enterFault c)
  | performed (b : Block) (r : Response) (hf : s.block.sys.fault = false) (hb : Performs s.block i b r)
    (hchecked : invariantsHold s.block b = true) (ht : t = (s.setBlock b).answer r)

/-- Every next state of the outcome `k` is one of these ends. -/
def State.EndsIn (s : State) (i : Instr) (k : Result) : Prop := ∀ t, k = .next t → Ends i s t

theorem State.respond_ends (s : State) (i : Instr) (r : Response) : s.EndsIn i (s.respond r) := by
  rintro _ ⟨⟩
  exact .answered r rfl

theorem State.reject_ends (s : State) (i : Instr) (st : Status) : s.EndsIn i (s.reject st) :=
  s.respond_ends i (Response.bare st)

theorem State.unlessFaulted_ends {s : State} {i : Instr} {k : Result}
    (h : s.block.sys.fault = false → s.EndsIn i k) : s.EndsIn i (s.unlessFaulted k) := by
  intro t ht
  rcases State.unlessFaulted_next ht with ⟨-, rfl⟩ | ⟨hf, hk⟩
  · exact .answered _ rfl
  · exact h hf t hk

theorem State.ite_ends {s : State} {i : Instr} {p : Prop} [Decidable p] {k k' : Result}
    (h : p → s.EndsIn i k) (h' : ¬ p → s.EndsIn i k') : s.EndsIn i (if p then k else k') := by
  split
  · exact h ‹_›
  · exact h' ‹_›

theorem State.withPeer_ends {s : State} {i : Instr} {k : Result} (h : s.EndsIn i k) :
    s.EndsIn i (s.withPeer k) :=
  State.ite_ends (fun _ => h) fun _ => s.reject_ends i _

/-- The end of a command whose block and response follow from a computation `x` that may fault. -/
theorem State.commit_ends {α : Type} {s : State} {i : Instr} {x : Except FaultCause α}
    {f : α → Block × Response} (hf : s.block.sys.fault = false) (hx : NamesCause x)
    (h : ∀ a, x = .ok a → Performs s.block i (f a).1 (f a).2) :
    s.EndsIn i (s.commit (x >>= fun a => pure (f a))) := by
  intro t ht
  rcases State.commit_next ht with ⟨c, he, rfl⟩ | ⟨b, r, hb, hchecked, rfl⟩ | ⟨b, r, -, -, rfl⟩
  · exact .faulted c (hx.bind (fun _ => .ok _) c he) hf rfl
  · obtain ⟨a, ha, hfa⟩ := except_bind_ok.1 hb
    have hfa : f a = (b, r) := by simpa [pure, Except.pure] using hfa
    have hperf := h a ha
    rw [hfa] at hperf
    exact .performed b r hf hperf hchecked rfl
  · exact .faulted _ (by decide) hf rfl

/-- The end of a command that meets no fault. -/
theorem State.commit_ok_ends {s : State} {i : Instr} {b : Block} {r : Response}
    (hf : s.block.sys.fault = false) (h : Performs s.block i b r) : s.EndsIn i (s.commit (.ok (b, r))) :=
  State.commit_ends (x := .ok ()) (f := fun _ => (b, r)) hf (.ok _) fun _ _ => h

theorem execRdreg_ends (addr : U64) (s : State) : s.EndsIn (.rdreg addr) (execRdreg addr s) := by
  unfold execRdreg
  split
  · exact s.reject_ends _ _
  · exact s.respond_ends _ _

/-- What a command can do, said once for all 18. -/
theorem exec_ends (i : Instr) (s : State) : s.EndsIn i (exec i s) := by
  cases i with
  | sqWrap a b =>
    exact State.unlessFaulted_ends fun _ =>
      State.ite_ends (fun _ => s.respond_ends _ _) fun _ => s.reject_ends _ _
  | sqUnwrap a b c =>
    exact State.unlessFaulted_ends fun _ =>
      State.ite_ends (fun _ => s.respond_ends _ _) fun _ => s.reject_ends _ _
  | bsPush sel data =>
    refine State.unlessFaulted_ends fun hf => State.ite_ends (fun _ => s.reject_ends _ _) fun hsel =>
      State.ite_ends (fun _ => ?_) fun _ => s.reject_ends _ _
    cases sel with
    | inbound => exact absurd rfl hsel
    | outbound => exact State.commit_ends hf (bsPush_namesCause _ _) fun _ => .bsPush
  | bsClose sel =>
    refine State.unlessFaulted_ends fun hf => State.ite_ends (fun _ => s.reject_ends _ _) fun hsel => ?_
    cases sel with
    | inbound => exact absurd rfl hsel
    | outbound => exact State.commit_ok_ends hf .bsClose
  | bsSeterr sel => exact State.unlessFaulted_ends fun hf => State.commit_ok_ends hf (.bsSeterr sel)
  | bsPeek sel => exact State.unlessFaulted_ends fun _ => s.respond_ends _ _
  | bsPop sel n =>
    refine State.unlessFaulted_ends fun hf => State.ite_ends (fun _ => s.reject_ends _ _) fun hsel => ?_
    cases sel with
    | inbound => exact State.commit_ends hf (bsPop_namesCause _ _ _) fun _ => .bsPop
    | outbound => exact absurd rfl hsel
  | raInsert last first data =>
    refine State.unlessFaulted_ends fun hf => State.ite_ends (fun hp => ?_) fun _ => s.reject_ends _ _
    simp only [Bool.and_eq_true, decide_eq_true_eq] at hp
    exact State.commit_ends hf (raInsert_namesCause _ _ _ _ _) fun _ => .raInsert (by omega)
  | rxRecv sd =>
    exact State.unlessFaulted_ends fun hf => State.ite_ends (fun _ => s.reject_ends _ _) fun _ =>
      State.ite_ends (fun _ => State.commit_ends hf (rxReceive_namesCause _ _) fun _ => .rxRecv)
        fun _ => s.reject_ends _ _
  | rxSend => exact State.unlessFaulted_ends fun _ => s.respond_ends _ _
  | txPush =>
    exact State.unlessFaulted_ends fun hf =>
      State.commit_ends hf (txPasses_namesCause _ _ _) fun _ => .txPush
  | txRecv sd =>
    exact State.unlessFaulted_ends fun hf => State.ite_ends (fun _ => s.reject_ends _ _) fun _ =>
      State.ite_ends (fun _ => State.commit_ok_ends hf (.txRecv sd)) fun _ => s.reject_ends _ _
  | txTick ms =>
    exact State.unlessFaulted_ends fun hf =>
      State.commit_ends hf (txTick_namesCause _ _ _) fun _ => .txTick
  | txEmpty => exact State.unlessFaulted_ends fun _ => s.respond_ends _ _
  | prRecv sd =>
    exact State.unlessFaulted_ends fun hf => State.withPeer_ends <|
      State.ite_ends (fun _ => s.reject_ends _ _) fun _ =>
        State.ite_ends
          (fun _ => State.ite_ends
            (fun _ => State.commit_ends hf (prReceive_namesCause _ _ _) fun _ => .prRecv)
            fun _ => s.respond_ends _ _)
          fun _ => s.reject_ends _ _
  | prPush =>
    exact State.unlessFaulted_ends fun hf => State.withPeer_ends <|
      State.commit_ends hf (txPasses_namesCause _ _ _) fun _ => .prPush
  | prTick ms =>
    exact State.unlessFaulted_ends fun hf => State.withPeer_ends <|
      State.commit_ends hf (prTick_namesCause _ _) fun _ => .prTick
  | rdreg addr => exact execRdreg_ends addr s

theorem State.rejectUndefined_next {s t : State} (h : s.rejectUndefined = .next t) : ∃ r, t = s.answer r := by
  rcases State.unlessFaulted_next h with ⟨-, rfl⟩ | ⟨-, h⟩
  · exact ⟨_, rfl⟩
  · exact ⟨_, by simpa [State.reject] using h.symm⟩

theorem State.rejectReserved_next {s t : State} {o : Opcode} (h : s.rejectReserved o = .next t) :
    ∃ r, t = s.answer r := by
  have hanswer {k : Result} (hk : k = if o.isPeer && !s.block.cfg.hasPeer then s.reject .errNopeer
      else s.reject .errRsvd) (h : k = .next t) : ∃ r, t = s.answer r := by
    rw [hk, ← apply_ite s.reject] at h
    exact ⟨_, by simpa [State.reject] using h.symm⟩
  unfold State.rejectReserved at h
  dsimp only at h
  split at h
  · exact hanswer rfl h
  · rcases State.unlessFaulted_next h with ⟨-, rfl⟩ | ⟨-, h⟩
    · exact ⟨_, rfl⟩
    · exact hanswer rfl h

/-- A step that takes no reset leaves the block and asks for no reset, or runs a command. -/
theorem step_next {s t : State} (hr : s.resetIn = none) (h : step s = .next t) :
    (t.block = s.block ∧ t.resetIn = none) ∨ ∃ i rest, exec i (s.setPort rest) = .next t := by
  cases hd : decode s.port with
  | command i rest => exact .inr ⟨i, rest, step_of_command hr hd ▸ h⟩
  | reservedBits o rest =>
    rw [step_of_reservedBits hr hd] at h
    obtain ⟨r, rfl⟩ := State.rejectReserved_next h
    exact .inl ⟨rfl, hr⟩
  | undefinedOpcode opc rest =>
    rw [step_of_undefinedOpcode hr hd] at h
    obtain ⟨r, rfl⟩ := State.rejectUndefined_next h
    exact .inl ⟨rfl, hr⟩
  | incomplete =>
    rw [step_of_incomplete hr hd] at h
    obtain rfl : s = t := by simpa using h
    exact .inl ⟨rfl, hr⟩

/-- A step that takes a reset gives the reset values of a legal configuration. -/
theorem step_next_of_reset {s t : State} {c : Config} (hr : s.resetIn = some c) (h : step s = .next t) :
    c.legal = true ∧ t = State.resetWith c := by
  rw [step_of_reset hr] at h
  cases hc : c.legal with
  | false => simp [takeReset_of_illegal hc] at h
  | true => exact ⟨rfl, by simpa [takeReset_of_legal hc] using h.symm⟩

/-! ## Every step keeps the invariant (10_state.md R24, R27, R31) -/

/-- Entering the fault state with a cause keeps the invariant. -/
theorem Block.Inv.enterFault {b : Block} (h : b.Inv) {c : FaultCause} (hc : c ≠ .none) :
    (b.setSys { fault := true, faultCause := c }).Inv :=
  ⟨h.legal, h.capIn, h.capOut, h.isn, h.bsIn, h.bsOut, h.ra, h.tx, h.pr, by simp [hc]⟩

/-- A change of OUT that leaves its counter of pops, and does not unfinish it, keeps the invariant: the sender's
part speaks of nothing else of OUT. -/
theorem Block.Inv.setOut {b : Block} (h : b.Inv) {out : Stream} (hout : out.holds = true)
    (hcap : out.capacity = b.bsOut.capacity) (hpopped : out.bytesPopped = b.bsOut.bytesPopped)
    (hfin : b.bsOut.isFinished = true → out.isFinished = true) : (b.setOut out).Inv := by
  have htx : b.tx.holds out = true := by
    rw [Sender.holds_iff, hpopped]
    exact (b.tx.holds_iff b.bsOut).1 h.tx.holds
  exact ⟨h.legal, h.capIn, hcap.trans h.capOut, h.isn, h.bsIn, hout, h.ra,
    { h.tx with holds := htx, finLast := fun hs => hfin (h.tx.finLast hs) }, h.pr, h.sys⟩

/-- A push leaves the count of pops, and appends nothing to a finished stream (41_bytestream.md R130). -/
theorem bsPush_finished {s s' : Stream} {d : List Byte} {k : Nat} (h : bsPush s d = .ok (s', k)) :
    s'.bytesPopped = s.bytesPopped ∧ (s.isFinished = true → s'.isFinished = true) := by
  rcases bsPush_ok h with ⟨-, rfl, -⟩ | ⟨hc, -, -, p, -, rfl⟩
  · exact ⟨rfl, id⟩
  · exact ⟨rfl, fun hs => by simp [Stream.isFinished, hc] at hs⟩

theorem bsClose_finished {s : Stream} (h : s.isFinished = true) : (bsClose s).isFinished = true := by
  simp only [Stream.isFinished, Bool.and_eq_true] at h
  simpa [Stream.isFinished] using h.2

/-- A command that is performed keeps the invariant. -/
theorem Performs.inv {b b' : Block} {i : Instr} {r : Response} (h : Performs b i b' r) (hb : b.Inv) :
    b'.Inv := by
  cases h with
  | bsPush hpush =>
    obtain ⟨hholds, -, hcap⟩ := bsPush_keeps hpush hb.bsOut
    obtain ⟨hpopped, hfin⟩ := bsPush_finished hpush
    exact hb.setOut hholds hcap hpopped hfin
  | bsClose => exact hb.setOut hb.bsOut rfl rfl bsClose_finished
  | bsSeterr sel =>
    cases sel with
    | inbound =>
      exact hb.of_inbound hb.bsIn (Reassembler.inv_bsSetError hb.ra) rfl rfl rfl rfl rfl rfl
    | outbound => exact hb.setOut hb.bsOut rfl rfl id
  | bsPop hpop =>
    obtain ⟨hholds, -, hcap, hpushed, hbuf⟩ := bsPop_keeps hpop hb.bsIn
    exact hb.of_inbound hholds (Reassembler.inv_of_pop hb.ra hcap hpushed (by simp [hbuf])) hcap
      rfl rfl rfl rfl rfl
  | raInsert hfits hinsert =>
    obtain ⟨hholds, hra, -, hcap, -⟩ := raInsert_keeps hb.bsIn hb.ra hfits hinsert
    exact hb.of_inbound hholds hra hcap rfl rfl rfl rfl rfl
  | rxRecv hrx => exact (rxReceive_inv hb hrx).1
  | txPush hpush => exact (txPush_inv hb hpush).1
  | txRecv sd => exact (txReceive_inv hb _).1
  | txTick htick => exact (txTick_inv hb htick).1
  | prRecv hrecv => exact (prReceive_inv hb hrecv).1
  | prPush hpush => exact (txPush_inv hb hpush).1
  | prTick htick => exact (prTick_inv hb htick).1

theorem Ends.inv {i : Instr} {s t : State} (h : Ends i s t) (hs : s.Inv) : t.Inv := by
  cases h with
  | answered r ht => exact ht ▸ hs
  | faulted c hc hf ht => exact ht ▸ Block.Inv.enterFault hs hc
  | performed b r hf hb hchecked ht => exact ht ▸ hb.inv hs

/-- Settles O14: a reset gives a state of the invariant, and every end of a command keeps it. -/
theorem stepKeepsTheInvariant : Obligations.StepKeepsTheInvariant := by
  intro s t hs h
  cases hr : s.resetIn with
  | some c =>
    obtain ⟨hc, rfl⟩ := step_next_of_reset hr h
    exact Block.inv_reset hc
  | none =>
    rcases step_next hr h with ⟨hblock, -⟩ | ⟨i, rest, hexec⟩
    · rw [State.Inv, hblock]; exact hs
    · exact (exec_ends i _ t hexec).inv hs

/-! ## What moves one way only (10_state.md R23, R34, R45) -/

/-- A stream after a command: its capacity stays, its counters and its flags only rise (R23, R24). -/
structure Stream.Advances (s s' : Stream) : Prop where
  capacity : s'.capacity = s.capacity
  pushed : s.bytesPushed ≤ s'.bytesPushed
  popped : s.bytesPopped ≤ s'.bytesPopped
  flags : s.keepsFlags s' = true

theorem Stream.Advances.refl (s : Stream) : s.Advances s :=
  ⟨rfl, BitVec.le_refl _, BitVec.le_refl _, s.keepsFlags_refl⟩

theorem Stream.Advances.trans {s t u : Stream} (h : s.Advances t) (h' : t.Advances u) : s.Advances u :=
  ⟨h'.capacity.trans h.capacity, BitVec.le_trans h.pushed h'.pushed, BitVec.le_trans h.popped h'.popped,
    Stream.keepsFlags_trans h.flags h'.flags⟩

theorem Stream.advances_bsClose (s : Stream) : s.Advances (bsClose s) :=
  ⟨rfl, BitVec.le_refl _, BitVec.le_refl _, s.keepsFlags_bsClose⟩

theorem Stream.advances_bsSetError (s : Stream) : s.Advances (bsSetError s) :=
  ⟨rfl, BitVec.le_refl _, BitVec.le_refl _, s.keepsFlags_bsSetError⟩

/-- A counter whose stored sum did not overflow has not fallen. -/
theorem le_of_toNat_eq_add {v w : U64} {n : Nat} (h : w.toNat = v.toNat + n) : v ≤ w := by
  rw [BitVec.le_def]; omega

/-- A push raises the counter of pushes and no flag. -/
theorem bsPush_advances {s s' : Stream} {d : List Byte} {k : Nat} (h : bsPush s d = .ok (s', k)) :
    s.Advances s' ∧ s'.closed = s.closed ∧ s'.error = s.error := by
  rcases bsPush_ok h with ⟨-, rfl, -⟩ | ⟨-, -, -, p, hp, rfl⟩
  · exact ⟨.refl _, rfl, rfl⟩
  · exact ⟨⟨rfl, le_of_toNat_eq_add hp, BitVec.le_refl _, s.keepsFlags_refl⟩, rfl, rfl⟩

/-- A pop raises the counter of pops and no flag. -/
theorem bsPop_advances {policy : PopPolicy} {s s' : Stream} {n k : Nat} (h : bsPop policy s n = .ok (s', k)) :
    s.Advances s' ∧ s'.closed = s.closed ∧ s'.error = s.error := by
  obtain ⟨-, -, p, hp, rfl⟩ := bsPop_ok h
  exact ⟨⟨rfl, BitVec.le_refl _, le_of_toNat_eq_add hp, s.keepsFlags_refl⟩, rfl, rfl⟩

/-- The sender after a command: its zero point stays, its position and its flags only rise (R29, R45). -/
structure Sender.Advances (t t' : Sender) : Prop where
  zeroPoint : t'.zeroPoint = t.zeroPoint
  bytesSent : t.bytesSent ≤ t'.bytesSent
  synSent : t.synSent = true → t'.synSent = true
  finSent : t.finSent = true → t'.finSent = true

theorem Sender.Advances.refl (t : Sender) : t.Advances t := ⟨rfl, BitVec.le_refl _, id, id⟩

theorem Sender.Advances.trans {t u v : Sender} (h : t.Advances u) (h' : u.Advances v) : t.Advances v :=
  ⟨h'.zeroPoint.trans h.zeroPoint, BitVec.le_trans h.bytesSent h'.bytesSent, h'.synSent ∘ h.synSent,
    h'.finSent ∘ h.finSent⟩

/-- The reassembler after a command: its position only rises, and its end stays known (R45, R161). -/
structure Reassembler.Advances (r r' : Reassembler) : Prop where
  nextIndex : r.nextIndex ≤ r'.nextIndex
  endIndex : r.endIndex ≠ none → r'.endIndex ≠ none

theorem Reassembler.Advances.refl (r : Reassembler) : r.Advances r := ⟨BitVec.le_refl _, id⟩

theorem Reassembler.Advances.trans {r s t : Reassembler} (h : r.Advances s) (h' : s.Advances t) :
    r.Advances t :=
  ⟨BitVec.le_trans h.nextIndex h'.nextIndex, h'.endIndex ∘ h.endIndex⟩

/-- The block after a command. TX.bytes_acked and PR.time_of_last_receipt_ms stand apart: they rise only where
the invariant holds. -/
structure Block.Advances (b b' : Block) : Prop where
  cfg : b'.cfg = b.cfg
  bsIn : b.bsIn.Advances b'.bsIn
  bsOut : b.bsOut.Advances b'.bsOut
  ra : b.ra.Advances b'.ra
  rx : b.rx.synSeen = true → b'.rx = b.rx
  tx : b.tx.Advances b'.tx
  clock : b.pr.cumulativeTimeMs ≤ b'.pr.cumulativeTimeMs
  sys : b'.sys = b.sys

theorem Block.Advances.refl (b : Block) : b.Advances b :=
  ⟨rfl, .refl _, .refl _, .refl _, fun _ => rfl, .refl _, BitVec.le_refl _, rfl⟩

theorem Block.Advances.trans {b c d : Block} (h : b.Advances c) (h' : c.Advances d) : b.Advances d where
  cfg := h'.cfg.trans h.cfg
  bsIn := h.bsIn.trans h'.bsIn
  bsOut := h.bsOut.trans h'.bsOut
  ra := h.ra.trans h'.ra
  rx hs := (h'.rx ((h.rx hs).symm ▸ hs)).trans (h.rx hs)
  tx := h.tx.trans h'.tx
  clock := BitVec.le_trans h.clock h'.clock
  sys := h'.sys.trans h.sys

theorem Block.Advances.setIn {b : Block} {inn : Stream} (h : b.bsIn.Advances inn) : b.Advances (b.setIn inn) :=
  { Block.Advances.refl b with bsIn := h }

theorem Block.Advances.setOut {b : Block} {out : Stream} (h : b.bsOut.Advances out) :
    b.Advances (b.setOut out) :=
  { Block.Advances.refl b with bsOut := h }

theorem Block.Advances.setRa {b : Block} {r : Reassembler} (h : b.ra.Advances r) : b.Advances (b.setRa r) :=
  { Block.Advances.refl b with ra := h }

theorem Block.Advances.setRx {b : Block} {r : Receiver} (h : b.rx.synSeen = true → r = b.rx) :
    b.Advances (b.setRx r) :=
  { Block.Advances.refl b with rx := h }

theorem Block.Advances.setTx {b : Block} {t : Sender} (h : b.tx.Advances t) : b.Advances (b.setTx t) :=
  { Block.Advances.refl b with tx := h }

theorem Block.Advances.setPr {b : Block} {p : Peer} (h : b.pr.cumulativeTimeMs ≤ p.cumulativeTimeMs) :
    b.Advances (b.setPr p) :=
  { Block.Advances.refl b with clock := h }

/-! ## The inbound functions (42_reassembler.md R161, 43_receiver.md R191) -/

/-- Everything `RA_insert` can do when it does not fault, from any state: it pushes a run, moves next_index past
it, records the end with LAST, and closes IN where the end is reached. -/
theorem raInsert_ok {r r' : Reassembler} {inn inn' : Stream} {f l : Nat} {d : List Byte} {last : Bool}
    (h : raInsert r inn f d last = .ok (r', inn', l)) :
    ∃ (inn1 : Stream) (run : List Byte) (k : Nat), bsPush inn run = .ok (inn1, k) ∧
      r'.nextIndex.toNat = r.nextIndex.toNat + run.length ∧
      r'.endIndex = (if last then some (BitVec.ofNat 64 (f + d.length)) else r.endIndex) ∧
      inn' = if r'.ended then bsClose inn1 else inn1 := by
  obtain ⟨r1, hend, h⟩ := except_bind_ok.1 h
  obtain ⟨⟨r2, inn1, run⟩, hdeliver, h⟩ := except_bind_ok.1 h
  obtain ⟨⟨inn2, k⟩, hpush, hdeliver⟩ := except_bind_ok.1 hdeliver
  obtain ⟨next, hnext, hdeliver⟩ := except_bind_ok.1 hdeliver
  simp only [pure, Except.pure, Except.ok.injEq, Prod.mk.injEq] at h hdeliver
  obtain ⟨rfl, rfl, -⟩ := hdeliver
  obtain ⟨rfl, rfl, -⟩ := h
  have hr1 : r1.nextIndex = r.nextIndex ∧
      r1.endIndex = (if last then some (BitVec.ofNat 64 (f + d.length)) else r.endIndex) := by
    cases last with
    | false =>
      obtain rfl : r = r1 := by simpa [Reassembler.noteEnd] using hend
      exact ⟨rfl, rfl⟩
    | true =>
      obtain ⟨e, he, hend⟩ := except_bind_ok.1 hend
      simp only [pure, Except.pure, Except.ok.injEq] at hend
      subst hend
      have he : e = BitVec.ofNat 64 (f + d.length) := by rw [← store64_ok.1 he]; simp
      exact ⟨rfl, congrArg some he⟩
  refine ⟨inn2, _, k, hpush, ?_, hr1.2, rfl⟩
  rw [store64_ok.1 hnext, Reassembler.merge_nextIndex, hr1.1]

theorem raInsert_advances {r r' : Reassembler} {inn inn' : Stream} {f l : Nat} {d : List Byte} {last : Bool}
    (h : raInsert r inn f d last = .ok (r', inn', l)) :
    r.Advances r' ∧ inn.Advances inn' ∧ inn'.error = inn.error ∧
      (last = false → r'.endIndex = r.endIndex) := by
  obtain ⟨inn1, run, k, hpush, hnext, hend, rfl⟩ := raInsert_ok h
  obtain ⟨hadv, -, herror⟩ := bsPush_advances hpush
  refine ⟨⟨le_of_toNat_eq_add hnext, fun hr => ?_⟩, ?_, ?_, fun hlast => ?_⟩
  · rw [hend]
    split
    · simp
    · exact hr
  · split
    · exact hadv.trans inn1.advances_bsClose
    · exact hadv
  · rw [apply_ite Stream.error, bsClose_error, ite_self, herror]
  · rw [hend, hlast]; rfl

theorem Receiver.noteSyn_of_seen {r : Receiver} (h : r.synSeen = true) (m : SenderMessage) : r.noteSyn m = r := by
  simp [Receiver.noteSyn, h]

theorem Receiver.noteSyn_of_not_syn {m : SenderMessage} (h : m.syn = false) (r : Receiver) : r.noteSyn m = r := by
  simp [Receiver.noteSyn, h]

/-- `RX_receive` writes IN, RA and RX alone. -/
theorem rxReceive_frame {b b' : Block} {m : SenderMessage} (h : rxReceive b m = .ok b') :
    ∃ rx ra inn, b' = ((b.setRx rx).setRa ra).setIn inn := by
  rcases rxReceive_ok h with ⟨-, rfl⟩ | ⟨-, -, -, rfl⟩ | ⟨-, -, ⟨-, rfl⟩ | ⟨idx, ra, inn, l, -, -, rfl⟩⟩
  · exact ⟨b.rx, b.ra, _, rfl⟩
  · exact ⟨b'.rx, b'.ra, b'.bsIn, rfl⟩
  · exact ⟨b'.rx, b'.ra, b'.bsIn, rfl⟩
  · exact ⟨_, _, _, rfl⟩

/-- `RX_receive` sets IN.error only for RST, RX.syn_seen only for SYN without RST, and RA.end_index only for
FIN (10_state.md R45). -/
theorem rxReceive_flags {b b' : Block} {m : SenderMessage} (h : rxReceive b m = .ok b') :
    (m.rst = false → b'.bsIn.error = b.bsIn.error) ∧
      (b'.rx = b.rx ∨ (m.syn = true ∧ m.rst = false)) ∧
      (m.fin = false → b'.ra.endIndex = b.ra.endIndex) := by
  rcases rxReceive_ok h with ⟨hr, rfl⟩ | ⟨-, -, -, rfl⟩ | ⟨hr, -, ⟨-, rfl⟩ | ⟨idx, ra, inn, l, -, hi, rfl⟩⟩
  · exact ⟨fun hr' => by simp [hr] at hr', .inl rfl, fun _ => rfl⟩
  · exact ⟨fun _ => rfl, .inl rfl, fun _ => rfl⟩
  · exact ⟨fun _ => rfl, .inl rfl, fun _ => rfl⟩
  · obtain ⟨-, -, herror, hend⟩ := raInsert_advances hi
    refine ⟨fun _ => herror, ?_, hend⟩
    cases hs : m.syn with
    | false => exact .inl (Receiver.noteSyn_of_not_syn hs b.rx)
    | true => exact .inr ⟨rfl, hr⟩

theorem rxReceive_advances {b b' : Block} {m : SenderMessage} (h : rxReceive b m = .ok b') :
    b.Advances b' := by
  rcases rxReceive_ok h with ⟨-, rfl⟩ | ⟨-, -, -, rfl⟩ | ⟨-, -, ⟨-, rfl⟩ | ⟨idx, ra, inn, l, -, hi, rfl⟩⟩
  · exact .setIn b.bsIn.advances_bsSetError
  · exact .refl _
  · exact .refl _
  · obtain ⟨hra, hin, -, -⟩ := raInsert_advances hi
    have hrx : b.Advances (b.setRx (b.rx.noteSyn m)) := .setRx fun hs => Receiver.noteSyn_of_seen hs m
    exact (hrx.trans (.setRa hra)).trans (.setIn hin)

/-! ## The outbound functions (44_sender.md R212, R218, R224) -/

/-- What `TX_push` does: it writes OUT and TX alone, no flag of OUT, not bytes_acked, and stops no timer. -/
structure Block.Pushes (b b' : Block) : Prop where
  frame : ∃ out t, b' = (b.setOut out).setTx t
  closed : b'.bsOut.closed = b.bsOut.closed
  error : b'.bsOut.error = b.bsOut.error
  acked : b'.tx.bytesAcked = b.tx.bytesAcked
  running : b.tx.timerRunning = true → b'.tx.timerRunning = true
  advances : b.Advances b'

theorem Block.Pushes.refl (b : Block) : b.Pushes b :=
  ⟨⟨b.bsOut, b.tx, rfl⟩, rfl, rfl, rfl, id, .refl b⟩

theorem Block.Pushes.trans {b c d : Block} (h : b.Pushes c) (h' : c.Pushes d) : b.Pushes d where
  frame := by
    obtain ⟨_, _, hc⟩ := h.frame
    obtain ⟨out, t, hd⟩ := h'.frame
    exact ⟨out, t, hd.trans (by rw [hc]; rfl)⟩
  closed := h'.closed.trans h.closed
  error := h'.error.trans h.error
  acked := h'.acked.trans h.acked
  running := h'.running ∘ h.running
  advances := h.advances.trans h'.advances

theorem txPass_pushes {e : Emission} {b b' : Block} {sd : Sd} (h : txPass e b = .ok (some (b', sd))) :
    b.Pushes b' := by
  rcases txPass_ok h with ⟨ho, -⟩ | ⟨-, -, out, sent, hp, hsent, -, ho⟩
  · cases ho
  · injection ho with ho
    injection ho with hb' _
    subst hb'
    obtain ⟨hout, hclosed, herror⟩ := bsPop_advances hp
    have htx : b.tx.Advances (b.tx.afterSend b.cfg (b.segment out) sent) :=
      ⟨rfl, le_of_toNat_eq_add hsent, fun hs => by simp [Sender.afterSend, hs],
        fun hs => by simp [Sender.afterSend, hs]⟩
    have hadv : b.Advances (b.setOut out) := .setOut hout
    exact ⟨⟨out, _, rfl⟩, hclosed, herror, rfl, fun _ => rfl, hadv.trans (.setTx htx)⟩

/-- A run of passes does what a pass does; where nothing is emitted it does nothing. -/
theorem txPasses_pushes {e : Emission} {fuel : Nat} {b b' : Block} {sds : List Sd}
    (h : txPasses e fuel b = .ok (b', sds)) : b.Pushes b' ∧ (sds = [] → b' = b) := by
  induction fuel generalizing b sds with
  | zero =>
    simp only [txPasses, Except.ok.injEq, Prod.mk.injEq] at h
    exact ⟨h.1 ▸ .refl b, fun _ => h.1.symm⟩
  | succ fuel ih =>
    rw [txPasses] at h
    obtain ⟨o, ho, h⟩ := except_bind_ok.1 h
    cases o with
    | none =>
      simp only [pure, Except.pure, Except.ok.injEq, Prod.mk.injEq] at h
      exact ⟨h.1 ▸ .refl b, fun _ => h.1.symm⟩
    | some x =>
      obtain ⟨⟨b2, sds'⟩, hrest, h⟩ := except_bind_ok.1 h
      simp only [pure, Except.pure, Except.ok.injEq, Prod.mk.injEq] at h
      obtain ⟨rfl, rfl⟩ := h
      exact ⟨(txPass_pushes ho).trans (ih hrest).1, nofun⟩

/-- An acknowledgment writes the queue, bytes_acked, the RTO, the elapsed time and the counter; bytes_acked does
not fall when the queue is contiguous (R221). -/
theorem Sender.acknowledge_cases (c : Config) (t : Sender) (w : U32) :
    ∃ (q : List OutEntry) (acked rto el n : U64),
      t.acknowledge c w =
        { t with outstanding := q, bytesAcked := acked, rto := rto, timerElapsed := el, consecutiveRetx := n } ∧
      (contiguousFrom t.bytesAcked.toNat t.outstanding = true → t.bytesAcked ≤ acked) := by
  unfold Sender.acknowledge
  dsimp only
  split
  · refine ⟨_, _, _, _, _, rfl, fun hc => ?_⟩
    obtain ⟨-, -, hle, -⟩ := popAcked_spec (unwrap_lt w t.zeroPoint t.bytesAcked.toNat) hc
    exact hle
  · exact ⟨_, _, _, _, _, rfl, fun _ => BitVec.le_refl _⟩

/-- Everything `TX_receive` can do (R218): with RST it sets OUT.error; else it writes TX, where the timer only
stops, and only with the queue empty. -/
theorem txReceive_cases (b : Block) (m : ReceiverMessage) :
    (m.rst = true ∧ txReceive b m = b.setOut (bsSetError b.bsOut)) ∨
      (m.rst = false ∧ ∃ t : Sender, txReceive b m = b.setTx t ∧
        t.zeroPoint = b.tx.zeroPoint ∧ t.bytesSent = b.tx.bytesSent ∧ t.synSent = b.tx.synSent ∧
        t.finSent = b.tx.finSent ∧
        (t.timerRunning = b.tx.timerRunning ∨ (t.timerRunning = false ∧ t.outstanding = [])) ∧
        (contiguousFrom b.tx.bytesAcked.toNat b.tx.outstanding = true → b.tx.bytesAcked ≤ t.bytesAcked)) := by
  have hstop (t : Sender) : t.stopIfEmpty = t ∨
      (t.outstanding = [] ∧ t.stopIfEmpty = { t with timerRunning := false }) := by
    unfold Sender.stopIfEmpty
    split
    · rename_i hq; exact .inr ⟨List.isEmpty_iff.1 hq, rfl⟩
    · exact .inl rfl
  unfold txReceive
  split
  · exact .inl ⟨‹_›, rfl⟩
  · rename_i hrst
    refine .inr ⟨by simpa using hrst, _, rfl, ?_⟩
    cases m.ackno with
    | none =>
      dsimp only
      rcases hstop { b.tx with windowSize := m.windowSize } with he | ⟨hq, he⟩ <;> rw [he]
      · exact ⟨rfl, rfl, rfl, rfl, .inl rfl, fun _ => BitVec.le_refl _⟩
      · exact ⟨rfl, rfl, rfl, rfl, .inr ⟨rfl, hq⟩, fun _ => BitVec.le_refl _⟩
    | some w =>
      dsimp only
      obtain ⟨q, acked, rto, el, n, ht, hacked⟩ :=
        Sender.acknowledge_cases b.cfg { b.tx with windowSize := m.windowSize } w
      rw [ht]
      rcases hstop { b.tx with
        windowSize := m.windowSize, outstanding := q, bytesAcked := acked, rto := rto, timerElapsed := el
        consecutiveRetx := n } with he | ⟨hq, he⟩ <;> rw [he]
      · exact ⟨rfl, rfl, rfl, rfl, .inl rfl, hacked⟩
      · exact ⟨rfl, rfl, rfl, rfl, .inr ⟨rfl, hq⟩, hacked⟩

/-- `TX_receive` writes OUT and TX alone. -/
theorem txReceive_frame (b : Block) (m : ReceiverMessage) : ∃ out t, txReceive b m = (b.setOut out).setTx t := by
  rcases txReceive_cases b m with ⟨-, he⟩ | ⟨-, t, he, -⟩
  · exact ⟨bsSetError b.bsOut, b.tx, he⟩
  · exact ⟨b.bsOut, t, he⟩

theorem txReceive_advances (b : Block) (m : ReceiverMessage) : b.Advances (txReceive b m) := by
  rcases txReceive_cases b m with ⟨-, he⟩ | ⟨-, t, he, hzero, hsent, hsyn, hfin, -⟩ <;> rw [he]
  · exact .setOut b.bsOut.advances_bsSetError
  · exact .setTx ⟨hzero, hsent ▸ BitVec.le_refl _, fun h => hsyn.trans h, fun h => hfin.trans h⟩

/-- `TX_tick` writes the RTO, the elapsed time and the counter alone. -/
theorem txTick_frame {ms : Nat} {e : Emission} {b b' : Block} {sds : List Sd}
    (h : txTick ms e b = .ok (b', sds)) :
    ∃ el rto n : U64, b' = b.setTx { b.tx with timerElapsed := el, rto := rto, consecutiveRetx := n } := by
  obtain ⟨el, -, ⟨-, -, rfl⟩ | ⟨-, -, rto, n, -, -, rfl⟩⟩ := txTick_ok h
  · exact ⟨el, b.tx.rto, b.tx.consecutiveRetx, rfl⟩
  · exact ⟨0, rto, n, rfl⟩

theorem txTick_advances {ms : Nat} {e : Emission} {b b' : Block} {sds : List Sd}
    (h : txTick ms e b = .ok (b', sds)) : b.Advances b' := by
  obtain ⟨el, rto, n, rfl⟩ := txTick_frame h
  exact .setTx ⟨rfl, BitVec.le_refl _, id, id⟩

/-! ## The peer's functions (45_peer.md R251, R257) -/

/-- PR.RECV's body in its parts: the receipt is timed, the receiver and the sender take the message, and the
linger flag may be cleared. -/
theorem prReceive_cases {b b' : Block} {sm : SenderMessage} {rm : ReceiverMessage} {sds : List Sd}
    (h : prReceive b sm rm = .ok (b', sds)) :
    ∃ b1 linger, rxReceive (b.setPr { b.pr with timeOfLastReceiptMs := b.pr.cumulativeTimeMs }) sm = .ok b1 ∧
      (linger = b.pr.linger ∨ linger = false) ∧
      b' = (txReceive b1 rm).setPr
        { b.pr with linger := linger, timeOfLastReceiptMs := b.pr.cumulativeTimeMs } := by
  obtain ⟨b1, hrx, rfl, -⟩ := prReceive_ok h
  have hpr : (txReceive b1 rm).pr = { b.pr with timeOfLastReceiptMs := b.pr.cumulativeTimeMs } := by
    obtain ⟨rx, ra, inn, rfl⟩ := rxReceive_frame hrx
    obtain ⟨out, t, he⟩ := txReceive_frame (((Block.setRx _ rx).setRa ra).setIn inn) rm
    rw [he]; rfl
  rcases (txReceive b1 rm).updateLinger_eq with he | he
  · exact ⟨b1, b.pr.linger, hrx, .inl rfl, he.trans (congrArg (txReceive b1 rm).setPr hpr)⟩
  · exact ⟨b1, false, hrx, .inr rfl, by rw [he, hpr]⟩

theorem prReceive_advances {b b' : Block} {sm : SenderMessage} {rm : ReceiverMessage} {sds : List Sd}
    (h : prReceive b sm rm = .ok (b', sds)) : b.Advances b' := by
  obtain ⟨b1, hrx, rfl, -⟩ := prReceive_ok h
  have hpr : b.Advances (b.setPr { b.pr with timeOfLastReceiptMs := b.pr.cumulativeTimeMs }) :=
    .setPr (BitVec.le_refl _)
  have hlinger (c : Block) : c.Advances c.updateLinger := by
    rcases c.updateLinger_eq with he | he <;> rw [he]
    · exact .refl c
    · exact .setPr (BitVec.le_refl _)
  exact ((hpr.trans (rxReceive_advances hrx)).trans (txReceive_advances b1 rm)).trans (hlinger _)

/-- PR.TICK's body advances the clock, and else writes what `TX_tick` writes. -/
theorem prTick_frame {ms : Nat} {b b' : Block} {sds : List Sd} (h : prTick ms b = .ok (b', sds)) :
    ∃ now el rto n : U64, now.toNat = b.pr.cumulativeTimeMs.toNat + ms ∧
      b' = (b.setPr { b.pr with cumulativeTimeMs := now }).setTx
        { b.tx with timerElapsed := el, rto := rto, consecutiveRetx := n } := by
  obtain ⟨now, hnow, htick⟩ := prTick_ok h
  obtain ⟨el, rto, n, rfl⟩ := txTick_frame htick
  exact ⟨now, el, rto, n, hnow, rfl⟩

theorem prTick_advances {ms : Nat} {b b' : Block} {sds : List Sd} (h : prTick ms b = .ok (b', sds)) :
    b.Advances b' := by
  obtain ⟨now, hnow, htick⟩ := prTick_ok h
  have hpr : b.Advances (b.setPr { b.pr with cumulativeTimeMs := now }) := .setPr (le_of_toNat_eq_add hnow)
  exact hpr.trans (txTick_advances htick)

/-! ## Configuration and counters (10_state.md R23, R34) -/

/-- A command that is performed advances the block. -/
theorem Performs.advances {b b' : Block} {i : Instr} {r : Response} (h : Performs b i b' r) : b.Advances b' := by
  cases h with
  | bsPush hpush => exact .setOut (bsPush_advances hpush).1
  | bsClose => exact .setOut b.bsOut.advances_bsClose
  | bsSeterr sel =>
    cases sel with
    | inbound => exact .setIn b.bsIn.advances_bsSetError
    | outbound => exact .setOut b.bsOut.advances_bsSetError
  | bsPop hpop => exact .setIn (bsPop_advances hpop).1
  | raInsert _ hinsert =>
    obtain ⟨hra, hin, -⟩ := raInsert_advances hinsert
    have hadv : b.Advances (b.setRa _) := .setRa hra
    exact hadv.trans (.setIn hin)
  | rxRecv hrx => exact rxReceive_advances hrx
  | txPush hpush => exact (txPasses_pushes hpush).1.advances
  | txRecv sd => exact txReceive_advances b _
  | txTick htick => exact txTick_advances htick
  | prRecv hrecv => exact prReceive_advances hrecv
  | prPush hpush => exact (txPasses_pushes hpush).1.advances
  | prTick htick => exact prTick_advances htick

/-- Every end of a command advances the block, but for SYS, which a fault writes. -/
theorem Ends.advances {i : Instr} {s t : State} (h : Ends i s t) :
    s.block.Advances (t.block.setSys s.block.sys) := by
  cases h with
  | answered r ht => exact ht ▸ .refl _
  | faulted c _ _ ht => exact ht ▸ .refl _
  | performed b r _ hb _ ht => exact ht ▸ { hb.advances with sys := rfl }

/-- So does every step that takes no reset. -/
theorem step_advances {s t : State} (hr : s.resetIn = none) (h : step s = .next t) :
    s.block.Advances (t.block.setSys s.block.sys) := by
  rcases step_next hr h with ⟨hblock, -⟩ | ⟨i, rest, hexec⟩
  · rw [hblock]; exact .refl _
  · exact (exec_ends i _ t hexec).advances

theorem Ends.resetIn {i : Instr} {s t : State} (h : Ends i s t) : t.resetIn = s.resetIn := by
  cases h with
  | answered r ht => rw [ht, State.answer_resetIn]
  | faulted c _ _ ht => rw [ht, State.enterFault_resetIn]
  | performed b r _ _ _ ht => rw [ht, State.answer_resetIn, State.setBlock_resetIn]

theorem step_resetIn {s t : State} (hr : s.resetIn = none) (h : step s = .next t) : t.resetIn = none := by
  rcases step_next hr h with ⟨-, ht⟩ | ⟨i, rest, hexec⟩
  · exact ht
  · exact (exec_ends i _ t hexec).resetIn.trans hr

/-- Settles O25: a block that advances keeps its configuration, its capacities and its zero points. -/
theorem configurationNeverChanges : Obligations.ConfigurationNeverChanges := by
  intro s t hr h
  have hadv := step_advances hr h
  refine ⟨step_resetIn hr h, hadv.cfg, fun sel => ?_, hadv.tx.zeroPoint, fun hs => ?_⟩
  · cases sel with
    | inbound => exact hadv.bsIn.capacity
    | outbound => exact hadv.bsOut.capacity
  · exact congrArg Receiver.zeroPoint (hadv.rx hs)

theorem Block.Inv.contiguous {b : Block} (h : b.Inv) :
    contiguousFrom b.tx.bytesAcked.toNat b.tx.outstanding = true := h.tx.mid.contiguous

theorem txReceive_acked_le {b : Block} (hb : contiguousFrom b.tx.bytesAcked.toNat b.tx.outstanding = true)
    (m : ReceiverMessage) : b.tx.bytesAcked ≤ (txReceive b m).tx.bytesAcked := by
  rcases txReceive_cases b m with ⟨-, he⟩ | ⟨-, t, he, -, -, -, -, -, hacked⟩ <;> rw [he]
  · exact BitVec.le_refl _
  · exact hacked hb

/-- TX.bytes_acked does not fall: what an acknowledgment removes from a contiguous queue lies above it (R221). -/
theorem Performs.acked_le {b b' : Block} {i : Instr} {r : Response} (h : Performs b i b' r) (hb : b.Inv) :
    b.tx.bytesAcked ≤ b'.tx.bytesAcked := by
  cases h with
  | bsPush _ => exact BitVec.le_refl _
  | bsClose => exact BitVec.le_refl _
  | bsSeterr sel => cases sel <;> exact BitVec.le_refl _
  | bsPop _ => exact BitVec.le_refl _
  | raInsert _ _ => exact BitVec.le_refl _
  | rxRecv hrx =>
    obtain ⟨rx, ra, inn, rfl⟩ := rxReceive_frame hrx
    exact BitVec.le_refl _
  | txPush hpush => exact (txPasses_pushes hpush).1.acked ▸ BitVec.le_refl _
  | txRecv sd => exact txReceive_acked_le hb.contiguous _
  | txTick htick =>
    obtain ⟨el, rto, n, rfl⟩ := txTick_frame htick
    exact BitVec.le_refl _
  | prRecv hrecv =>
    obtain ⟨b1, linger, hrx, -, rfl⟩ := prReceive_cases hrecv
    have htx : b1.tx = b.tx := by
      obtain ⟨rx, ra, inn, rfl⟩ := rxReceive_frame hrx
      rfl
    rw [← htx]
    exact txReceive_acked_le (htx ▸ hb.contiguous) _
  | prPush hpush => exact (txPasses_pushes hpush).1.acked ▸ BitVec.le_refl _
  | prTick htick =>
    obtain ⟨now, el, rto, n, -, rfl⟩ := prTick_frame htick
    exact BitVec.le_refl _

/-- What a command does to PR: nothing, or PR.TICK moves the clock, or PR.RECV times a receipt and may clear the
linger flag (45_peer.md R251, R253, R257). -/
theorem Performs.pr_cases {b b' : Block} {i : Instr} {r : Response} (h : Performs b i b' r) :
    b'.pr = b.pr ∨ (∃ now, b'.pr = { b.pr with cumulativeTimeMs := now }) ∨
      ∃ sd linger, i = .prRecv sd ∧ (linger = b.pr.linger ∨ linger = false) ∧
        b'.pr = { b.pr with linger := linger, timeOfLastReceiptMs := b.pr.cumulativeTimeMs } := by
  cases h with
  | bsPush _ => exact .inl rfl
  | bsClose => exact .inl rfl
  | bsSeterr sel => cases sel <;> exact .inl rfl
  | bsPop _ => exact .inl rfl
  | raInsert _ _ => exact .inl rfl
  | rxRecv hrx =>
    obtain ⟨rx, ra, inn, rfl⟩ := rxReceive_frame hrx
    exact .inl rfl
  | txPush hpush =>
    obtain ⟨out, t, rfl⟩ := (txPasses_pushes hpush).1.frame
    exact .inl rfl
  | txRecv sd =>
    obtain ⟨out, t, he⟩ := txReceive_frame b (rmOf sd)
    rw [he]; exact .inl rfl
  | txTick htick =>
    obtain ⟨el, rto, n, rfl⟩ := txTick_frame htick
    exact .inl rfl
  | prRecv hrecv =>
    obtain ⟨b1, linger, -, hlinger, rfl⟩ := prReceive_cases hrecv
    exact .inr (.inr ⟨_, linger, rfl, hlinger, rfl⟩)
  | prPush hpush =>
    obtain ⟨out, t, rfl⟩ := (txPasses_pushes hpush).1.frame
    exact .inl rfl
  | prTick htick =>
    obtain ⟨now, el, rto, n, -, rfl⟩ := prTick_frame htick
    exact .inr (.inl ⟨now, rfl⟩)

/-- The last receipt is never later than the clock, so timing a receipt does not move it back (R258). -/
theorem Performs.lastReceipt_le {b b' : Block} {i : Instr} {r : Response} (h : Performs b i b' r)
    (hb : b.Inv) : b.pr.timeOfLastReceiptMs ≤ b'.pr.timeOfLastReceiptMs := by
  rcases h.pr_cases with he | ⟨now, he⟩ | ⟨sd, linger, -, -, he⟩ <;> rw [he]
  · exact BitVec.le_refl _
  · exact BitVec.le_refl _
  · exact hb.pr

/-- The two counters that rise only under the invariant. -/
theorem step_acked_lastReceipt_le {s t : State} (hs : s.Inv) (hr : s.resetIn = none) (h : step s = .next t) :
    s.block.tx.bytesAcked ≤ t.block.tx.bytesAcked ∧
      s.block.pr.timeOfLastReceiptMs ≤ t.block.pr.timeOfLastReceiptMs := by
  rcases step_next hr h with ⟨hblock, -⟩ | ⟨i, rest, hexec⟩
  · rw [hblock]; exact ⟨BitVec.le_refl _, BitVec.le_refl _⟩
  · cases exec_ends i _ t hexec with
    | answered r ht => rw [ht]; exact ⟨BitVec.le_refl _, BitVec.le_refl _⟩
    | faulted c _ _ ht => rw [ht]; exact ⟨BitVec.le_refl _, BitVec.le_refl _⟩
    | performed b r _ hb _ ht => rw [ht]; exact ⟨hb.acked_le hs, hb.lastReceipt_le hs⟩

/-- Settles O26: a block that advances lets no counter fall, and the invariant does the rest. -/
theorem countersNeverDecrease : Obligations.CountersNeverDecrease := by
  intro s t hs hr h
  have hadv := step_advances hr h
  obtain ⟨hacked, hreceipt⟩ := step_acked_lastReceipt_le hs hr h
  refine ⟨fun sel => ?_, hadv.ra.nextIndex, hadv.tx.bytesSent, hacked, hadv.clock, hreceipt⟩
  cases sel with
  | inbound => exact ⟨hadv.bsIn.pushed, hadv.bsIn.popped⟩
  | outbound => exact ⟨hadv.bsOut.pushed, hadv.bsOut.popped⟩

/-! ## RA.next_index and IN.bytes_pushed (10_state.md R27 (c)) -/

/-- While IN takes bytes, the next index to deliver is the count of those it took. -/
def Tracks (r : Reassembler) (inn : Stream) : Prop :=
  inn.closed = false → inn.error = false → r.nextIndex = inn.bytesPushed

theorem Tracks.of_error {inn : Stream} (h : inn.error = true) (r : Reassembler) : Tracks r inn :=
  fun _ he => by simp [h] at he

/-- `RA_insert` moves next_index by the bytes it pushes when IN takes them. -/
theorem raInsert_tracks {r r' : Reassembler} {inn inn' : Stream} {f l : Nat} {d : List Byte} {last : Bool}
    (hin : inn.holds = true) (hr : r.Inv inn) (hf : f + d.length < 2 ^ 64)
    (h : raInsert r inn f d last = .ok (r', inn', l)) (ht : Tracks r inn) : Tracks r' inn' := by
  obtain ⟨r1, inn1, run, hok, -, -, hnext, -, hpush, -, -⟩ := raInsert_spec hin hr hf last
  rw [h] at hok
  simp only [Except.ok.injEq, Prod.mk.injEq] at hok
  obtain ⟨rfl, rfl, -⟩ := hok
  have h1 : Tracks r' inn1 := by
    rcases hpush with ⟨hstopped, rfl⟩ | ⟨hclosed, herror, p, hp, rfl⟩
    · intro hclosed herror
      rcases hstopped with h1 | h1
      · simp [hclosed] at h1
      · simp [herror] at h1
    · intro _ _
      apply BitVec.eq_of_toNat_eq
      rw [hnext, ht hclosed herror, hp]
  split
  · exact nofun
  · exact h1

theorem rxReceive_tracks {b b' : Block} {m : SenderMessage} (hb : b.Inv) (h : rxReceive b m = .ok b')
    (ht : Tracks b.ra b.bsIn) : Tracks b'.ra b'.bsIn := by
  rcases rxReceive_ok h with ⟨-, rfl⟩ | ⟨-, -, -, rfl⟩ | ⟨-, -, ⟨-, rfl⟩ | ⟨idx, ra, inn, l, hidx, hi, rfl⟩⟩
  · exact .of_error rfl _
  · exact ht
  · exact ht
  · exact raInsert_tracks hb.bsIn hb.ra (Receiver.streamIndex_fits hidx) hi ht

theorem Performs.tracks {b b' : Block} {i : Instr} {r : Response} (h : Performs b i b' r) (hb : b.Inv)
    (ht : Tracks b.ra b.bsIn) : Tracks b'.ra b'.bsIn := by
  cases h with
  | bsPush _ => exact ht
  | bsClose => exact ht
  | bsSeterr sel =>
    cases sel with
    | inbound => exact .of_error rfl _
    | outbound => exact ht
  | bsPop hpop =>
    obtain ⟨-, -, p, -, rfl⟩ := bsPop_ok hpop
    exact ht
  | raInsert hfits hinsert => exact raInsert_tracks hb.bsIn hb.ra hfits hinsert ht
  | rxRecv hrx => exact rxReceive_tracks hb hrx ht
  | txPush hpush =>
    obtain ⟨out, t, rfl⟩ := (txPasses_pushes hpush).1.frame
    exact ht
  | txRecv sd =>
    obtain ⟨out, t, he⟩ := txReceive_frame b (rmOf sd)
    rw [he]; exact ht
  | txTick htick =>
    obtain ⟨el, rto, n, rfl⟩ := txTick_frame htick
    exact ht
  | @prRecv sd _ _ hrecv =>
    obtain ⟨b1, linger, hrx, -, rfl⟩ := prReceive_cases hrecv
    have h1 := rxReceive_tracks (hb.setPr (Nat.le_refl _)) hrx ht
    obtain ⟨out, t, he⟩ := txReceive_frame b1 (rmOf sd)
    rw [he]; exact h1
  | prPush hpush =>
    obtain ⟨out, t, rfl⟩ := (txPasses_pushes hpush).1.frame
    exact ht
  | prTick htick =>
    obtain ⟨now, el, rto, n, -, rfl⟩ := prTick_frame htick
    exact ht

/-- Settles O16: reset starts both at 0, and every command keeps them together. -/
theorem nextIndexTracksBytesPushed : Obligations.NextIndexTracksBytesPushed := by
  intro s t hs htracks h
  change Tracks t.block.ra t.block.bsIn
  cases hr : s.resetIn with
  | some c =>
    obtain ⟨-, rfl⟩ := step_next_of_reset hr h
    exact fun _ _ => rfl
  | none =>
    rcases step_next hr h with ⟨hblock, -⟩ | ⟨i, rest, hexec⟩
    · rw [hblock]; exact htracks
    · cases exec_ends i _ t hexec with
      | answered r ht => rw [ht]; exact htracks
      | faulted c _ _ ht => rw [ht]; exact htracks
      | performed b r _ hb _ ht => rw [ht]; exact hb.tracks hs htracks

/-! ## The flags (10_state.md R45) -/

/-- What a command does to the flags of IN, RA and RX (R45, "set by"). -/
inductive InboundEffect (b b' : Block) : Instr → Prop where
  | kept (i : Instr) (hclosed : b'.bsIn.closed = b.bsIn.closed) (herror : b'.bsIn.error = b.bsIn.error)
    (hend : b'.ra.endIndex = b.ra.endIndex) (hrx : b'.rx = b.rx) : InboundEffect b b' i
  | setError (hclosed : b'.bsIn.closed = b.bsIn.closed) (hend : b'.ra.endIndex = b.ra.endIndex)
    (hrx : b'.rx = b.rx) : InboundEffect b b' (.bsSeterr .inbound)
  | inserted (last : Bool) (first : U64) (data : List Byte) (herror : b'.bsIn.error = b.bsIn.error)
    (hend : last = false → b'.ra.endIndex = b.ra.endIndex) (hrx : b'.rx = b.rx) :
    InboundEffect b b' (.raInsert last first data)
  | received (i : Instr) (sd : Sd) (hi : i = .rxRecv sd ∨ i = .prRecv sd)
    (herror : sd.rstS = false → b'.bsIn.error = b.bsIn.error)
    (hend : sd.fin = false → b'.ra.endIndex = b.ra.endIndex)
    (hrx : b'.rx = b.rx ∨ (sd.syn = true ∧ sd.rstS = false)) : InboundEffect b b' i

theorem Performs.inbound {b b' : Block} {i : Instr} {r : Response} (h : Performs b i b' r) :
    InboundEffect b b' i := by
  cases h with
  | bsPush _ => exact .kept _ rfl rfl rfl rfl
  | bsClose => exact .kept _ rfl rfl rfl rfl
  | bsSeterr sel =>
    cases sel with
    | inbound => exact .setError rfl rfl rfl
    | outbound => exact .kept _ rfl rfl rfl rfl
  | bsPop hpop =>
    obtain ⟨-, hclosed, herror⟩ := bsPop_advances hpop
    exact .kept _ hclosed herror rfl rfl
  | raInsert _ hinsert =>
    obtain ⟨-, -, herror, hend⟩ := raInsert_advances hinsert
    exact .inserted _ _ _ herror hend rfl
  | rxRecv hrx =>
    obtain ⟨herror, hsyn, hend⟩ := rxReceive_flags hrx
    exact .received _ _ (.inl rfl) herror hend hsyn
  | txPush hpush =>
    obtain ⟨out, t, rfl⟩ := (txPasses_pushes hpush).1.frame
    exact .kept _ rfl rfl rfl rfl
  | txRecv sd =>
    obtain ⟨out, t, he⟩ := txReceive_frame b (rmOf sd)
    rw [he]; exact .kept _ rfl rfl rfl rfl
  | txTick htick =>
    obtain ⟨el, rto, n, rfl⟩ := txTick_frame htick
    exact .kept _ rfl rfl rfl rfl
  | @prRecv sd _ _ hrecv =>
    obtain ⟨b1, linger, hrx, -, rfl⟩ := prReceive_cases hrecv
    obtain ⟨herror, hsyn, hend⟩ := rxReceive_flags hrx
    obtain ⟨out, t, he⟩ := txReceive_frame b1 (rmOf sd)
    rw [he]; exact .received _ sd (.inr rfl) herror hend hsyn
  | prPush hpush =>
    obtain ⟨out, t, rfl⟩ := (txPasses_pushes hpush).1.frame
    exact .kept _ rfl rfl rfl rfl
  | prTick htick =>
    obtain ⟨now, el, rto, n, -, rfl⟩ := prTick_frame htick
    exact .kept _ rfl rfl rfl rfl

/-- The SYN and FIN flags of TX stay. -/
def KeepsSynFin (b b' : Block) : Prop := b'.tx.synSent = b.tx.synSent ∧ b'.tx.finSent = b.tx.finSent

/-- What a command does to the flags of OUT and TX (R45, "set by" and "cleared by" of TX.timer_running). -/
inductive OutboundEffect (b b' : Block) (r : Response) : Instr → Prop where
  | kept (i : Instr) (hclosed : b'.bsOut.closed = b.bsOut.closed) (herror : b'.bsOut.error = b.bsOut.error)
    (htimer : b'.tx.timerRunning = b.tx.timerRunning) (hsf : KeepsSynFin b b') : OutboundEffect b b' r i
  | closed (herror : b'.bsOut.error = b.bsOut.error) (htx : b'.tx = b.tx) :
    OutboundEffect b b' r (.bsClose .outbound)
  | setError (hclosed : b'.bsOut.closed = b.bsOut.closed) (htx : b'.tx = b.tx) :
    OutboundEffect b b' r (.bsSeterr .outbound)
  | pushed (i : Instr) (hi : i = .txPush ∨ i = .prPush) (hpush : b.Pushes b') (hemit : r.emit = [] → b' = b) :
    OutboundEffect b b' r i
  | received (i : Instr) (sd : Sd) (hi : i = .txRecv sd ∨ i = .prRecv sd)
    (hclosed : b'.bsOut.closed = b.bsOut.closed) (herror : sd.rstR = false → b'.bsOut.error = b.bsOut.error)
    (htimer : b'.tx.timerRunning = b.tx.timerRunning ∨
      (b'.tx.timerRunning = false ∧ b'.tx.outstanding = []))
    (hsf : KeepsSynFin b b') : OutboundEffect b b' r i

/-- The sender takes a receiver message, from a block that has OUT and TX as they were before the command. -/
theorem OutboundEffect.of_txReceive {b b1 b' : Block} {i : Instr} {sd : Sd} {r : Response}
    (hi : i = .txRecv sd ∨ i = .prRecv sd) (hout1 : b1.bsOut = b.bsOut) (htx1 : b1.tx = b.tx)
    (hout : b'.bsOut = (txReceive b1 (rmOf sd)).bsOut) (htx : b'.tx = (txReceive b1 (rmOf sd)).tx) :
    OutboundEffect b b' r i := by
  rcases txReceive_cases b1 (rmOf sd) with ⟨hrst, he⟩ | ⟨-, t, he, -, -, hsyn, hfin, htimer, -⟩ <;>
    rw [he] at hout htx
  · simp only [Block.setOut_bsOut, Block.setOut_tx, hout1, htx1] at hout htx
    have hrst : sd.rstR = true := hrst
    exact .received i sd hi (by rw [hout, bsSetError_closed]) (by simp [hrst]) (.inl (by rw [htx]))
      ⟨by rw [htx], by rw [htx]⟩
  · simp only [Block.setTx_bsOut, Block.setTx_tx, hout1] at hout htx
    rw [htx1] at hsyn hfin htimer
    exact .received i sd hi (by rw [hout]) (fun _ => by rw [hout]) (htx ▸ htimer)
      ⟨htx ▸ hsyn, htx ▸ hfin⟩

theorem Performs.outbound {b b' : Block} {i : Instr} {r : Response} (h : Performs b i b' r) :
    OutboundEffect b b' r i := by
  cases h with
  | bsPush hpush =>
    obtain ⟨-, hclosed, herror⟩ := bsPush_advances hpush
    exact .kept _ hclosed herror rfl ⟨rfl, rfl⟩
  | bsClose => exact .closed rfl rfl
  | bsSeterr sel =>
    cases sel with
    | inbound => exact .kept _ rfl rfl rfl ⟨rfl, rfl⟩
    | outbound => exact .setError rfl rfl
  | bsPop _ => exact .kept _ rfl rfl rfl ⟨rfl, rfl⟩
  | raInsert _ _ => exact .kept _ rfl rfl rfl ⟨rfl, rfl⟩
  | rxRecv hrx =>
    obtain ⟨rx, ra, inn, rfl⟩ := rxReceive_frame hrx
    exact .kept _ rfl rfl rfl ⟨rfl, rfl⟩
  | txPush hpush => exact .pushed _ (.inl rfl) (txPasses_pushes hpush).1 (txPasses_pushes hpush).2
  | txRecv sd => exact .of_txReceive (.inl rfl) rfl rfl rfl rfl
  | txTick htick =>
    obtain ⟨el, rto, n, rfl⟩ := txTick_frame htick
    exact .kept _ rfl rfl rfl ⟨rfl, rfl⟩
  | prRecv hrecv =>
    obtain ⟨b1, linger, hrx, -, rfl⟩ := prReceive_cases hrecv
    obtain ⟨rx, ra, inn, hb1⟩ := rxReceive_frame hrx
    exact .of_txReceive (b1 := b1) (.inr rfl) (hb1 ▸ rfl) (hb1 ▸ rfl) rfl rfl
  | prPush hpush => exact .pushed _ (.inr rfl) (txPasses_pushes hpush).1 (txPasses_pushes hpush).2
  | prTick htick =>
    obtain ⟨now, el, rto, n, -, rfl⟩ := prTick_frame htick
    exact .kept _ rfl rfl rfl ⟨rfl, rfl⟩

theorem Ends.inbound {i : Instr} {s t : State} (h : Ends i s t) : InboundEffect s.block t.block i := by
  cases h with
  | answered r ht => exact ht ▸ .kept i rfl rfl rfl rfl
  | faulted c _ _ ht => exact ht ▸ .kept i rfl rfl rfl rfl
  | performed b r _ hb _ ht => exact ht ▸ hb.inbound

theorem Ends.outbound {i : Instr} {s t : State} (h : Ends i s t) :
    ∃ r, t.resp = some r ∧ OutboundEffect s.block t.block r i := by
  cases h with
  | answered r ht => exact ⟨r, ht ▸ rfl, ht ▸ .kept i rfl rfl rfl ⟨rfl, rfl⟩⟩
  | faulted c _ _ ht => exact ⟨Response.bare .fault, ht ▸ rfl, ht ▸ .kept i rfl rfl rfl ⟨rfl, rfl⟩⟩
  | performed b r _ hb _ ht => exact ⟨r, ht ▸ rfl, ht ▸ hb.outbound⟩

/-! ### Cleared by -/

/-- The timer stops only for a receiver message that empties the queue (44_sender.md R218, R223). -/
theorem OutboundEffect.timer_cleared {b b' : Block} {r : Response} {i : Instr} (h : OutboundEffect b b' r i)
    (h0 : b.tx.timerRunning = true) (h1 : b'.tx.timerRunning = false) :
    b'.tx.outstanding = [] ∧ ∃ sd, i = .txRecv sd ∨ i = .prRecv sd := by
  cases h with
  | kept _ _ _ htimer => simp [htimer, h0] at h1
  | closed _ htx => simp [htx, h0] at h1
  | setError _ htx => simp [htx, h0] at h1
  | pushed _ _ hpush => simp [hpush.running h0] at h1
  | received _ sd hi _ _ htimer =>
    rcases htimer with htimer | ⟨-, hempty⟩
    · simp [htimer, h0] at h1
    · exact ⟨hempty, sd, hi⟩

/-- The linger flag is cleared by PR.RECV alone, and set by nothing (45_peer.md R253). -/
theorem Ends.linger {i : Instr} {s t : State} (h : Ends i s t) :
    t.block.pr.linger = s.block.pr.linger ∨ (t.block.pr.linger = false ∧ ∃ sd, i = .prRecv sd) := by
  cases h with
  | answered r ht => exact .inl (ht ▸ rfl)
  | faulted c _ _ ht => exact .inl (ht ▸ rfl)
  | performed b r _ hb _ ht =>
    have hpr : t.block.pr = b.pr := ht ▸ rfl
    rcases hb.pr_cases with he | ⟨now, he⟩ | ⟨sd, linger, hi, hlinger, he⟩ <;> rw [hpr, he]
    · exact .inl rfl
    · exact .inl rfl
    · exact hlinger.imp_right fun hl => ⟨hl, sd, hi⟩

/-- Only reset leaves the fault state (60_exceptions.md R304). -/
theorem Ends.fault_kept {i : Instr} {s t : State} (h : Ends i s t) (hs : s.block.sys.fault = true) :
    t.block.sys.fault = true := by
  cases h with
  | answered r ht => exact ht ▸ hs
  | faulted c _ hf _ => simp [hs] at hf
  | performed b r hf _ _ _ => simp [hs] at hf

/-- Settles O23: a block that advances clears no flag but the timer's and the linger flag. -/
theorem flagsAreClearedOnlyAsListed : Obligations.FlagsAreClearedOnlyAsListed := by
  intro i s t hexec
  have h := exec_ends i s t hexec
  have hadv := h.advances
  obtain ⟨hinClosed, hinError⟩ := (Stream.keepsFlags_iff _ _).1 hadv.bsIn.flags
  obtain ⟨houtClosed, houtError⟩ := (Stream.keepsFlags_iff _ _).1 hadv.bsOut.flags
  obtain ⟨r, -, hout⟩ := h.outbound
  refine ⟨fun sel => ?_, fun sel => ?_, fun hs => ?_, hadv.ra.endIndex, hadv.tx.synSent, hadv.tx.finSent,
    h.fault_kept, hout.timer_cleared, fun h0 h1 => ?_, fun h0 => ?_⟩
  · cases sel with
    | inbound => exact hinClosed
    | outbound => exact houtClosed
  · cases sel with
    | inbound => exact hinError
    | outbound => exact houtError
  · exact (congrArg Receiver.synSeen (hadv.rx hs)).trans hs
  · rcases h.linger with he | ⟨-, hi⟩
    · simp [he, h0] at h1
    · exact hi
  · rcases h.linger with he | ⟨he, -⟩
    · exact he.trans h0
    · exact he

/-! ### Set by -/

section SetBy

variable {b b' : Block} {i : Instr} {r : Response}

theorem InboundEffect.closed_set (h : InboundEffect b b' i) (h0 : b.bsIn.closed = false)
    (h1 : b'.bsIn.closed = true) :
    (∃ last f d, i = .raInsert last f d) ∨ ∃ sd, i = .rxRecv sd ∨ i = .prRecv sd := by
  cases h with
  | kept _ hclosed => simp [hclosed, h0] at h1
  | setError hclosed => simp [hclosed, h0] at h1
  | inserted last first data => exact .inl ⟨last, first, data, rfl⟩
  | received _ sd hi => exact .inr ⟨sd, hi⟩

theorem InboundEffect.error_set (h : InboundEffect b b' i) (h0 : b.bsIn.error = false)
    (h1 : b'.bsIn.error = true) :
    i = .bsSeterr .inbound ∨ ∃ sd, (i = .rxRecv sd ∨ i = .prRecv sd) ∧ sd.rstS = true := by
  cases h with
  | kept _ _ herror => simp [herror, h0] at h1
  | setError => exact .inl rfl
  | inserted _ _ _ herror => simp [herror, h0] at h1
  | received _ sd hi herror =>
    cases hrst : sd.rstS with
    | false => simp [herror hrst, h0] at h1
    | true => exact .inr ⟨sd, hi, hrst⟩

theorem InboundEffect.synSeen_set (h : InboundEffect b b' i) (h0 : b.rx.synSeen = false)
    (h1 : b'.rx.synSeen = true) :
    ∃ sd, (i = .rxRecv sd ∨ i = .prRecv sd) ∧ sd.syn = true ∧ sd.rstS = false := by
  cases h with
  | kept _ _ _ _ hrx => simp [hrx, h0] at h1
  | setError _ _ hrx => simp [hrx, h0] at h1
  | inserted _ _ _ _ _ hrx => simp [hrx, h0] at h1
  | received _ sd hi _ _ hrx =>
    rcases hrx with hrx | hsyn
    · simp [hrx, h0] at h1
    · exact ⟨sd, hi, hsyn⟩

theorem InboundEffect.endIndex_set (h : InboundEffect b b' i) (h0 : b.ra.endIndex = none)
    (h1 : b'.ra.endIndex ≠ none) :
    (∃ f d, i = .raInsert true f d) ∨ ∃ sd, (i = .rxRecv sd ∨ i = .prRecv sd) ∧ sd.fin = true := by
  cases h with
  | kept _ _ _ hend => exact absurd (hend.trans h0) h1
  | setError _ hend => exact absurd (hend.trans h0) h1
  | inserted last first data _ hend =>
    cases last with
    | false => exact absurd ((hend rfl).trans h0) h1
    | true => exact .inl ⟨first, data, rfl⟩
  | received _ sd hi _ hend =>
    cases hfin : sd.fin with
    | false => exact absurd ((hend hfin).trans h0) h1
    | true => exact .inr ⟨sd, hi, hfin⟩

theorem OutboundEffect.closed_set (h : OutboundEffect b b' r i) (h0 : b.bsOut.closed = false)
    (h1 : b'.bsOut.closed = true) : i = .bsClose .outbound := by
  cases h with
  | kept _ hclosed => simp [hclosed, h0] at h1
  | closed => rfl
  | setError hclosed => simp [hclosed, h0] at h1
  | pushed _ _ hpush => simp [hpush.closed, h0] at h1
  | received _ _ _ hclosed => simp [hclosed, h0] at h1

theorem OutboundEffect.error_set (h : OutboundEffect b b' r i) (h0 : b.bsOut.error = false)
    (h1 : b'.bsOut.error = true) :
    i = .bsSeterr .outbound ∨ ∃ sd, (i = .txRecv sd ∨ i = .prRecv sd) ∧ sd.rstR = true := by
  cases h with
  | kept _ _ herror => simp [herror, h0] at h1
  | closed herror => simp [herror, h0] at h1
  | setError => exact .inl rfl
  | pushed _ _ hpush => simp [hpush.error, h0] at h1
  | received _ sd hi _ herror =>
    cases hrst : sd.rstR with
    | false => simp [herror hrst, h0] at h1
    | true => exact .inr ⟨sd, hi, hrst⟩

/-- A timer that starts was started by a segment (44_sender.md R212). -/
theorem OutboundEffect.timer_set (h : OutboundEffect b b' r i) (h0 : b.tx.timerRunning = false)
    (h1 : b'.tx.timerRunning = true) : (i = .txPush ∨ i = .prPush) ∧ r.emit ≠ [] := by
  cases h with
  | kept _ _ _ htimer => simp [htimer, h0] at h1
  | closed _ htx => simp [htx, h0] at h1
  | setError _ htx => simp [htx, h0] at h1
  | pushed _ hi _ hemit => exact ⟨hi, fun hnone => by simp [hemit hnone, h0] at h1⟩
  | received _ _ _ _ _ htimer =>
    rcases htimer with htimer | ⟨htimer, -⟩
    · simp [htimer, h0] at h1
    · simp [htimer] at h1

theorem OutboundEffect.keepsSynFin (h : OutboundEffect b b' r i) :
    (i = .txPush ∨ i = .prPush) ∨ KeepsSynFin b b' := by
  cases h with
  | kept _ _ _ _ hsf => exact .inr hsf
  | closed _ htx => exact .inr ⟨by rw [htx], by rw [htx]⟩
  | setError _ htx => exact .inr ⟨by rw [htx], by rw [htx]⟩
  | pushed _ hi => exact .inl hi
  | received _ _ _ _ _ _ hsf => exact .inr hsf

theorem OutboundEffect.synSent_set (h : OutboundEffect b b' r i) (h0 : b.tx.synSent = false)
    (h1 : b'.tx.synSent = true) : i = .txPush ∨ i = .prPush := by
  rcases h.keepsSynFin with hi | ⟨hsyn, -⟩
  · exact hi
  · simp [hsyn, h0] at h1

theorem OutboundEffect.finSent_set (h : OutboundEffect b b' r i) (h0 : b.tx.finSent = false)
    (h1 : b'.tx.finSent = true) : i = .txPush ∨ i = .prPush := by
  rcases h.keepsSynFin with hi | ⟨-, hfin⟩
  · exact hi
  · simp [hfin, h0] at h1

/-- A command that enters the fault state answers FAULT (60_exceptions.md R304). -/
theorem Ends.fault_set {s t : State} (h : Ends i s t) (h0 : s.block.sys.fault = false)
    (h1 : t.block.sys.fault = true) : ∃ r, t.resp = some r ∧ r.status = .fault := by
  cases h with
  | answered r ht => simp [ht, h0] at h1
  | faulted c _ _ ht => exact ⟨Response.bare .fault, ht ▸ rfl, rfl⟩
  | performed b r _ hb _ ht => simp [ht, hb.advances.sys, h0] at h1

end SetBy

/-- Settles O24: each flag, by what the command does to the flags of its side. -/
theorem flagsAreSetOnlyAsListed : Obligations.FlagsAreSetOnlyAsListed := by
  intro i s t hexec
  have h := exec_ends i s t hexec
  have hin := h.inbound
  obtain ⟨r, hresp, hout⟩ := h.outbound
  refine ⟨hout.closed_set, hin.closed_set, hin.error_set, hout.error_set, hin.synSeen_set, hin.endIndex_set,
    fun h0 h1 => ?_, hout.synSent_set, hout.finSent_set, h.fault_set⟩
  obtain ⟨hi, hemit⟩ := hout.timer_set h0 h1
  exact ⟨hi, r, hresp, hemit⟩

/-! ## The register map (10_state.md R35 to R44, 46_register_access.md R280) -/

/-- The register at its own address, where its unit exists. -/
theorem Register.atAddress_address {c : Config} {r : Register} (h : c.hasPeer = true ∨ r.isPeer = false) :
    Register.atAddress c r.address = some r := by
  cases hx : Register.atAddress c r.address with
  | none =>
    have hr := List.find?_eq_none.1 hx r r.mem_all
    rcases h with h | h <;> simp [h] at hr
  | some x =>
    have hfound := List.find?_some hx
    simp only [Bool.and_eq_true, beq_iff_eq] at hfound
    rw [Register.address_injective hfound.1]

/-- RDREG of the address `p.1` answers OK with the value `p.2`. -/
def State.Reads (s : State) (p : U64 × U64) : Prop :=
  exec (.rdreg p.1) s = .next (s.answer (Response.word p.2))

theorem State.Reads.of_atAddress {s : State} {a v : U64} {r : Register}
    (ha : Register.atAddress s.block.cfg a.toNat = some r) (hv : r.value s.block = v) : s.Reads (a, v) := by
  rw [← hv]
  simp [State.Reads, exec, execRdreg, ha, State.respond]

/-- A register outside the PRU reads its value. -/
theorem State.Reads.unit {s : State} (r : Register) (hr : r.isPeer = false) {a v : U64}
    (ha : a.toNat = r.address) (hv : r.value s.block = v) : s.Reads (a, v) :=
  State.Reads.of_atAddress (by rw [ha, Register.atAddress_address (.inr hr)]) hv

/-- A register of the PRU reads its value where the PRU exists. -/
theorem State.Reads.peer {s : State} (hp : s.block.cfg.hasPeer = true) (r : Register) {a v : U64}
    (ha : a.toNat = r.address) (hv : r.value s.block = v) : s.Reads (a, v) :=
  State.Reads.of_atAddress (by rw [ha, Register.atAddress_address (.inl hp)]) hv

/-- A difference of counters, as a 64-bit word. -/
theorem ofNat_toNat_sub {v w : U64} (h : w.toNat ≤ v.toNat) : BitVec.ofNat 64 (v.toNat - w.toNat) = v - w := by
  apply BitVec.eq_of_toNat_eq
  have := v.isLt
  rw [BitVec.toNat_sub_of_le (BitVec.le_def.2 h), BitVec.toNat_ofNat]
  omega

theorem Stream.popped_le {s : Stream} (h : s.holds = true) : s.bytesPopped.toNat ≤ s.bytesPushed.toNat := by
  obtain ⟨hsum, -⟩ := s.holds_iff.1 h
  omega

theorem Stream.buffered_word {s : Stream} (h : s.holds = true) :
    BitVec.ofNat 64 s.buffered = s.bytesPushed - s.bytesPopped :=
  ofNat_toNat_sub (Stream.popped_le h)

theorem Stream.available_word {s : Stream} (h : s.holds = true) :
    BitVec.ofNat 64 s.available = s.capacity - (s.bytesPushed - s.bytesPopped) := by
  have hbuf : (s.bytesPushed - s.bytesPopped).toNat = s.buffered :=
    BitVec.toNat_sub_of_le (BitVec.le_def.2 (Stream.popped_le h))
  rw [← ofNat_toNat_sub (by rw [hbuf]; exact (s.holds_iff.1 h).2), hbuf]
  rfl

/-- Settles O17: the registers read the capacity and the two counts, which R24 keeps within it. -/
theorem capacityLaw : Obligations.CapacityLaw := by
  intro s hs base hbase
  have hlaw (x : Stream) (hx : x.holds = true) :
      (BitVec.ofNat 64 x.available).toNat + (BitVec.ofNat 64 x.buffered).toNat = x.capacity.toNat ∧
        (BitVec.ofNat 64 x.available).toNat ≤ x.capacity.toNat := by
    obtain ⟨-, hcap⟩ := x.holds_iff.1 hx
    have := x.capacity.isLt
    simp only [BitVec.toNat_ofNat, Stream.available]
    omega
  simp only [List.mem_cons, List.not_mem_nil, or_false] at hbase
  obtain rfl | rfl := hbase
  · exact ⟨_, _, _, State.Reads.unit .inCapacity rfl rfl rfl,
      State.Reads.unit .inBytesBuffered rfl rfl rfl, State.Reads.unit .inAvailable rfl rfl rfl,
      hlaw _ hs.bsIn⟩
  · exact ⟨_, _, _, State.Reads.unit .outCapacity rfl rfl rfl,
      State.Reads.unit .outBytesBuffered rfl rfl rfl, State.Reads.unit .outAvailable rfl rfl rfl,
      hlaw _ hs.bsOut⟩

/-- A flag word is the sum of its bits' weights. -/
theorem flagWord_eq_foldr (bs : List Bool) : flagWord bs = (bs.map b2n).foldr (fun v w => v + 2 * w) 0 := by
  induction bs with
  | nil => rfl
  | cons b bs ih => simp only [flagWord, ih, List.map_cons, List.foldr_cons]

theorem zext_eq_ofNat {n : Nat} (w : BitVec n) : w.zeroExtend 64 = BitVec.ofNat 64 w.toNat := by
  apply BitVec.eq_of_toNat_eq
  simp

/-- Settles O56: every listed address is a register's own, and the value listed is that register's. -/
theorem rdregReadsTheRegisterMap : Obligations.RdregReadsTheRegisterMap := by
  intro s hs b c flags streamRegs outFinished active peerRegs unitRegs
  have hflags (bs : List Bool) : BitVec.ofNat 64 (flagWord bs) = flags (bs.map b2n) :=
    congrArg (BitVec.ofNat 64) (flagWord_eq_foldr bs)
  have hunits : ∀ p ∈ unitRegs, s.Reads p := by
    simp only [unitRegs, List.forall_mem_cons]
    refine ⟨.unit .id rfl rfl rfl, .unit .cfgFlags rfl rfl (hflags _),
      .unit .cfgInitialRto rfl rfl (zext_eq_ofNat _), .unit .cfgIsn rfl rfl (zext_eq_ofNat _),
      .unit .cfgMaxPayload rfl rfl (zext_eq_ofNat _), .unit .cfgMaxRetx rfl rfl (zext_eq_ofNat _),
      .unit .cfgWindowCap rfl rfl rfl, .unit .cfgMaxDataLen rfl rfl (zext_eq_ofNat _),
      .unit .raNextIndex rfl rfl rfl, .unit .raEndIndex rfl rfl rfl, .unit .raStatus rfl rfl (hflags _),
      .unit .raBytesPending rfl rfl rfl, .unit .rxStatus rfl rfl (hflags _), .unit .rxZeroPoint rfl rfl ?_,
      .unit .txZeroPoint rfl rfl (zext_eq_ofNat _), .unit .txBytesSent rfl rfl rfl,
      .unit .txBytesAcked rfl rfl rfl, .unit .txInFlight rfl rfl (ofNat_toNat_sub hs.tx.mid.order),
      .unit .txWindow rfl rfl (zext_eq_ofNat _), .unit .txTimerElapsed rfl rfl rfl, .unit .txRto rfl rfl rfl,
      .unit .txStatus rfl rfl (hflags _), .unit .txConsecRetx rfl rfl rfl,
      .unit .txOutstandingCount rfl rfl rfl, .unit .sysStatus rfl rfl (hflags _),
      .unit .sysFaultCause rfl rfl ?_, nofun⟩
    · exact congrArg (fun v => if b.rx.synSeen then v else 0) (zext_eq_ofNat b.rx.zeroPoint)
    · simp only [Register.value, b]
      cases s.block.sys.faultCause <;> rfl
  have hin : ∀ p ∈ streamRegs 0x10 b.bsIn, s.Reads p := by
    simp only [streamRegs, List.forall_mem_cons]
    exact ⟨.unit .inCapacity rfl rfl rfl, .unit .inBytesPushed rfl rfl rfl, .unit .inBytesPopped rfl rfl rfl,
      .unit .inBytesBuffered rfl rfl (Stream.buffered_word hs.bsIn),
      .unit .inAvailable rfl rfl (Stream.available_word hs.bsIn), .unit .inStatus rfl rfl (hflags _), nofun⟩
  have hout : ∀ p ∈ streamRegs 0x18 b.bsOut, s.Reads p := by
    simp only [streamRegs, List.forall_mem_cons]
    exact ⟨.unit .outCapacity rfl rfl rfl, .unit .outBytesPushed rfl rfl rfl,
      .unit .outBytesPopped rfl rfl rfl,
      .unit .outBytesBuffered rfl rfl (Stream.buffered_word hs.bsOut),
      .unit .outAvailable rfl rfl (Stream.available_word hs.bsOut), .unit .outStatus rfl rfl (hflags _), nofun⟩
  have hpeer : ∀ p ∈ peerRegs, s.Reads p := by
    cases hp : c.hasPeer with
    | false => simp [peerRegs, hp]
    | true =>
      simp only [peerRegs, hp, if_true, List.forall_mem_cons]
      exact ⟨.peer hp .prStatus rfl (hflags _), .peer hp .prCumulativeMs rfl rfl,
        .peer hp .prLastReceiptMs rfl rfl, nofun⟩
  exact List.forall_mem_append.2 ⟨List.forall_mem_append.2 ⟨List.forall_mem_append.2 ⟨hunits, hin⟩, hout⟩, hpeer⟩

end Sys2Proof.Machine

/-! PROOFS. The command port: that the decoder and the encoder agree, and that a query changes nothing
(20_memory.md R63, R66, 30_encoding.md R80 to R83, R86). -/

namespace Sys2Proof

/-- Settles O1, by what the decoder reads of the CMD word and of the operands. -/
theorem encodedCommandsDecode : Obligations.EncodedCommandsDecode :=
  fun _ rest hwf => decode_encode hwf rest

/-! ## What the decoder reads as a descriptor is that descriptor's bytes (30_encoding.md R83) -/

/-- A field with one more bit below it. -/
theorem extractLsb'_append_ofBool {w : Nat} (v : BitVec w) (start len : Nat) :
    v.extractLsb' (start + 1) len ++ BitVec.ofBool (v.getLsbD start) = v.extractLsb' start (len + 1) := by
  have hbit : BitVec.ofBool (v.getLsbD start) = v.extractLsb' start 1 := by
    ext i hi
    obtain rfl : i = 0 := by omega
    simp
  rw [hbit, BitVec.extractLsb'_append_extractLsb'_eq_extractLsb' rfl]

theorem Sd.w2_ofWords {w0 w1 w2 w3 : U32} {payload : List Byte}
    (hplen : payload.length = (w2.extractLsb' 16 16).toNat) : (Sd.ofWords w0 w1 w2 w3 payload).w2 = w2 := by
  rw [Sd.w2, Sd.ofWords, hplen, BitVec.ofNat_toNat, BitVec.setWidth_eq]
  exact (BitVec.extractLsb'_append_extractLsb'_eq_extractLsb' rfl).trans BitVec.extractLsb'_eq_self

theorem Sd.w3_ofWords (w0 w1 w2 w3 : U32) (payload : List Byte) :
    (Sd.ofWords w0 w1 w2 w3 payload).w3 = w3 := by
  simp only [Sd.w3, Sd.ofWords]
  rw [extractLsb'_append_ofBool w3 4 27, extractLsb'_append_ofBool w3 3 28, extractLsb'_append_ofBool w3 2 29,
    extractLsb'_append_ofBool w3 1 30, extractLsb'_append_ofBool w3 0 31, BitVec.extractLsb'_eq_self]

theorem takeSd_some {bs rest : List Byte} {sd : Sd} (h : takeSd bs = some (sd, rest)) :
    bs = bytesSd sd ++ rest ∧ sd.fits = true := by
  simp only [takeSd, Option.bind_eq_bind, Option.bind_eq_some_iff, Prod.exists, Option.pure_def,
    Option.some.injEq, Prod.mk.injEq] at h
  obtain ⟨w0, bs0, h0, w1, bs1, h1, w2, bs2, h2, w3, bs3, h3, payload, bs4, h4, rfl, rfl⟩ := h
  obtain ⟨rfl, hplen⟩ := takeBytes_some h4
  refine ⟨?_, (Sd.fits_iff _).2 (hplen ▸ (w2.extractLsb' 16 16).isLt)⟩
  rw [bytesSd, Sd.w2_ofWords hplen, Sd.w3_ofWords, take32_some h0, take32_some h1, take32_some h2,
    take32_some h3]
  simp only [Sd.ofWords, List.append_assoc]

/-! ## The CMD word a row is selected by (30_encoding.md R81, R87) -/

/-- The SEL field read, put back, is bit 8 of CMD. -/
theorem selBit_cmdSel (cmd : U32) : selBit (cmdSel cmd) = cmd &&& 0x100 := by
  rw [show (0x100 : U32) = BitVec.twoPow 32 8 from rfl, BitVec.and_twoPow, cmdSel]
  cases cmd.getLsbD 8 <;> rfl

/-- The LAST field read, put back, is bit 9 of CMD. -/
theorem lastBit_cmdLast (cmd : U32) : lastBit (cmdLast cmd) = cmd &&& 0x200 := by
  rw [show (0x200 : U32) = BitVec.twoPow 32 9 from rfl, BitVec.and_twoPow, cmdLast]
  cases cmd.getLsbD 9 <;> rfl

/-- A CMD word that selects a row is the row's opcode, with the word's own bits where the mask is free. -/
theorem Opcode.cmd_of_selects {o : Opcode} {cmd : U32} (h : o.selects cmd = true) :
    cmd = o.matchWord ||| (cmd &&& ~~~o.mask) := by
  have hmatch : cmd &&& o.mask = o.matchWord := by simpa [Opcode.selects] using h
  rw [← hmatch, ← BitVec.and_or_distrib_left, BitVec.or_not_self, BitVec.and_allOnes]

/-! ## What decodes is an encoding -/

/-- What the decoder read after a CMD word of the opcode `o`: a well-formed command of that opcode, with the SEL
or LAST of the word and the operand bytes that stood there. -/
structure OperandsRead (o : Opcode) (cmd : U32) (bs : List Byte) (i : Instr) (rest : List Byte) : Prop where
  opcode : i.opcode = o
  wellFormed : i.wellFormed = true
  cmdBits : i.cmdBits = cmd &&& ~~~o.mask
  bytes : bs = i.operandBytes ++ rest

theorem decodeOperands_some {o : Opcode} {cmd : U32} {bs rest : List Byte} {i : Instr}
    (h : decodeOperands o cmd bs = some (i, rest)) : OperandsRead o cmd bs i rest := by
  have hnone : (0 : U32) = cmd &&& ~~~0xFFFFFFFF := BitVec.and_zero.symm
  have hsel := selBit_cmdSel cmd
  cases o with
  | sqWrap =>
    obtain ⟨⟨a, bs1⟩, ha, h⟩ := Option.bind_eq_some_iff.1 h
    obtain ⟨⟨b, bs2⟩, hb, h⟩ := Option.bind_eq_some_iff.1 h
    cases h
    exact ⟨rfl, rfl, hnone, by rw [take64_some ha, take64_some hb, Instr.operandBytes, List.append_assoc]⟩
  | sqUnwrap =>
    obtain ⟨⟨a, bs1⟩, ha, h⟩ := Option.bind_eq_some_iff.1 h
    obtain ⟨⟨b, bs2⟩, hb, h⟩ := Option.bind_eq_some_iff.1 h
    obtain ⟨⟨c, bs3⟩, hc, h⟩ := Option.bind_eq_some_iff.1 h
    cases h
    exact ⟨rfl, rfl, hnone, by
      rw [take64_some ha, take64_some hb, take64_some hc, Instr.operandBytes, List.append_assoc,
        List.append_assoc]⟩
  | bsPush =>
    obtain ⟨⟨data, bs1⟩, hdata, h⟩ := Option.bind_eq_some_iff.1 h
    cases h
    obtain ⟨hbytes, hfits⟩ := takeData_some hdata
    exact ⟨rfl, hfits, hsel, hbytes⟩
  | bsClose => cases h; exact ⟨rfl, rfl, hsel, rfl⟩
  | bsSeterr => cases h; exact ⟨rfl, rfl, hsel, rfl⟩
  | bsPeek => cases h; exact ⟨rfl, rfl, hsel, rfl⟩
  | bsPop =>
    obtain ⟨⟨n, bs1⟩, hn, h⟩ := Option.bind_eq_some_iff.1 h
    cases h
    exact ⟨rfl, rfl, hsel, take64_some hn⟩
  | raInsert =>
    obtain ⟨⟨first, bs1⟩, hfirst, h⟩ := Option.bind_eq_some_iff.1 h
    obtain ⟨⟨data, bs2⟩, hdata, h⟩ := Option.bind_eq_some_iff.1 h
    cases h
    obtain ⟨hbytes, hfits⟩ := takeData_some hdata
    exact ⟨rfl, hfits, lastBit_cmdLast cmd, by
      rw [take64_some hfirst, hbytes, Instr.operandBytes, List.append_assoc]⟩
  | rxRecv =>
    obtain ⟨⟨sd, bs1⟩, hsd, h⟩ := Option.bind_eq_some_iff.1 h
    cases h
    obtain ⟨hbytes, hfits⟩ := takeSd_some hsd
    exact ⟨rfl, hfits, hnone, hbytes⟩
  | rxSend => cases h; exact ⟨rfl, rfl, hnone, rfl⟩
  | txPush => cases h; exact ⟨rfl, rfl, hnone, rfl⟩
  | txRecv =>
    obtain ⟨⟨sd, bs1⟩, hsd, h⟩ := Option.bind_eq_some_iff.1 h
    cases h
    obtain ⟨hbytes, hfits⟩ := takeSd_some hsd
    exact ⟨rfl, hfits, hnone, hbytes⟩
  | txTick =>
    obtain ⟨⟨ms, bs1⟩, hms, h⟩ := Option.bind_eq_some_iff.1 h
    cases h
    exact ⟨rfl, rfl, hnone, take64_some hms⟩
  | txEmpty => cases h; exact ⟨rfl, rfl, hnone, rfl⟩
  | prRecv =>
    obtain ⟨⟨sd, bs1⟩, hsd, h⟩ := Option.bind_eq_some_iff.1 h
    cases h
    obtain ⟨hbytes, hfits⟩ := takeSd_some hsd
    exact ⟨rfl, hfits, hnone, hbytes⟩
  | prPush => cases h; exact ⟨rfl, rfl, hnone, rfl⟩
  | prTick =>
    obtain ⟨⟨ms, bs1⟩, hms, h⟩ := Option.bind_eq_some_iff.1 h
    cases h
    exact ⟨rfl, rfl, hnone, take64_some hms⟩
  | rdreg =>
    obtain ⟨⟨addr, bs1⟩, haddr, h⟩ := Option.bind_eq_some_iff.1 h
    cases h
    exact ⟨rfl, rfl, hnone, take64_some haddr⟩

/-- What a decoded command was read from: a CMD word that selects a row of R86, and the row's operands. -/
theorem decode_command {bs rest : List Byte} {i : Instr} (h : decode bs = .command i rest) :
    ∃ cmd bs' o, take32 bs = some (cmd, bs') ∧ o.selects cmd = true ∧
      decodeOperands o cmd bs' = some (i, rest) := by
  unfold decode at h
  split at h
  · cases h
  next cmd bs' htake =>
    split at h
    · cases h
    next o hopc =>
      split at h
      · cases h
      next j bs'' hops =>
        split at h
        next hsel =>
          cases h
          exact ⟨cmd, bs', o, htake, hsel, hops⟩
        · cases h

/-- Settles O2: the selected row and the word's free bits give back CMD, and the operands their bytes. -/
theorem decodedCommandsReencode : Obligations.DecodedCommandsReencode := by
  intro bs i rest h
  obtain ⟨cmd, bs', o, htake, hsel, hops⟩ := decode_command h
  obtain ⟨rfl, hwf, hbits, hbytes⟩ := decodeOperands_some hops
  have hcmd : i.cmd = cmd := by rw [Instr.cmd, hbits, ← Opcode.cmd_of_selects hsel]
  refine ⟨hwf, ?_⟩
  rw [encode, hcmd, List.append_assoc, ← hbytes]
  exact take32_some htake

end Sys2Proof

namespace Sys2Proof.Machine

/-! ## Queries (20_memory.md R66) -/

/-- The outcome is the state with a response and nothing else changed. -/
def State.OnlyAnswers (s : State) (k : Result) : Prop := ∃ r, k = .next (s.answer r)

theorem State.respond_onlyAnswers (s : State) (r : Response) : s.OnlyAnswers (s.respond r) := ⟨r, rfl⟩

theorem State.reject_onlyAnswers (s : State) (st : Status) : s.OnlyAnswers (s.reject st) := ⟨_, rfl⟩

theorem State.ite_onlyAnswers {s : State} {p : Prop} [Decidable p] {k k' : Result} (h : s.OnlyAnswers k)
    (h' : s.OnlyAnswers k') : s.OnlyAnswers (if p then k else k') := by
  split
  · exact h
  · exact h'

theorem State.unlessFaulted_onlyAnswers {s : State} {k : Result} (h : s.OnlyAnswers k) :
    s.OnlyAnswers (s.unlessFaulted k) :=
  State.ite_onlyAnswers (s.reject_onlyAnswers _) h

theorem execRdreg_onlyAnswers (addr : U64) (s : State) : s.OnlyAnswers (execRdreg addr s) := by
  unfold execRdreg
  split
  · exact s.reject_onlyAnswers _
  · exact s.respond_onlyAnswers _

theorem exec_query {i : Instr} (h : i.isQuery = true) (s : State) : s.OnlyAnswers (exec i s) := by
  cases i with
  | sqWrap a b =>
    exact State.unlessFaulted_onlyAnswers <|
      State.ite_onlyAnswers (s.respond_onlyAnswers _) (s.reject_onlyAnswers _)
  | sqUnwrap a b c =>
    exact State.unlessFaulted_onlyAnswers <|
      State.ite_onlyAnswers (s.respond_onlyAnswers _) (s.reject_onlyAnswers _)
  | bsPeek sel => exact State.unlessFaulted_onlyAnswers (s.respond_onlyAnswers _)
  | rxSend => exact State.unlessFaulted_onlyAnswers (s.respond_onlyAnswers _)
  | txEmpty => exact State.unlessFaulted_onlyAnswers (s.respond_onlyAnswers _)
  | rdreg addr => exact execRdreg_onlyAnswers addr s
  | bsPush | bsClose | bsSeterr | bsPop | raInsert | rxRecv | txPush | txRecv | txTick | prRecv | prPush
    | prTick => cases h

theorem runCommands_cons {i : Instr} {is : List Instr} {s t : State} (h : exec i s = .next t) :
    runCommands (i :: is) s = runCommands is t := by
  rw [runCommands, h]

/-- Settles O27, by induction on the sequence: each query only answers. -/
theorem queriesChangeNoState : Obligations.QueriesChangeNoState := by
  intro is
  induction is with
  | nil => exact fun s _ => ⟨s, rfl, rfl⟩
  | cons i is ih =>
    intro s hqueries
    obtain ⟨hi, his⟩ := List.forall_mem_cons.1 hqueries
    obtain ⟨r, hexec⟩ := exec_query hi s
    obtain ⟨t, hrun, hblock⟩ := ih (s.answer r) his
    exact ⟨t, (runCommands_cons hexec).trans hrun, hblock⟩

end Sys2Proof.Machine

/-! PROOFS. The command words, the lengths of transactions and the order of the checks (30_encoding.md R82, R86,
R87, R89, R92, 60_exceptions.md R301 to R304). -/

namespace Sys2Proof

/-! ## What the decoder read (30_encoding.md R80, R82) -/

theorem Opcode.ofCode_eq_none_iff (opc : Byte) : Opcode.ofCode opc = none ↔ ∀ o : Opcode, o.code ≠ opc := by
  constructor
  · rintro h o rfl
    cases (Opcode.ofCode_code o).symm.trans h
  · intro h
    rw [Opcode.ofCode, List.find?_eq_none]
    exact fun o _ => by simpa using h o

/-- A whole transaction of a defined opcode stands at the head of `bs`: the CMD word `cmd`, whose OPC names the
row of `i`, and the operand bytes of `i`. The must-be-0 bits of `cmd` may be set. -/
structure TransactionRead (bs : List Byte) (cmd : U32) (i : Instr) (rest : List Byte) : Prop where
  opcode : Opcode.ofCode (cmd.extractLsb' 0 8) = some i.opcode
  wellFormed : i.wellFormed = true
  bytes : bs = bytes32 cmd ++ (i.operandBytes ++ rest)

/-- What stands at the head of `bs` when the decoder answers with each of its outcomes. -/
inductive Reads (bs : List Byte) : Decoded → Prop where
  | command {cmd : U32} {i : Instr} {rest : List Byte} (hread : TransactionRead bs cmd i rest)
    (hsel : i.opcode.selects cmd = true) : Reads bs (.command i rest)
  | reservedBits {cmd : U32} {i : Instr} {rest : List Byte} (hread : TransactionRead bs cmd i rest)
    (hsel : i.opcode.selects cmd = false) : Reads bs (.reservedBits i.opcode rest)
  | undefinedOpcode {cmd : U32} {rest : List Byte} (hopc : Opcode.ofCode (cmd.extractLsb' 0 8) = none)
    (hbytes : bs = bytes32 cmd ++ rest) : Reads bs (.undefinedOpcode (cmd.extractLsb' 0 8) rest)
  | incomplete : Reads bs .incomplete

theorem decode_reads (bs : List Byte) : Reads bs (decode bs) := by
  unfold decode
  split
  · exact .incomplete
  next cmd tail htake =>
    split
    next hopc => exact .undefinedOpcode hopc (take32_some htake)
    next o hopc =>
      split
      · exact .incomplete
      next i rest hops =>
        obtain ⟨rfl, hwf, -, htail⟩ := decodeOperands_some hops
        have hread : TransactionRead bs cmd i rest := ⟨hopc, hwf, htail ▸ take32_some htake⟩
        split
        next hsel => exact .command hread hsel
        next hsel => exact .reservedBits hread (by simpa using hsel)

theorem Reads.of_decode {bs : List Byte} {d : Decoded} (h : decode bs = d) : Reads bs d := h ▸ decode_reads bs

theorem decode_of_undefined {bs tail : List Byte} {cmd : U32} (htake : take32 bs = some (cmd, tail))
    (hopc : Opcode.ofCode (cmd.extractLsb' 0 8) = none) :
    decode bs = .undefinedOpcode (cmd.extractLsb' 0 8) tail := by
  simp [decode, htake, hopc]

/-- The word taken from the head of `bs` is the CMD word that stands there. -/
theorem take32_cmd {bs xs tail : List Byte} {w cmd : U32} (hbytes : bs = bytes32 w ++ xs)
    (htake : take32 bs = some (cmd, tail)) : w = cmd ∧ xs = tail := by
  rw [hbytes, take32_bytes32] at htake
  simpa using htake

/-! ## The length of a transaction (30_encoding.md R82) -/

/-- The DLEN field before the data reads as their number. -/
theorem dlen_bytesData {data : List Byte} (h : dataFits data = true) (rest : List Byte) (f : Nat → Nat) :
    (take32 (bytesData data ++ rest)).map (fun w => f w.1.toNat) = some (f data.length) := by
  have hlt : data.length < 2 ^ 32 := by simpa [dataFits] using h
  rw [bytesData, List.append_assoc, take32_bytes32, Option.map_some, BitVec.toNat_ofNat, Nat.mod_eq_of_lt hlt]

/-- The PLEN field in a descriptor's third word reads as the number of payload bytes (R83). -/
theorem plen_bytesSd {sd : Sd} (h : sd.fits = true) (rest : List Byte) (f : Nat → Nat) :
    (take32 ((bytesSd sd ++ rest).drop 8)).map (fun w => f (w.1.extractLsb' 16 16).toNat) =
      some (f sd.payload.length) := by
  have hdrop : (bytesSd sd ++ rest).drop 8 = bytes32 sd.w2 ++ (bytes32 sd.w3 ++ (sd.payload ++ rest)) := rfl
  rw [hdrop, take32_bytes32, Option.map_some, plen_w2 h]

theorem bytesData_length (data : List Byte) : (bytesData data).length = 4 + data.length := by
  rw [bytesData, List.length_append, bytes32_length]

theorem bytesSd_length (sd : Sd) : (bytesSd sd).length = 16 + sd.payload.length := by
  simp only [bytesSd, List.length_append, bytes32_length]

/-- The length computed from CMD and the length field is that of CMD and the operand bytes the decoder read. -/
theorem TransactionRead.transactionLength_eq {bs rest : List Byte} {cmd : U32} {i : Instr}
    (h : TransactionRead bs cmd i rest) : transactionLength bs = some (4 + i.operandBytes.length) := by
  obtain ⟨hopc, hwf, rfl⟩ := h
  have hdescriptor {sd : Sd} (hfits : sd.fits = true) :
      (take32 ((bytesSd sd ++ rest).drop 8)).map (fun w => 20 + (w.1.extractLsb' 16 16).toNat) =
        some (4 + (bytesSd sd).length) := by
    rw [plen_bytesSd hfits rest (20 + ·), bytesSd_length, ← Nat.add_assoc]
  rw [transactionLength, take32_bytes32]
  simp only [hopc]
  cases i with
  | bsPush sel data =>
    have hlength : 4 + (bytesData data).length = 8 + data.length := by rw [bytesData_length, ← Nat.add_assoc]
    exact (dlen_bytesData hwf rest (8 + ·)).trans (congrArg some hlength.symm)
  | raInsert last first data =>
    have hlength : 4 + (bytes64 first ++ bytesData data).length = 16 + data.length := by
      rw [List.length_append, bytes64_length, bytesData_length, ← Nat.add_assoc, ← Nat.add_assoc]
    exact (dlen_bytesData hwf rest (16 + ·)).trans (congrArg some hlength.symm)
  | rxRecv sd | txRecv sd | prRecv sd => exact hdescriptor hwf
  | sqWrap | sqUnwrap | bsClose | bsSeterr | bsPeek | bsPop | rxSend | txPush | txTick | txEmpty | prPush | prTick
    | rdreg => rfl

/-- Settles O4: both kinds of whole transaction are a CMD word and operand bytes of that length. -/
theorem transactionLengthIsTheFormats : Obligations.TransactionLengthIsTheFormats := by
  intro bs hdefined
  have hwhole {cmd : U32} {i : Instr} {rest : List Byte} (hread : TransactionRead bs cmd i rest) :
      ∃ n, transactionLength bs = some n ∧ n ≤ bs.length ∧ rest = bs.drop n := by
    have hbytes : bs = (bytes32 cmd ++ i.operandBytes) ++ rest := by rw [hread.bytes, List.append_assoc]
    have hlength : (bytes32 cmd ++ i.operandBytes).length = 4 + i.operandBytes.length := List.length_append
    refine ⟨_, hread.transactionLength_eq, ?_, ?_⟩
    · rw [hbytes, List.length_append, hlength]
      exact Nat.le_add_right _ _
    · rw [hbytes, List.drop_left' hlength]
  cases hd : decode bs with
  | command i rest =>
    cases Reads.of_decode hd with
    | command hread => exact hwhole hread
  | reservedBits o rest =>
    cases Reads.of_decode hd with
    | reservedBits hread => exact hwhole hread
  | undefinedOpcode opc rest => exact absurd (congrArg Decoded.opcode hd) hdefined
  | incomplete => exact absurd (congrArg Decoded.opcode hd) hdefined

/-! ## The rows of the opcode map (30_encoding.md R86, R87, R89) -/

/-- The mask of every row keeps the whole OPC field, so a selected row's OPC is the word's. -/
theorem Opcode.code_of_selects {o : Opcode} {cmd : U32} (h : o.selects cmd = true) :
    o.code = cmd.extractLsb' 0 8 := by
  have hmatch : cmd &&& o.mask = o.matchWord := by simpa [Opcode.selects] using h
  have hmask : o.mask.extractLsb' 0 8 = BitVec.allOnes 8 := by cases o <;> rfl
  calc o.code = o.matchWord.extractLsb' 0 8 := by cases o <;> rfl
    _ = cmd.extractLsb' 0 8 &&& o.mask.extractLsb' 0 8 := by rw [← hmatch, BitVec.extractLsb'_and]
    _ = cmd.extractLsb' 0 8 := by rw [hmask, BitVec.and_allOnes]

theorem Opcode.code_injective {o o' : Opcode} (h : o.code = o'.code) : o = o' := by
  simpa [Opcode.ofCode_code] using congrArg Opcode.ofCode h

theorem Opcode.selects_unique {cmd : U32} {o o' : Opcode} (h : o.selects cmd = true)
    (h' : o'.selects cmd = true) : o = o' :=
  Opcode.code_injective ((Opcode.code_of_selects h).trans (Opcode.code_of_selects h').symm)

/-- A CMD word that does not select the row of its own OPC selects no row. -/
theorem Opcode.selects_eq_false {cmd : U32} {o : Opcode} (hopc : Opcode.ofCode (cmd.extractLsb' 0 8) = some o)
    (hsel : o.selects cmd = false) (o' : Opcode) : o'.selects cmd = false := by
  rw [Bool.eq_false_iff]
  intro h'
  obtain rfl : o' = o := Opcode.code_injective ((Opcode.code_of_selects h').trans (Opcode.ofCode_some hopc).symm)
  exact absurd h' (by simp [hsel])

/-- Settles O5: a row is selected by its OPC, and each outcome of the decoder names the OPC of its CMD word. -/
theorem cmdWordSelectsOneRow : Obligations.CmdWordSelectsOneRow := by
  refine ⟨fun cmd o o' => Opcode.selects_unique, fun bs tail cmd htake => ⟨?_, ?_, ?_⟩⟩
  · intro i rest hd
    cases Reads.of_decode hd with
    | command hread hsel =>
      obtain ⟨rfl, -⟩ := take32_cmd hread.bytes htake
      exact hsel
  · intro o rest hd
    cases Reads.of_decode hd with
    | reservedBits hread hsel =>
      obtain ⟨rfl, -⟩ := take32_cmd hread.bytes htake
      exact ⟨Opcode.ofCode_some hread.opcode, Opcode.selects_eq_false hread.opcode hsel⟩
  · intro opc rest hd
    cases Reads.of_decode hd with
    | undefinedOpcode hopc hbytes =>
      obtain ⟨rfl, rfl⟩ := take32_cmd hbytes htake
      exact ⟨rfl, rfl, (Opcode.ofCode_eq_none_iff _).1 hopc⟩

/-- Settles O3: the four byte sequences are the encodings of their commands. -/
theorem specWordsDecode : Obligations.SpecWordsDecode :=
  ⟨decode_encode (i := .bsPush .outbound [0x63, 0x61, 0x74]) rfl [],
    decode_encode (i := .raInsert true 1 [0x62]) rfl [],
    decode_encode (i := .sqWrap 4294967313 15) rfl [],
    decode_encode (i := .txRecv ⟨0, 1, 1000, false, false, false, true, false, 0, []⟩) rfl []⟩

/-- R89's ranges are the gaps between the OPC values of R86. -/
theorem Opcode.ofCode_eq_none_iff_ranges (opc : Byte) : Opcode.ofCode opc = none ↔
    opc.toNat = 0 ∨ (0x03 ≤ opc.toNat ∧ opc.toNat ≤ 0x0F) ∨ (0x15 ≤ opc.toNat ∧ opc.toNat ≤ 0x1F) ∨
      (0x21 ≤ opc.toNat ∧ opc.toNat ≤ 0x2F) ∨ (0x32 ≤ opc.toNat ∧ opc.toNat ≤ 0x3F) ∨
      (0x44 ≤ opc.toNat ∧ opc.toNat ≤ 0x4F) ∨ (0x53 ≤ opc.toNat ∧ opc.toNat ≤ 0x6F) ∨ 0x71 ≤ opc.toNat := by
  rw [Opcode.ofCode_eq_none_iff]
  constructor
  · intro h
    have hne : ∀ o ∈ Opcode.all, opc.toNat ≠ o.code.toNat := fun o _ he => h o (BitVec.eq_of_toNat_eq he.symm)
    simp only [Opcode.all, Opcode.code, List.forall_mem_cons, BitVec.reduceToNat] at hne
    omega
  · rintro h o rfl
    cases o <;> simp [Opcode.code] at h

end Sys2Proof

namespace Sys2Proof.Machine

/-! ## Undefined opcodes (30_encoding.md R89, 60_exceptions.md R301) -/

/-- Settles O6: R89's ranges are the gaps between the opcodes, and the step refuses what lies in them. -/
theorem undefinedOpcodesAreRefused : Obligations.UndefinedOpcodesAreRefused := by
  refine ⟨Opcode.ofCode_eq_none_iff_ranges, fun s cmd tail hr htake hopc hf => ?_⟩
  rw [step_of_undefinedOpcode hr (decode_of_undefined htake hopc)]
  exact State.unlessFaulted_of_not hf

/-! ## The order of the checks (60_exceptions.md R303)

`State.Checked s cs k` says of an outcome `k` that the first check of the list `cs` that holds is the one it
reports. A command's arm of `exec` meets it for `checks`, and the lemmas below take one check from the list for
each test in the arm, in the order of both. -/

/-- The status of the first check of the list that holds. -/
def firstStatus (cs : List (Bool × Status)) : Option Status := (cs.find? fun c => c.1).map fun c => c.2

theorem firstFailed_eq (b : Block) (d : Decoded) : firstFailed b d = firstStatus (checks b d) := rfl

/-- The outcome `k` in `s` leaves the port, and answers OK, or FAULT with the block in the fault state. -/
def State.Completes (s : State) (k : Result) : Prop :=
  ∃ t r, k = .next t ∧ t.port = s.port ∧ t.resp = some r ∧
    (r.status = .ok ∨ (r.status = .fault ∧ t.block.sys.fault = true))

/-- The outcome `k` in `s` is the rejection of the first check of `cs` that holds, and completes when none
does. -/
def State.Checked (s : State) (cs : List (Bool × Status)) (k : Result) : Prop :=
  match firstStatus cs with
  | some st => k = s.reject st
  | none => s.Completes k

section Checks
variable {s : State} {k : Result} {cs : List (Bool × Status)} {st : Status}

/-! ### A check made, a check passed over, and none left -/

theorem State.Checked.rejects (s : State) (st : Status) (cs : List (Bool × Status)) :
    s.Checked ((true, st) :: cs) (s.reject st) := rfl

/-- A test that rejects where it holds. -/
theorem State.Checked.reject_if {c : Bool} {p : Prop} [Decidable p] (hc : c = true ↔ p) (h : s.Checked cs k) :
    s.Checked ((c, st) :: cs) (if p then s.reject st else k) := by
  cases c with
  | true => rw [if_pos (hc.1 rfl)]; exact .rejects s st cs
  | false => rw [if_neg fun hp => Bool.false_ne_true (hc.2 hp)]; exact h

/-- A test that rejects where it fails. -/
theorem State.Checked.reject_unless {c : Bool} {p : Prop} [Decidable p] (hc : c = true ↔ ¬ p)
    (h : s.Checked cs k) : s.Checked ((c, st) :: cs) (if p then k else s.reject st) := by
  rw [← ite_not]
  exact .reject_if hc h

/-- The check for the fault state, which every command but RDREG makes. -/
theorem State.Checked.unlessFaulted {c : Bool} (hc : c = true) (h : s.Checked cs k) :
    s.Checked ((s.block.sys.fault && c, .fault) :: cs) (s.unlessFaulted k) :=
  .reject_if (by rw [hc, Bool.and_true]) h

/-- The check for the PRU, which its commands make. -/
theorem State.Checked.withPeer {c : Bool} (hc : c = true) (h : s.Checked cs k) :
    s.Checked ((c && !s.block.cfg.hasPeer, .errNopeer) :: cs) (s.withPeer k) :=
  .reject_unless (by simp [hc]) h

/-- The next `n` checks are none of this command's. -/
theorem State.Checked.pass (n : Nat) (hcs : (cs.take n).all (fun c => !c.1) = true) (h : s.Checked (cs.drop n) k) :
    s.Checked cs k := by
  have hnone : (cs.take n).find? (fun c => c.1) = none := by
    rw [List.find?_eq_none]
    intro c hc
    simpa using List.all_eq_true.1 hcs c hc
  have hfirst : firstStatus cs = firstStatus (cs.drop n) := by
    rw [firstStatus, firstStatus]
    conv_lhs => rw [← List.take_append_drop n cs, List.find?_append, hnone, Option.none_or]
  rwa [State.Checked, hfirst]

/-- RDREG does not make the check for the fault state. -/
theorem State.Checked.exempt {c : Bool} (hc : c = false) (h : s.Checked cs k) :
    s.Checked ((s.block.sys.fault && c, .fault) :: cs) k :=
  .pass 1 (by simp [hc]) h

theorem State.Checked.completes (h : s.Completes k) : s.Checked [] k := h

/-! ### How a command completes -/

theorem State.respond_completes {r : Response} (h : r.status = .ok) : s.Completes (s.respond r) :=
  ⟨_, r, rfl, rfl, rfl, .inl h⟩

theorem State.enterFault_completes (c : FaultCause) : s.Completes (.next (s.enterFault c)) :=
  ⟨_, _, rfl, rfl, rfl, .inr ⟨rfl, rfl⟩⟩

/-- A command that writes the block answers the OK it computed, or enters the fault state. -/
theorem State.commit_completes {α : Type} {x : Except FaultCause α} {f : α → Block × Response}
    (h : ∀ a, (f a).2.status = .ok) : s.Completes (s.commit (x >>= fun a => pure (f a))) := by
  cases x with
  | error c => exact State.enterFault_completes c
  | ok a =>
    show s.Completes (if invariantsHold s.block (f a).1 then _ else _)
    split
    · exact ⟨_, _, rfl, rfl, rfl, .inl (h a)⟩
    · exact State.enterFault_completes .invariant

theorem State.commit_ok_completes {b : Block} {r : Response} (h : r.status = .ok) :
    s.Completes (s.commit (.ok (b, r))) :=
  State.commit_completes (x := .ok ()) (f := fun _ => (b, r)) fun _ => h

end Checks

/-! ### The tests of the commands -/

/-- The test of a u32 operand (30_encoding.md R88) is R302's range. -/
theorem isU32_iff (w : U64) : isU32 w = true ↔ w.toNat < 2 ^ 32 := by
  have hlt := w.isLt
  rw [isU32, beq_iff_eq, ← BitVec.toNat_inj, BitVec.extractLsb'_toNat, Nat.shiftRight_eq_div_pow]
  show w.toNat / 2 ^ 32 % 2 ^ 32 = 0 ↔ _
  omega

theorem lengthAllowed_iff (c : Config) (data : List Byte) :
    lengthAllowed c data = true ↔ data.length ≤ c.maxDataLen.toNat := by
  rw [lengthAllowed, decide_eq_true_iff]

theorem addressMapped_lt {hasPeer : Bool} {a : Nat} (h : addressMapped hasPeer a = true) : a < 0xF2 := by
  simp only [addressMapped, Bool.or_eq_true, Bool.and_eq_true, decide_eq_true_eq] at h
  omega

/-- The addresses of the registers of a block, by rising address, are R281's ranges. -/
theorem Register.addresses_eq (hasPeer : Bool) :
    (Register.all.filter fun r => hasPeer || !r.isPeer).map Register.address =
      (List.range 0xF2).filter (addressMapped hasPeer) := by
  cases hasPeer <;> decide

theorem Register.addressMapped_iff (hasPeer : Bool) (a : Nat) :
    addressMapped hasPeer a = true ↔ ∃ r ∈ Register.all, (hasPeer || !r.isPeer) = true ∧ r.address = a := by
  calc addressMapped hasPeer a = true ↔ a ∈ (List.range 0xF2).filter (addressMapped hasPeer) := by
        simpa using addressMapped_lt
    _ ↔ _ := by
        rw [← Register.addresses_eq]
        simp only [List.mem_map, List.mem_filter, and_assoc]

/-- An address is unmapped exactly outside R281's ranges. -/
theorem Register.atAddress_eq_none_iff (c : Config) (a : Nat) :
    Register.atAddress c a = none ↔ addressMapped c.hasPeer a = false := by
  rw [← Bool.not_eq_true, Register.addressMapped_iff, Register.atAddress, List.find?_eq_none]
  simp only [Bool.and_eq_true, beq_iff_eq, not_exists, not_and, and_comm]

/-- The checks of a command that carries a descriptor, behind that for the PRU. -/
theorem State.Checked.descriptor {s : State} {k : Result} (sd : Sd) (h : s.Completes k) :
    s.Checked [(false, .errRsvd), (sd.rsvd != 0, .errRsvd), (false, .errOwner),
        (decide (s.block.cfg.maxDataLen.toNat < sd.payload.length), .errOperand), (false, .errReg)]
      (if !reservedClear sd then s.reject .errRsvd
        else if lengthAllowed s.block.cfg sd.payload then k else s.reject .errOperand) := by
  refine .pass 1 rfl <| .reject_if Iff.rfl <| .pass 1 rfl <| .reject_unless ?_ <| .pass 1 rfl <| .completes h
  rw [lengthAllowed_iff, decide_eq_true_iff, Nat.not_le]

theorem execRdreg_checked (addr : U64) (s : State) :
    s.Checked [(!addressMapped s.block.cfg.hasPeer addr.toNat, .errReg)] (execRdreg addr s) := by
  have hmap := Register.atAddress_eq_none_iff s.block.cfg addr.toNat
  unfold execRdreg
  split
  next hnone =>
    rw [hmap.1 hnone]
    exact .rejects s _ _
  next r hsome =>
    have hmapped : addressMapped s.block.cfg.hasPeer addr.toNat = true := by simpa [hsome] using hmap
    rw [hmapped]
    exact .pass 1 rfl <| .completes <| State.respond_completes rfl

/-- Every command makes the checks of R303 that concern it, in R303's order. -/
theorem exec_checked (i : Instr) (s : State) (rest : List Byte) :
    s.Checked (checks s.block (.command i rest)) (exec i s) := by
  cases i with
  | sqWrap a b =>
    refine .unlessFaulted rfl <| .pass 5 rfl <| .reject_unless ?_ <| .pass 1 rfl <| .completes <|
      State.respond_completes rfl
    simp [Decoded.commandHas, Instr.operandOutOfRange, isU32_iff]
  | sqUnwrap a b c =>
    refine .unlessFaulted rfl <| .pass 5 rfl <| .reject_unless ?_ <| .pass 1 rfl <| .completes <|
      State.respond_completes rfl
    simp [Decoded.commandHas, Instr.operandOutOfRange, isU32_iff, Decidable.imp_iff_not_or]
  | bsPush sel data =>
    refine .unlessFaulted rfl <| .pass 4 rfl <| .reject_if ?_ <| .reject_unless ?_ <| .pass 1 rfl <|
      .completes <| State.commit_completes fun _ => rfl
    · cases sel <;> simp [Decoded.commandHas, Instr.violatesOwnership]
    · simp [Decoded.commandHas, Instr.operandOutOfRange, lengthAllowed_iff]
  | bsClose sel =>
    refine .unlessFaulted rfl <| .pass 4 rfl <| .reject_if ?_ <| .pass 2 rfl <| .completes <|
      State.commit_ok_completes rfl
    cases sel <;> simp [Decoded.commandHas, Instr.violatesOwnership]
  | bsSeterr sel => exact .unlessFaulted rfl <| .pass 7 rfl <| .completes <| State.commit_ok_completes rfl
  | bsPeek sel => exact .unlessFaulted rfl <| .pass 7 rfl <| .completes <| State.respond_completes rfl
  | bsPop sel n =>
    refine .unlessFaulted rfl <| .pass 4 rfl <| .reject_if ?_ <| .pass 2 rfl <| .completes <|
      State.commit_completes fun _ => rfl
    cases sel <;> simp [Decoded.commandHas, Instr.violatesOwnership]
  | raInsert last first data =>
    refine .unlessFaulted rfl <| .pass 5 rfl <| .reject_unless ?_ <| .pass 1 rfl <| .completes <|
      State.commit_completes fun _ => rfl
    simp [Decoded.commandHas, Instr.operandOutOfRange, lengthAllowed_iff, Decidable.imp_iff_not_or]
  | rxRecv sd =>
    exact .unlessFaulted rfl <| .pass 2 rfl <| .descriptor sd <| State.commit_completes fun _ => rfl
  | rxSend => exact .unlessFaulted rfl <| .pass 7 rfl <| .completes <| State.respond_completes rfl
  | txPush => exact .unlessFaulted rfl <| .pass 7 rfl <| .completes <| State.commit_completes fun _ => rfl
  | txRecv sd => exact .unlessFaulted rfl <| .pass 2 rfl <| .descriptor sd <| State.commit_ok_completes rfl
  | txTick ms => exact .unlessFaulted rfl <| .pass 7 rfl <| .completes <| State.commit_completes fun _ => rfl
  | txEmpty => exact .unlessFaulted rfl <| .pass 7 rfl <| .completes <| State.respond_completes rfl
  | prRecv sd =>
    refine .unlessFaulted rfl <| .pass 1 rfl <| .withPeer rfl <| .descriptor sd ?_
    split
    · exact State.commit_completes fun _ => rfl
    · exact State.respond_completes rfl
  | prPush =>
    exact .unlessFaulted rfl <| .pass 1 rfl <| .withPeer rfl <| .pass 5 rfl <| .completes <|
      State.commit_completes fun _ => rfl
  | prTick ms =>
    exact .unlessFaulted rfl <| .pass 1 rfl <| .withPeer rfl <| .pass 5 rfl <| .completes <|
      State.commit_completes fun _ => rfl
  | rdreg addr =>
    exact .exempt rfl <| .pass 6 rfl <| execRdreg_checked addr s

/-- A transaction with a must-be-0 bit set is checked for the fault state, RDREG excepted, and for the PRU before
that bit is reported. -/
theorem State.rejectReserved_checked (s : State) (o : Opcode) (rest : List Byte) :
    s.Checked (checks s.block (.reservedBits o rest)) (s.rejectReserved o) := by
  have hanswer (cs : List (Bool × Status)) :
      s.Checked ((o.isPeer && !s.block.cfg.hasPeer, .errNopeer) :: (true, .errRsvd) :: cs)
        (if o.isPeer && !s.block.cfg.hasPeer then s.reject .errNopeer else s.reject .errRsvd) :=
    .reject_if Iff.rfl (.rejects s _ _)
  unfold State.rejectReserved
  by_cases ho : o = .rdreg
  · rw [if_pos ho]
    exact .exempt (by simp [Decoded.opcode, ho]) <| .pass 1 rfl (hanswer _)
  · rw [if_neg ho]
    exact .unlessFaulted (by simpa [Decoded.opcode] using ho) <| .pass 1 rfl (hanswer _)

theorem State.rejectUndefined_checked (s : State) (opc : Byte) (rest : List Byte) :
    s.Checked (checks s.block (.undefinedOpcode opc rest)) s.rejectUndefined :=
  .unlessFaulted rfl (.rejects s _ _)

/-- A step with no reset asked for consumes what the decoder read and makes the checks on it. -/
theorem step_checked {s : State} (hr : s.resetIn = none) (hd : decode s.port ≠ .incomplete) :
    (s.setPort (decode s.port).rest).Checked (checks s.block (decode s.port)) (step s) := by
  cases h : decode s.port with
  | command i rest => exact step_of_command hr h ▸ exec_checked i (s.setPort rest) rest
  | reservedBits o rest => exact step_of_reservedBits hr h ▸ (s.setPort rest).rejectReserved_checked o rest
  | undefinedOpcode opc rest =>
    exact step_of_undefinedOpcode hr h ▸ (s.setPort rest).rejectUndefined_checked opc rest
  | incomplete => exact absurd h hd

/-- Settles O9: the tests on the step's path are R303's checks, one by one and in its order. -/
theorem firstFailedCheckIsReported : Obligations.FirstFailedCheckIsReported := by
  intro s hr hd
  have hchecked := step_checked hr hd
  rw [State.Checked, ← firstFailed_eq] at hchecked
  constructor
  · intro st hst
    rw [hst] at hchecked
    exact hchecked
  · intro hnone
    rw [hnone] at hchecked
    exact hchecked

end Sys2Proof.Machine

/-! PROOFS. The sequence-number unit, the receiver's RX.RECV, and the frame of every command (40_sequence.md,
43_receiver.md R190 to R194, R198). -/

namespace Sys2Proof.Machine

/-! ## A performed command is committed (60_exceptions.md R304) -/

/-- From a state of the invariant the check behind fault cause 3 passes. -/
theorem Performs.checked {b b' : Block} {i : Instr} {r : Response} (h : Performs b i b' r) (hb : b.Inv) :
    invariantsHold b b' = true :=
  invariantsHold_of (h.inv hb) h.advances.bsIn.flags h.advances.bsOut.flags

/-- So the command ends in the block and the response it computed. -/
theorem Performs.commit {s : State} {b : Block} {i : Instr} {r : Response} (h : Performs s.block i b r)
    (hs : s.Inv) : s.commit (.ok (b, r)) = .next ((s.setBlock b).answer r) :=
  State.commit_ok (h.checked hs)

/-! ## SQ.WRAP (40_sequence.md R110) -/

theorem low32_toNat {w : U64} (h : w.toNat < 2 ^ 32) : (low32 w).toNat = w.toNat := by
  simpa [low32] using Nat.mod_eq_of_lt h

@[simp] theorem low32_zeroExtend (w : U32) : low32 (w.zeroExtend 64) = w := by
  apply BitVec.eq_of_toNat_eq
  rw [low32_toNat ((zext_toNat w).trans_lt w.isLt), zext_toNat]

theorem isU32_zeroExtend (w : U32) : isU32 (w.zeroExtend 64) = true :=
  (isU32_iff _).2 ((zext_toNat w).trans_lt w.isLt)

theorem exec_sqWrap {s : State} {b : U64} (hf : s.block.sys.fault = false) (hb : isU32 b = true) (a : U64) :
    exec (.sqWrap a b) s =
      .next (s.answer (Response.word ((wrap a.toNat (low32 b)).zeroExtend 64))) :=
  (State.unlessFaulted_of_not hf).trans (if_pos hb)

/-- Settles O30: outside the fault state SQ.WRAP makes one test, the range of B. -/
theorem sqWrapResult : Obligations.SqWrapResult := by
  refine ⟨fun _ _ => ⟨rfl, rfl⟩, fun s a b hf => ⟨fun hb => ?_, fun hb => ?_⟩⟩
  · rw [exec_sqWrap hf ((isU32_iff b).2 hb), zext_eq_ofNat, wrap_toNat, low32_toNat hb]
  · have hb : ¬ isU32 b = true := by rw [isU32_iff]; omega
    exact (State.unlessFaulted_of_not hf).trans (if_neg hb)

/-! ## SQ.UNWRAP (40_sequence.md R111 to R113) -/

/-- A candidate of R112 is a value with the offset's residue. -/
theorem candidate_iff (raw zero : U32) (n : Nat) :
    (zero.toNat + n) % 2 ^ 32 = raw.toNat ↔ n % 2 ^ 32 = seqBase raw zero := by
  rw [← wrap_toNat, BitVec.toNat_inj, wrap_eq_iff]

/-- `unwrap` answers R112's candidate, also against a checkpoint above 2^64 − 1 (log entry 8). -/
theorem unwrap_isNearest (raw zero : U32) (c : Nat) :
    isNearest raw.toNat zero.toNat c (unwrap raw zero c) := by
  refine ⟨unwrap_lt raw zero c, (candidate_iff raw zero _).2 (unwrap_congr raw zero c), fun m hm hcand => ?_⟩
  rw [candidate_iff] at hcand
  have hbase := seqBase_lt raw zero
  have hlt := unwrap_lt raw zero c
  obtain ⟨hcong, hlow, hnear⟩ := unwrap_spec raw zero (c := min c (2 ^ 64 - 1)) (by omega)
  rw [unwrap_min] at hcong hlow hnear
  generalize unwrap raw zero c = n at *
  unfold distance
  rcases Nat.lt_or_ge (seqBase raw zero) (min c (2 ^ 64 - 1)) with h | h
  · rcases hnear h with ⟨hle, hhalf, hnext⟩ | ⟨hgt, hhalf, -⟩
    · -- The answer is the last candidate at or below the checkpoint, and no 64-bit one above is nearer.
      omega
    · -- The answer is the first candidate above the checkpoint, and the one below is farther.
      omega
  · -- No candidate lies below the answer, and the checkpoint is not above it.
    have hn := hlow h
    omega

/-- Against itself as the checkpoint, a number is its own nearest candidate (R113). -/
theorem unwrap_wrap (zero : U32) {n : Nat} (h : n < 2 ^ 64) : unwrap (wrap n zero) zero n = n := by
  obtain ⟨-, -, hnearest⟩ := unwrap_isNearest (wrap n zero) zero n
  have := hnearest n h (wrap_toNat n zero).symm
  unfold distance at this
  omega

theorem exec_sqUnwrap {s : State} {a b : U64} (hf : s.block.sys.fault = false) (ha : isU32 a = true)
    (hb : isU32 b = true) (c : U64) :
    exec (.sqUnwrap a b c) s =
      .next (s.answer (Response.word (BitVec.ofNat 64 (unwrap (low32 a) (low32 b) c.toNat)))) :=
  (State.unlessFaulted_of_not hf).trans (if_pos (by rw [ha, hb]; rfl))

/-- Settles O31: the answer is `unwrap`'s, which is the nearest candidate and fits R0. -/
theorem sqUnwrapNearestCandidate : Obligations.SqUnwrapNearestCandidate := by
  refine ⟨fun _ _ _ => ⟨rfl, rfl⟩, fun s a b c hf => ⟨fun ha hb => ?_, fun hab => ?_⟩⟩
  · refine ⟨_, ?_, exec_sqUnwrap hf ((isU32_iff a).2 ha) ((isU32_iff b).2 hb) c⟩
    have hword : (BitVec.ofNat 64 (unwrap (low32 a) (low32 b) c.toNat)).toNat = _ :=
      Nat.mod_eq_of_lt (unwrap_lt _ _ _)
    rw [hword, ← low32_toNat ha, ← low32_toNat hb]
    exact unwrap_isNearest (low32 a) (low32 b) c.toNat
  · have hab : ¬ (isU32 a && isU32 b) = true := by rw [Bool.and_eq_true, isU32_iff, isU32_iff]; omega
    exact (State.unlessFaulted_of_not hf).trans (if_neg hab)

/-- Settles O32: SQ.UNWRAP reads back SQ.WRAP's word, and `unwrap` inverts `wrap`. -/
theorem wrapUnwrapRoundTrip : Obligations.WrapUnwrapRoundTrip := by
  intro s n z hf hz
  have hz := (isU32_iff z).2 hz
  refine ⟨_, exec_sqWrap hf hz n, ?_⟩
  rw [exec_sqUnwrap hf (isU32_zeroExtend _) hz, low32_zeroExtend, unwrap_wrap _ n.isLt, BitVec.ofNat_toNat,
    BitVec.setWidth_eq]

/-! ## RX.RECV (43_receiver.md R190, R191) -/

/-- A receiver that takes a segment has seen a SYN, and its zero point is the first SYN's seqno (R192 (b)). -/
theorem Receiver.noteSyn_eq {r : Receiver} {m : SenderMessage} (h : r.synSeen = true ∨ m.syn = true) :
    r.noteSyn m = { synSeen := true, zeroPoint := if r.synSeen then r.zeroPoint else m.seqno } := by
  cases hs : r.synSeen with
  | true =>
    rw [Receiver.noteSyn_of_seen hs, if_pos rfl]
    cases r
    exact congrArg (Receiver.mk · _) hs
  | false =>
    have hm : m.syn = true := by simpa [hs] using h
    simp [Receiver.noteSyn, hs, hm]

theorem Receiver.awaitsSyn_eq_false {r : Receiver} {m : SenderMessage} (h : r.synSeen = true ∨ m.syn = true) :
    r.awaitsSyn m = false := by
  rcases h with h | h <;> simp [Receiver.awaitsSyn, h]

/-- The two ways a segment has no stream index (R193, R194). -/
theorem Receiver.streamIndex_eq (r : Receiver) (pushed : Nat) (m : SenderMessage) :
    let a := unwrap m.seqno r.zeroPoint (pushed + 1)
    let idx := if m.syn then a else a - 1
    r.streamIndex pushed m =
      if (m.syn = false ∧ a = 0) ∨ 2 ^ 64 - 1 < idx + m.payload.length then none else some idx := by
  simp only [Receiver.streamIndex, ite_or, Bool.and_eq_true, Bool.not_eq_true', beq_iff_eq]

theorem rxReceive_of_rst {b : Block} {m : SenderMessage} (h : m.rst = true) :
    rxReceive b m = .ok (b.setIn (bsSetError b.bsIn)) := by
  simp [rxReceive, h]

theorem rxReceive_of_no_syn {b : Block} {m : SenderMessage} (h : m.rst = false)
    (hseen : b.rx.synSeen = false) (hsyn : m.syn = false) : rxReceive b m = .ok b := by
  simp [rxReceive, Receiver.awaitsSyn, h, hseen, hsyn]

theorem rxReceive_of_no_index {b : Block} {m : SenderMessage} (h : m.rst = false)
    (hsyn : b.rx.synSeen = true ∨ m.syn = true)
    (hidx : (b.rx.noteSyn m).streamIndex b.bsIn.bytesPushed.toNat m = none) : rxReceive b m = .ok b := by
  simp [rxReceive, h, Receiver.awaitsSyn_eq_false hsyn, hidx]

theorem rxReceive_of_index {b : Block} {m : SenderMessage} {idx l : Nat} {ra : Reassembler} {inn : Stream}
    (h : m.rst = false) (hsyn : b.rx.synSeen = true ∨ m.syn = true)
    (hidx : (b.rx.noteSyn m).streamIndex b.bsIn.bytesPushed.toNat m = some idx)
    (hi : raInsert b.ra b.bsIn idx m.payload m.fin = .ok (ra, inn, l)) :
    rxReceive b m = .ok (((b.setRx (b.rx.noteSyn m)).setRa ra).setIn inn) := by
  simp [rxReceive, h, Receiver.awaitsSyn_eq_false hsyn, hidx, hi, bind, Except.bind, pure, Except.pure]

/-- A descriptor that passes the checks of R190 does what `RX_receive` does. -/
theorem exec_rxRecv {s : State} {sd : Sd} {b : Block} (hs : s.Inv) (hf : s.block.sys.fault = false)
    (hr : sd.rsvd = 0) (hl : lengthAllowed s.block.cfg sd.payload = true)
    (hb : rxReceive s.block (smOf sd) = .ok b) :
    exec (.rxRecv sd) s = .next ((s.setBlock b).answer Response.done) := by
  rw [← (Performs.rxRecv hb).commit hs]
  refine (State.unlessFaulted_of_not hf).trans ?_
  simp [reservedClear, hr, hl, hb, bind, Except.bind, pure, Except.pure]

/-- RA.INSERT of a range that passes the checks of 42_reassembler.md R160 does what `RA_insert` does. -/
theorem exec_raInsert {s : State} {last : Bool} {first : U64} {data : List Byte} {ra : Reassembler}
    {inn : Stream} {l : Nat} (hs : s.Inv) (hf : s.block.sys.fault = false)
    (hl : lengthAllowed s.block.cfg data = true) (hfits : first.toNat + data.length < 2 ^ 64)
    (hi : raInsert s.block.ra s.block.bsIn first.toNat data last = .ok (ra, inn, l)) :
    exec (.raInsert last first data) s =
      .next ((s.setBlock ((s.block.setRa ra).setIn inn)).answer (Response.word (BitVec.ofNat 64 l))) := by
  rw [← (Performs.raInsert hfits hi).commit hs]
  have hcheck : (lengthAllowed s.block.cfg data && decide (first.toNat + data.length ≤ 2 ^ 64 - 1)) = true := by
    rw [hl, Bool.true_and, decide_eq_true_iff]; omega
  refine ((State.unlessFaulted_of_not hf).trans (if_pos hcheck)).trans ?_
  rw [hi]; rfl

/-- No invariant speaks of RX. -/
theorem Block.Inv.setRx {b : Block} (h : b.Inv) (r : Receiver) : (b.setRx r).Inv :=
  h.of_inbound h.bsIn h.ra rfl rfl rfl rfl rfl rfl

/-- Settles O41, by the cases of `RX_receive`: a segment with a stream index goes to `RA_insert`, which does not
fault. -/
theorem rxRecvResult : Obligations.RxRecvResult := by
  intro s sd hs hf hr hlen rx a idx dropped
  have hl := (lengthAllowed_iff s.block.cfg sd.payload).2 hlen
  have hnote (hsyn : s.block.rx.synSeen = true ∨ sd.syn = true) : s.block.rx.noteSyn (smOf sd) = rx :=
    Receiver.noteSyn_eq hsyn
  have hindex : rx.streamIndex s.block.bsIn.bytesPushed.toNat (smOf sd) = if dropped then none else some idx :=
    Receiver.streamIndex_eq _ _ _
  refine ⟨unwrap_isNearest _ _ _, fun hrst => ?_, fun hrst hseen hsyn => ?_, fun hrst hsyn hdrop => ?_,
    fun hrst hsyn hkeep => ?_⟩
  · exact exec_rxRecv hs hf hr hl (rxReceive_of_rst hrst)
  · exact exec_rxRecv hs hf hr hl (rxReceive_of_no_syn hrst hseen hsyn)
  · rw [if_pos hdrop, ← hnote hsyn] at hindex
    exact exec_rxRecv hs hf hr hl (rxReceive_of_no_index hrst hsyn hindex)
  · rw [if_neg hkeep] at hindex
    have hfits : idx + sd.payload.length < 2 ^ 64 := Receiver.streamIndex_fits hindex
    have hword : (BitVec.ofNat 64 idx).toNat = idx := Nat.mod_eq_of_lt (by omega)
    obtain ⟨ra, inn1, run, hinsert, -⟩ := raInsert_spec hs.bsIn hs.ra hfits sd.fin
    refine ⟨_, _, exec_raInsert (Block.Inv.setRx hs rx) hf hl (by rwa [hword]) (by rw [hword]; exact hinsert),
      rfl, rfl, ?_⟩
    have hrx := rxReceive_of_index hrst hsyn ((hnote hsyn).symm ▸ hindex) hinsert
    rw [hnote hsyn] at hrx
    exact exec_rxRecv hs hf hr hl hrx

/-! ## The frame of the internal functions -/

theorem bsPush_frame {s s' : Stream} {d : List Byte} {k : Nat} (h : bsPush s d = .ok (s', k)) :
    ∃ buf pushed, s' = { s with buf := buf, bytesPushed := pushed } := by
  rcases bsPush_ok h with ⟨-, rfl, -⟩ | ⟨-, -, -, p, -, rfl⟩
  · exact ⟨s'.buf, s'.bytesPushed, rfl⟩
  · exact ⟨_, p, rfl⟩

theorem bsPop_frame {policy : PopPolicy} {s s' : Stream} {n k : Nat} (h : bsPop policy s n = .ok (s', k)) :
    ∃ buf popped, s' = { s with buf := buf, bytesPopped := popped } := by
  obtain ⟨-, -, p, -, rfl⟩ := bsPop_ok h
  exact ⟨_, p, rfl⟩

theorem raInsert_frame {r r' : Reassembler} {inn inn' : Stream} {f l : Nat} {d : List Byte} {last : Bool}
    (h : raInsert r inn f d last = .ok (r', inn', l)) :
    ∃ buf pushed closed, inn' = { inn with buf := buf, bytesPushed := pushed, closed := closed } := by
  obtain ⟨inn1, run, k, hpush, -, -, rfl⟩ := raInsert_ok h
  obtain ⟨buf, pushed, rfl⟩ := bsPush_frame hpush
  split
  · exact ⟨buf, pushed, true, rfl⟩
  · exact ⟨buf, pushed, inn.closed, rfl⟩

/-- `RX_receive` writes RA, RX, and of IN all but the capacity and the count of pops (43_receiver.md R190). -/
theorem rxReceive_frame_fields {b b' : Block} {m : SenderMessage} (h : rxReceive b m = .ok b') :
    ∃ rx ra buf pushed closed error, b' = ((b.setRx rx).setRa ra).setIn
      { b.bsIn with buf := buf, bytesPushed := pushed, closed := closed, error := error } := by
  rcases rxReceive_ok h with ⟨-, rfl⟩ | ⟨-, -, -, rfl⟩ | ⟨-, -, ⟨-, rfl⟩ | ⟨idx, ra, inn, l, -, hi, rfl⟩⟩
  · exact ⟨b.rx, b.ra, b.bsIn.buf, b.bsIn.bytesPushed, b.bsIn.closed, true, rfl⟩
  · exact ⟨b'.rx, b'.ra, b'.bsIn.buf, b'.bsIn.bytesPushed, b'.bsIn.closed, b'.bsIn.error, rfl⟩
  · exact ⟨b'.rx, b'.ra, b'.bsIn.buf, b'.bsIn.bytesPushed, b'.bsIn.closed, b'.bsIn.error, rfl⟩
  · obtain ⟨buf, pushed, closed, rfl⟩ := raInsert_frame hi
    exact ⟨_, ra, buf, pushed, closed, b.bsIn.error, rfl⟩

/-- `TX_receive` writes OUT.error, and of TX what an acknowledgment and the window write (44_sender.md R217). -/
theorem txReceive_frame_fields (b : Block) (m : ReceiverMessage) :
    ∃ error window acked q rto el running n, txReceive b m =
      (b.setOut { b.bsOut with error := error }).setTx { b.tx with
        windowSize := window, bytesAcked := acked, outstanding := q, rto := rto, timerElapsed := el
        timerRunning := running, consecutiveRetx := n } := by
  rcases txReceive_cases b m with ⟨-, he⟩ | ⟨-, t, he, hzero, hsent, hsyn, hfin, -⟩
  · exact ⟨true, b.tx.windowSize, b.tx.bytesAcked, b.tx.outstanding, b.tx.rto, b.tx.timerElapsed,
      b.tx.timerRunning, b.tx.consecutiveRetx, he⟩
  · refine ⟨b.bsOut.error, t.windowSize, t.bytesAcked, t.outstanding, t.rto, t.timerElapsed, t.timerRunning,
      t.consecutiveRetx, ?_⟩
    rw [he]
    dsimp only
    rw [← hzero, ← hsent, ← hsyn, ← hfin]
    rfl

/-- One pass of `TX_push` writes what TX.PUSH may write (R210, R212). -/
theorem txPass_frame {e : Emission} {b b' : Block} {sd : Sd} (h : txPass e b = .ok (some (b', sd))) :
    writesOnlyItsState .txPush b b' := by
  rcases txPass_ok h with ⟨ho, -⟩ | ⟨-, -, out, sent, hpop, -, -, ho⟩
  · cases ho
  · obtain ⟨rfl, -⟩ : b' = _ ∧ sd = _ := by simpa using ho
    obtain ⟨buf, popped, rfl⟩ := bsPop_frame hpop
    rfl

/-- A run of passes does too. -/
theorem txPasses_frame {e : Emission} {fuel : Nat} {b b' : Block} {sds : List Sd}
    (h : txPasses e fuel b = .ok (b', sds)) : writesOnlyItsState .txPush b b' := by
  induction fuel generalizing b sds with
  | zero =>
    simp only [txPasses, Except.ok.injEq, Prod.mk.injEq] at h
    obtain ⟨rfl, -⟩ := h
    rfl
  | succ fuel ih =>
    rw [txPasses] at h
    obtain ⟨o, ho, h⟩ := except_bind_ok.1 h
    cases o with
    | none =>
      simp only [pure, Except.pure, Except.ok.injEq, Prod.mk.injEq] at h
      obtain ⟨rfl, -⟩ := h
      rfl
    | some x =>
      obtain ⟨⟨b2, sds'⟩, hrest, h⟩ := except_bind_ok.1 h
      simp only [pure, Except.pure, Except.ok.injEq, Prod.mk.injEq] at h
      obtain ⟨rfl, -⟩ := h
      have hpass : x.1 = _ := txPass_frame ho
      have hpasses : b2 = _ := ih hrest
      exact hpasses.trans (by rw [hpass])

/-! ## The frame of a command -/

/-- A command that changes nothing keeps to its frame. -/
theorem writesOnlyItsState_refl (i : Instr) (b : Block) : writesOnlyItsState i b b := by
  cases i with
  | bsSeterr sel => cases sel <;> rfl
  | _ => rfl

/-- A command that can fault may write SYS. -/
theorem writesOnlyItsState_setSys {i : Instr} (h : i.isQuery = false) (b : Block) (y : Sys) :
    writesOnlyItsState i b (b.setSys y) := by
  cases i with
  | sqWrap | sqUnwrap | bsPeek | rxSend | txEmpty | rdreg => cases h
  | bsSeterr sel => cases sel <;> rfl
  | _ => rfl

/-- A command that is performed keeps to its frame. -/
theorem Performs.writesOnlyItsState {b b' : Block} {i : Instr} {r : Response} (h : Performs b i b' r) :
    writesOnlyItsState i b b' := by
  cases h with
  | bsPush hpush =>
    obtain ⟨buf, pushed, rfl⟩ := bsPush_frame hpush
    rfl
  | bsClose => rfl
  | bsSeterr sel => cases sel <;> rfl
  | bsPop hpop =>
    obtain ⟨buf, popped, rfl⟩ := bsPop_frame hpop
    rfl
  | raInsert _ hinsert =>
    obtain ⟨buf, pushed, closed, rfl⟩ := raInsert_frame hinsert
    rfl
  | rxRecv hrx =>
    obtain ⟨rx, ra, buf, pushed, closed, error, rfl⟩ := rxReceive_frame_fields hrx
    rfl
  | txPush hpush => exact txPasses_frame hpush
  | txRecv sd =>
    obtain ⟨error, window, acked, q, rto, el, running, n, he⟩ := txReceive_frame_fields b (rmOf sd)
    rw [he]; rfl
  | txTick htick =>
    obtain ⟨el, rto, n, rfl⟩ := txTick_frame htick
    rfl
  | @prRecv sd _ _ hrecv =>
    obtain ⟨b1, linger, hrx, -, rfl⟩ := prReceive_cases hrecv
    obtain ⟨rx, ra, buf, pushed, closed, error, rfl⟩ := rxReceive_frame_fields hrx
    obtain ⟨error', window, acked, q, rto, el, running, n, he⟩ := txReceive_frame_fields _ (rmOf sd)
    rw [he]; rfl
  | prPush hpush => exact txPasses_frame hpush
  | prTick htick =>
    obtain ⟨now, el, rto, n, -, rfl⟩ := prTick_frame htick
    rfl

theorem Ends.port {i : Instr} {s t : State} (h : Ends i s t) : t.port = s.port := by
  cases h with
  | answered r ht => rw [ht, State.answer_port]
  | faulted c _ _ ht => rw [ht, State.enterFault_port]
  | performed b r _ _ _ ht => rw [ht, State.answer_port, State.setBlock_port]

/-- SYS stays but where the command enters the fault state. -/
theorem Ends.sys {i : Instr} {s t : State} (h : Ends i s t) :
    t.block.sys = s.block.sys ∨ ∃ c, t = s.enterFault c := by
  cases h with
  | answered r ht => exact .inl (ht ▸ rfl)
  | faulted c _ _ ht => exact .inr ⟨c, ht⟩
  | performed b r _ hb _ ht => exact .inl (ht ▸ hb.advances.sys)

/-- A query only answers, and every other command ends within its frame. -/
theorem exec_writesOnlyItsState {i : Instr} {s t : State} (h : exec i s = .next t) :
    writesOnlyItsState i s.block t.block := by
  cases hq : i.isQuery with
  | true =>
    obtain ⟨r, hr⟩ := exec_query hq s
    obtain rfl : t = s.answer r := by simpa using h.symm.trans hr
    exact writesOnlyItsState_refl i s.block
  | false =>
    cases exec_ends i s t h with
    | answered r ht => exact ht ▸ writesOnlyItsState_refl i s.block
    | faulted c _ _ ht => exact ht ▸ writesOnlyItsState_setSys hq s.block _
    | performed b r _ hb _ ht => exact ht ▸ hb.writesOnlyItsState

/-- Settles O28: the frames of the internal functions give each command's, and its end the ports and SYS. -/
theorem commandsWriteOnlyTheirState : Obligations.CommandsWriteOnlyTheirState := by
  intro i s t h
  have hends := exec_ends i s t h
  exact ⟨exec_writesOnlyItsState h, hends.port, hends.resetIn, hends.sys⟩

end Sys2Proof.Machine

/-! PROOFS. The byte-stream commands: the ownership of the streams' sides, and what each command answers
(41_bytestream.md R130 to R138). -/

namespace Sys2Proof.Machine

/-! ## The ownership of the streams' sides (41_bytestream.md R134) -/

/-- The rows of R134's table that answer ERR_OWNER. -/
theorem violatesOwnership_iff (i : Instr) :
    i.violatesOwnership = true ↔
      (∃ d, i = .bsPush .inbound d) ∨ i = .bsClose .inbound ∨ ∃ n, i = .bsPop .outbound n := by
  constructor
  · intro h
    unfold Instr.violatesOwnership at h
    split at h
    · exact .inl ⟨_, rfl⟩
    · exact .inr (.inl rfl)
    · exact .inr (.inr ⟨_, rfl⟩)
    · cases h
  · rintro (⟨d, rfl⟩ | rfl | ⟨n, rfl⟩) <;> rfl

/-- Outside the fault state the ownership test is the first one such a command makes. -/
theorem exec_of_violatesOwnership {i : Instr} {s : State} (hf : s.block.sys.fault = false)
    (h : i.violatesOwnership = true) : exec i s = s.reject .errOwner := by
  rcases (violatesOwnership_iff i).1 h with ⟨d, rfl⟩ | rfl | ⟨n, rfl⟩ <;>
    exact (State.unlessFaulted_of_not hf).trans (if_pos rfl)

/-- The first status reported is that of a check that holds. -/
theorem mem_of_firstStatus {cs : List (Bool × Status)} {st : Status} (h : firstStatus cs = some st) :
    (true, st) ∈ cs := by
  obtain ⟨⟨c, st'⟩, hfind, rfl⟩ := Option.map_eq_some_iff.1 h
  obtain rfl : c = true := List.find?_some hfind
  exact List.mem_of_find?_eq_some hfind

/-- Of the checks of 60_exceptions.md R303 only the ownership test reports ERR_OWNER. -/
theorem violatesOwnership_of_firstStatus {b : Block} {i : Instr} {rest : List Byte}
    (h : firstStatus (checks b (.command i rest)) = some .errOwner) : i.violatesOwnership = true := by
  simpa [checks, Decoded.commandHas] using mem_of_firstStatus h

/-- A command that answers ERR_OWNER fails the ownership test. -/
theorem violatesOwnership_of_errOwner {i : Instr} {s t : State} {r : Response} (h : exec i s = .next t)
    (hr : t.resp = some r) (hst : r.status = .errOwner) : i.violatesOwnership = true := by
  have hchecked := exec_checked i s []
  rw [h, State.Checked] at hchecked
  split at hchecked
  · next st hfirst =>
    obtain rfl : t = s.answer (Response.bare st) := by simpa [State.reject] using hchecked
    obtain rfl : Response.bare st = r := by simpa using hr
    obtain rfl : st = .errOwner := hst
    exact violatesOwnership_of_firstStatus hfirst
  · obtain ⟨t', r', ht, -, hr', hcompleted⟩ := hchecked
    obtain rfl : t = t' := by simpa using ht
    obtain rfl : r = r' := by simpa [hr] using hr'
    simp [hst] at hcompleted

/-- Settles O38: the ownership test is the one that reports ERR_OWNER, and nothing comes before it outside the
fault state. -/
theorem portOwnership : Obligations.PortOwnership := by
  intro i s t r hf h hr
  have hreject (hi : i.violatesOwnership = true) : t = s.answer (Response.bare .errOwner) := by
    simpa [State.reject] using h.symm.trans (exec_of_violatesOwnership hf hi)
  refine ⟨⟨fun hst => (violatesOwnership_iff i).1 (violatesOwnership_of_errOwner h hr hst), fun hi => ?_⟩,
    fun hst => ?_⟩
  · rw [hreject ((violatesOwnership_iff i).2 hi), State.answer_resp, Option.some.injEq] at hr
    rw [← hr, Response.bare_status]
  · rw [hreject (violatesOwnership_of_errOwner h hr hst), State.answer_block]

/-! ## BS.PUSH (41_bytestream.md R130, R135) -/

theorem bsPush_of_stopped {s : Stream} (h : s.closed = true ∨ s.error = true) (d : List Byte) :
    bsPush s d = .ok (s, 0) :=
  if_pos (by rwa [Bool.or_eq_true])

theorem bsPush_of_open {s : Stream} (hc : s.closed = false) (he : s.error = false) (d : List Byte) :
    bsPush s d = (store64 (s.bytesPushed.toNat + min d.length s.available)).map fun pushed =>
      ({ s with buf := s.buf ++ d.take (min d.length s.available), bytesPushed := pushed },
        min d.length s.available) :=
  if_neg (by simp [hc, he])

/-- Outside the fault state a BS.PUSH on OUT of an allowed length ends as `BS_push` does. -/
theorem exec_bsPush {s : State} {data : List Byte} (hf : s.block.sys.fault = false)
    (hl : lengthAllowed s.block.cfg data = true) :
    exec (.bsPush .outbound data) s = s.commit ((bsPush s.block.bsOut data).map fun x =>
      (s.block.setOut x.1, Response.word (BitVec.ofNat 64 x.2))) :=
  (State.unlessFaulted_of_not hf).trans ((if_neg nofun).trans (if_pos hl))

theorem exec_bsPush_ok {s : State} {data : List Byte} {out : Stream} {k : Nat} (hs : s.Inv)
    (hf : s.block.sys.fault = false) (hl : lengthAllowed s.block.cfg data = true)
    (hpush : bsPush s.block.bsOut data = .ok (out, k)) :
    exec (.bsPush .outbound data) s =
      .next ((s.setBlock (s.block.setOut out)).answer (Response.word (BitVec.ofNat 64 k))) := by
  rw [exec_bsPush hf hl, hpush]
  exact (Performs.bsPush hpush).commit hs

/-- Settles O33, by the tests of the command and the cases of `BS_push`. -/
theorem bsPushResult : Obligations.BsPushResult := by
  refine ⟨fun _ _ => ⟨rfl, rfl⟩, ?_⟩
  intro s data hs hf out k
  have hk : min data.length s.block.bsOut.available = k := rfl
  have hlen := lengthAllowed_iff s.block.cfg data
  refine ⟨exec_of_violatesOwnership hf rfl, fun hl => ?_, fun hl hstop => ?_, fun hl hc he hfits => ?_,
    fun hl hc he hover => ?_⟩
  · have hl : ¬ lengthAllowed s.block.cfg data = true := by rw [hlen]; omega
    exact (State.unlessFaulted_of_not hf).trans ((if_neg nofun).trans (if_neg hl))
  · exact exec_bsPush_ok hs hf (hlen.2 hl) (bsPush_of_stopped hstop data)
  · refine exec_bsPush_ok hs hf (hlen.2 hl) ?_
    rw [bsPush_of_open hc he, hk, store64_eq hfits]; rfl
  · rw [exec_bsPush hf (hlen.2 hl), bsPush_of_open hc he, hk, store64_overflow (by omega)]; rfl

/-! ## BS.POP (41_bytestream.md R131, R138) -/

theorem bsPop_of_beyond {s : Stream} {n : Nat} (h : s.buffered < n) : bsPop .fault s n = .error .popBeyond :=
  if_pos (by simpa using h)

/-- A pop that is allowed takes the least of what is asked and what is buffered; its counter cannot pass
bytes_pushed (R24), so it never overflows. -/
theorem bsPop_eq {policy : PopPolicy} {s : Stream} {n : Nat} (h : n ≤ s.buffered ∨ policy = .clamp) :
    bsPop policy s n = .ok ({ s with
      buf := s.buf.drop (min n s.buffered)
      bytesPopped := BitVec.ofNat 64 (s.bytesPopped.toNat + min n s.buffered) }, min n s.buffered) := by
  obtain ⟨⟨s', k⟩, hpop⟩ := bsPop_of_allowed h
  obtain ⟨-, rfl, p, hp, rfl⟩ := bsPop_ok hpop
  rw [hpop, ← hp, BitVec.ofNat_toNat, BitVec.setWidth_eq]

/-- Outside the fault state a BS.POP on IN ends as `BS_pop` does. -/
theorem exec_bsPop {s : State} (hf : s.block.sys.fault = false) (n : U64) :
    exec (.bsPop .inbound n) s = s.commit ((bsPop s.block.cfg.popPolicy s.block.bsIn n.toNat).map fun x =>
      (s.block.setIn x.1, Response.word (BitVec.ofNat 64 x.2))) :=
  (State.unlessFaulted_of_not hf).trans (if_neg nofun)

/-- Settles O37, by the ownership test and the cases of `BS_pop`; under the invariant the buffer's length is the
difference of the counters. -/
theorem bsPopResult : Obligations.BsPopResult := by
  refine ⟨fun _ _ => ⟨rfl, rfl⟩, ?_⟩
  intro s n hs hf inn k
  have hlen : s.block.bsIn.buffered = inn.buf.length := Stream.buffered_of_holds hs.bsIn
  refine ⟨exec_of_violatesOwnership hf rfl, fun hallowed => ?_, fun hbeyond hpolicy => ?_⟩
  · have hpop := bsPop_eq (hlen ▸ hallowed)
    rw [exec_bsPop hf, hpop]
    refine ((Performs.bsPop hpop).commit hs).trans ?_
    rw [hlen]
  · rw [exec_bsPop hf, hpolicy, bsPop_of_beyond (hlen ▸ hbeyond)]; rfl

/-! ## BS.CLOSE and BS.SETERR (41_bytestream.md R132, R136, R137) -/

/-- Settles O34: after the ownership test BS.CLOSE meets no fault. -/
theorem bsCloseResult : Obligations.BsCloseResult :=
  ⟨fun _ => ⟨rfl, rfl⟩, fun _ hs hf => ⟨exec_of_violatesOwnership hf rfl,
    (State.unlessFaulted_of_not hf).trans ((if_neg nofun).trans (Performs.bsClose.commit hs))⟩⟩

/-- Outside the fault state BS.SETERR makes no test and meets no fault. -/
theorem exec_bsSeterr {s : State} (hs : s.Inv) (hf : s.block.sys.fault = false) (sel : Sel) :
    exec (.bsSeterr sel) s =
      .next ((s.setBlock (s.block.setStream sel (bsSetError (s.block.stream sel)))).answer Response.done) :=
  (State.unlessFaulted_of_not hf).trans ((Performs.bsSeterr sel).commit hs)

/-- Settles O35: BS.SETERR sets the error flag of the stream it names. -/
theorem bsSeterrResult : Obligations.BsSeterrResult :=
  ⟨fun _ => ⟨rfl, rfl⟩, fun _ hs hf => ⟨exec_bsSeterr hs hf .inbound, exec_bsSeterr hs hf .outbound⟩⟩

/-! ## BS.PEEK (41_bytestream.md R133) -/

/-- Outside the fault state BS.PEEK makes no test and answers the stream's buffer. -/
theorem exec_bsPeek {s : State} (hf : s.block.sys.fault = false) (sel : Sel) :
    exec (.bsPeek sel) s = .next (s.answer (Response.data (s.block.stream sel).buf)) :=
  State.unlessFaulted_of_not hf

/-- Settles O36: the answer is the buffer and its length, and nothing else. -/
theorem bsPeekResult : Obligations.BsPeekResult :=
  ⟨fun _ => ⟨rfl, rfl⟩, fun _ hf =>
    ⟨⟨_, exec_bsPeek hf .inbound, rfl, rfl, rfl, rfl, rfl⟩,
      ⟨_, exec_bsPeek hf .outbound, rfl, rfl, rfl, rfl, rfl⟩⟩⟩

end Sys2Proof.Machine

/-! PROOFS. The reassembler: what one RA.INSERT does, index by index, and the round-trip law of any order of
slices (42_reassembler.md R160 to R166). -/

namespace Sys2Proof.Machine

/-! ## One insertion, index by index (42_reassembler.md R161) -/

theorem Reassembler.ended_eq_any (r : Reassembler) :
    r.ended = r.endIndex.any fun e => decide (e ≤ r.nextIndex) := by
  unfold Reassembler.ended
  cases r.endIndex <;> rfl

/-- IN after `RA_insert` delivers `run` to it and leaves `ra`: a stopped stream takes no bytes, and the end closes
it when it is reached (R161 steps 4 and 5). -/
def Stream.afterRun (inn : Stream) (run : List Byte) (ra : Reassembler) : Stream :=
  { inn with
    buf := if inn.closed || inn.error then inn.buf else inn.buf ++ run
    bytesPushed :=
      if inn.closed || inn.error then inn.bytesPushed
      else BitVec.ofNat 64 (inn.bytesPushed.toNat + run.length)
    closed := inn.closed || ra.endIndex.any fun e => decide (e ≤ ra.nextIndex) }

/-- `run` is the maximal run of the merged store `m` at its next index, and `ra` is `m` without it: the run that
step 4 of R161 delivers, and RA after it. -/
structure Reassembler.Delivers (m : Reassembler) (run : List Byte) (ra : Reassembler) : Prop where
  run_read : ∀ j, j < run.length → m.pending.read (m.nextIndex.toNat + j) = run[j]?
  run_stops : m.pending.read (m.nextIndex.toNat + run.length) = none
  wf : ra.pending.wf = true
  read : ∀ i, ra.pending.read i =
    if m.nextIndex.toNat ≤ i ∧ i < m.nextIndex.toNat + run.length then none else m.pending.read i
  nextIndex : ra.nextIndex.toNat = m.nextIndex.toNat + run.length

/-- `RA_insert` delivers the run of the merged store, records the end with LAST, and does not fault. -/
theorem raInsert_delivers {r : Reassembler} {inn : Stream} (hin : inn.holds = true) (h : r.Inv inn) {f : Nat}
    {d : List Byte} (hf : f + d.length < 2 ^ 64) (last : Bool) :
    ∃ (run : List Byte) (ra : Reassembler), (r.merge inn f d).Delivers run ra ∧
      ra.endIndex = (if last then some (BitVec.ofNat 64 (f + d.length)) else r.endIndex) ∧
      raInsert r inn f d last = .ok (ra, inn.afterRun run ra, run.length) := by
  obtain ⟨ra, inn1, run, hinsert, hrun, hpending, hnext, hend, hpush, -, hra⟩ := raInsert_spec hin h hf last
  refine ⟨run, ra, ⟨fun j hj => ?_, ?_, hra.wf, fun i => ?_, hnext⟩, hend, ?_⟩
  · subst hrun; exact Memory.run_read _ _ j hj
  · subst hrun; exact Memory.run_maximal _ _
  · rw [hpending, Memory.read_erase]; rfl
  · have hinn1 : (if ra.ended then bsClose inn1 else inn1) = inn.afterRun run ra := by
      unfold Stream.afterRun
      rw [← ra.ended_eq_any]
      rcases hpush with ⟨hstopped, rfl⟩ | ⟨hclosed, herror, p, hp, rfl⟩
      · have hstopped : (inn1.closed || inn1.error) = true := by rwa [Bool.or_eq_true]
        cases hended : ra.ended <;> simp [hstopped, bsClose]
      · have hp : p = BitVec.ofNat 64 (inn.bytesPushed.toNat + run.length) := by simp [← hp]
        cases hended : ra.ended <;> simp [hclosed, herror, hp, bsClose]
    rw [hinsert, hinn1]

/-- RA.INSERT of a range that passes the checks of R160, from any state of the invariant. -/
theorem exec_raInsert_delivers {s : State} {last : Bool} {first : U64} {data : List Byte} (hs : s.Inv)
    (hf : s.block.sys.fault = false) (hlen : data.length ≤ s.block.cfg.maxDataLen.toNat)
    (hfits : first.toNat + data.length < 2 ^ 64) :
    ∃ (run : List Byte) (ra : Reassembler), (s.block.ra.merge s.block.bsIn first.toNat data).Delivers run ra ∧
      ra.endIndex =
        (if last then some (BitVec.ofNat 64 (first.toNat + data.length)) else s.block.ra.endIndex) ∧
      exec (.raInsert last first data) s =
        .next ((s.setBlock ((s.block.setRa ra).setIn (s.block.bsIn.afterRun run ra))).answer
          (Response.word (BitVec.ofNat 64 run.length))) := by
  obtain ⟨run, ra, hdelivers, hend, hinsert⟩ := raInsert_delivers hs.bsIn hs.ra hfits last
  exact ⟨run, ra, hdelivers, hend, exec_raInsert hs hf ((lengthAllowed_iff _ _).2 hlen) hfits hinsert⟩

/-- RA.INSERT of a range that fails a check of R160. -/
theorem exec_raInsert_rejected {s : State} {last : Bool} {first : U64} {data : List Byte}
    (hf : s.block.sys.fault = false)
    (h : s.block.cfg.maxDataLen.toNat < data.length ∨ 2 ^ 64 - 1 < first.toNat + data.length) :
    exec (.raInsert last first data) s = s.reject .errOperand := by
  refine (State.unlessFaulted_of_not hf).trans (if_neg ?_)
  rw [Bool.and_eq_true, lengthAllowed_iff, decide_eq_true_iff]
  omega

/-- Settles O39: the two checks of R160, then `RA_insert`, whose merged store reads as the window rule says. -/
theorem raInsertResult : Obligations.RaInsertResult := by
  refine ⟨fun _ _ _ => ⟨rfl, rfl⟩, fun s last first data hs hf => ⟨fun hlen hfits => ?_,
    exec_raInsert_rejected hf⟩⟩
  obtain ⟨run, ra, hdelivers, hend, hexec⟩ :=
    exec_raInsert_delivers (last := last) hs hf hlen (by omega : first.toNat + data.length < 2 ^ 64)
  have hread := s.block.ra.merge_read s.block.bsIn first.toNat data
  refine ⟨run, ra, fun j hj => ?_, ?_, hdelivers.wf, fun i => ?_, hdelivers.nextIndex, hend, hexec⟩
  · exact (hread _).symm.trans (hdelivers.run_read j hj)
  · exact (hread _).symm.trans hdelivers.run_stops
  · exact (hdelivers.read i).trans (if_congr Iff.rfl rfl (hread i))

/-! ## Slices of a string in any order (42_reassembler.md R166) -/

/-- What the host inserts: LAST, first_index and the bytes. -/
abbrev Piece := Bool × U64 × List Byte

/-- The piece holds the bytes of `str` at its own indexes; LAST only at the end of `str`. -/
structure Piece.SliceOf (p : Piece) (str : List Byte) : Prop where
  fits : p.2.1.toNat + p.2.2.length ≤ str.length
  bytes : p.2.2 = (str.drop p.2.1.toNat).take p.2.2.length
  last : p.1 = true → p.2.1.toNat + p.2.2.length = str.length

/-- The piece holds a byte of index `k`. -/
abbrev Piece.Covers (p : Piece) (k : Nat) : Prop := p.2.1.toNat ≤ k ∧ k < p.2.1.toNat + p.2.2.length

theorem Piece.SliceOf.getElem? {p : Piece} {str : List Byte} (h : p.SliceOf str) {k : Nat} (hk : p.Covers k) :
    p.2.2[k - p.2.1.toNat]? = str[k]? := by
  obtain ⟨hlo, hhi⟩ := hk
  rw [h.bytes, List.getElem?_take_of_lt (by omega), List.getElem?_drop]
  congr 1; omega

/-- RA and IN after slices of `str`: IN holds `str` up to the next index, whatever is pending is a byte of `str`,
every byte of a slice was delivered or is pending, and the end is known exactly after a LAST. -/
structure Reassembles (str : List Byte) (seen : List Piece) (r : Reassembler) (inn : Stream) : Prop where
  buf : inn.buf = str.take r.nextIndex.toNat
  next_le : r.nextIndex.toNat ≤ str.length
  error : inn.error = false
  pending : ∀ i v, r.pending.read i = some v → str[i]? = some v
  covered : ∀ p ∈ seen, ∀ k, p.Covers k → k < r.nextIndex.toNat ∨ r.pending.read k ≠ none
  endIndex : ∀ e, r.endIndex = some e → e.toNat = str.length
  last : r.endIndex ≠ none ↔ ∃ p ∈ seen, p.1 = true
  closed : inn.closed = true ↔ r.endIndex ≠ none ∧ r.nextIndex.toNat = str.length

theorem reassembles_reset (c : Config) (str : List Byte) :
    Reassembles str [] (Block.reset c).ra (Block.reset c).bsIn where
  buf := rfl
  next_le := Nat.zero_le _
  error := rfl
  pending := nofun
  covered := nofun
  endIndex := nofun
  last := by simp [Block.reset]
  closed := by simp [Block.reset, Stream.reset]

section Insert

variable {str : List Byte} {seen : List Piece} {r : Reassembler} {inn : Stream} {p : Piece}

/-- A string that fits IN lies below the window's upper bound: what is delivered stays buffered. -/
theorem Reassembles.length_le_windowEnd (h : Reassembles str seen r inn) (hin : inn.holds = true)
    (hcap : str.length ≤ inn.capacity.toNat) : str.length ≤ r.windowEnd inn := by
  have hbuffered : inn.buffered = r.nextIndex.toNat := by
    rw [Stream.buffered_of_holds hin, h.buf, List.length_take, Nat.min_eq_left h.next_le]
  unfold Reassembler.windowEnd Stream.available
  omega

/-- The window cuts nothing off the end of a slice: the merged store has all of it from the next index on. -/
theorem Reassembles.merge_read (h : Reassembles str seen r inn) (hin : inn.holds = true)
    (hcap : str.length ≤ inn.capacity.toNat) (hp : p.SliceOf str) (i : Nat) :
    (r.merge inn p.2.1.toNat p.2.2).pending.read i =
      if p.Covers i ∧ r.nextIndex.toNat ≤ i then str[i]? else r.pending.read i := by
  have hwindow := h.length_le_windowEnd hin hcap
  have hfits := hp.fits
  rw [Reassembler.merge_read]
  by_cases hi : p.Covers i ∧ r.nextIndex.toNat ≤ i
  · rw [if_pos hi, if_pos (by omega), hp.getElem? hi.1]
  · rw [if_neg hi, if_neg (by omega)]

/-- Whatever is pending after the merge is a byte of the string. -/
theorem Reassembles.merge_pending (h : Reassembles str seen r inn) (hin : inn.holds = true)
    (hcap : str.length ≤ inn.capacity.toNat) (hp : p.SliceOf str) {i : Nat} {v : Byte}
    (hv : (r.merge inn p.2.1.toNat p.2.2).pending.read i = some v) : str[i]? = some v := by
  rw [h.merge_read hin hcap hp] at hv
  split at hv
  · exact hv
  · exact h.pending i v hv

/-- After the merge every byte of every slice, the new one included, is delivered or pending. -/
theorem Reassembles.merge_covered (h : Reassembles str seen r inn) (hin : inn.holds = true)
    (hcap : str.length ≤ inn.capacity.toNat) (hp : p.SliceOf str) {q : Piece} (hq : q ∈ seen ++ [p]) {k : Nat}
    (hk : q.Covers k) :
    k < r.nextIndex.toNat ∨ (r.merge inn p.2.1.toNat p.2.2).pending.read k ≠ none := by
  have hfits := hp.fits
  rw [h.merge_read hin hcap hp]
  split
  · next hi => exact .inr (by rw [ne_eq, List.getElem?_eq_none_iff]; omega)
  · next hi =>
    rcases List.mem_append.1 hq with hq | hq
    · exact h.covered q hq k hk
    · rw [List.mem_singleton] at hq
      subst hq
      exact .inl (by omega)

/-- The run that is delivered continues the string. -/
theorem Reassembles.run_eq_take (h : Reassembles str seen r inn) (hin : inn.holds = true)
    (hcap : str.length ≤ inn.capacity.toNat) (hp : p.SliceOf str) {run : List Byte} {ra : Reassembler}
    (hd : (r.merge inn p.2.1.toNat p.2.2).Delivers run ra) :
    run = (str.drop r.nextIndex.toNat).take run.length := by
  refine List.ext_getElem? fun j => ?_
  by_cases hj : j < run.length
  · rw [List.getElem?_take_of_lt hj, List.getElem?_drop, List.getElem?_eq_getElem hj]
    exact (h.merge_pending hin hcap hp ((hd.run_read j hj).trans (List.getElem?_eq_getElem hj))).symm
  · rw [List.getElem?_take_eq_none (by omega), List.getElem?_eq_none (by omega)]

/-- IN, closed or not, is the string up to the new next index: once it is closed no run is left. -/
theorem Reassembles.buf_afterRun (h : Reassembles str seen r inn) {run : List Byte}
    (hrun : run = (str.drop r.nextIndex.toNat).take run.length) (ra : Reassembler) :
    (inn.afterRun run ra).buf = str.take (r.nextIndex.toNat + run.length) := by
  have happend : inn.buf ++ run = str.take (r.nextIndex.toNat + run.length) := by
    rw [h.buf, List.take_add, ← hrun]
  rw [← happend, Stream.afterRun]
  cases hclosed : inn.closed with
  | false => simp [h.error]
  | true =>
    obtain ⟨-, hend⟩ := h.closed.1 hclosed
    have hnil : run = [] := by rwa [hend, List.drop_length, List.take_nil] at hrun
    simp [hnil]

/-- IN is closed exactly when the known end is reached. -/
theorem Reassembles.closed_afterRun (h : Reassembles str seen r inn) {run : List Byte} {ra : Reassembler}
    (hle : r.nextIndex ≤ ra.nextIndex) (hle' : ra.nextIndex.toNat ≤ str.length)
    (hknown : r.endIndex ≠ none → ra.endIndex ≠ none)
    (hend : ∀ e, ra.endIndex = some e → e.toNat = str.length) :
    (inn.afterRun run ra).closed = true ↔ ra.endIndex ≠ none ∧ ra.nextIndex.toNat = str.length := by
  have hle : r.nextIndex.toNat ≤ ra.nextIndex.toNat := hle
  simp only [Stream.afterRun, Bool.or_eq_true, Option.any_eq_true, decide_eq_true_eq, BitVec.le_def]
  constructor
  · rintro (hclosed | ⟨e, he, hreached⟩)
    · obtain ⟨hr, hn⟩ := h.closed.1 hclosed
      exact ⟨hknown hr, by omega⟩
    · exact ⟨by simp [he], by rw [hend e he] at hreached; omega⟩
  · rintro ⟨hr, hn⟩
    obtain ⟨e, he⟩ := Option.ne_none_iff_exists'.1 hr
    exact .inr ⟨e, he, by rw [hend e he, hn]⟩

/-- The end index after an insertion: known after a LAST, now or before, and then the string's length. -/
theorem Reassembles.end_insert (h : Reassembles str seen r inn) (hp : p.SliceOf str) {ra : Reassembler}
    (hend : ra.endIndex =
      if p.1 then some (BitVec.ofNat 64 (p.2.1.toNat + p.2.2.length)) else r.endIndex)
    (hlen : str.length < 2 ^ 64) :
    (∀ e, ra.endIndex = some e → e.toNat = str.length) ∧
      (ra.endIndex ≠ none ↔ ∃ q ∈ seen ++ [p], q.1 = true) := by
  cases hlast : p.1 with
  | false =>
    rw [hlast, if_neg nofun] at hend
    rw [hend]
    exact ⟨h.endIndex, by simp [h.last, hlast]⟩
  | true =>
    rw [hlast, if_pos rfl, hp.last hlast] at hend
    refine ⟨fun e he => ?_, by simp [hend, hlast]⟩
    obtain rfl : BitVec.ofNat 64 str.length = e := by simpa [hend] using he
    exact Nat.mod_eq_of_lt hlen

/-- Inserting one more slice keeps the invariant of reassembly. -/
theorem Reassembles.insert (h : Reassembles str seen r inn) (hin : inn.holds = true)
    (hcap : str.length ≤ inn.capacity.toNat) (hp : p.SliceOf str) {run : List Byte} {ra : Reassembler}
    (hd : (r.merge inn p.2.1.toNat p.2.2).Delivers run ra)
    (hend : ra.endIndex =
      if p.1 then some (BitVec.ofNat 64 (p.2.1.toNat + p.2.2.length)) else r.endIndex) :
    Reassembles str (seen ++ [p]) ra (inn.afterRun run ra) := by
  have hrun := h.run_eq_take hin hcap hp hd
  have hnext : ra.nextIndex.toNat = r.nextIndex.toNat + run.length := hd.nextIndex
  have hread (i : Nat) : ra.pending.read i =
      if r.nextIndex.toNat ≤ i ∧ i < r.nextIndex.toNat + run.length then none
      else (r.merge inn p.2.1.toNat p.2.2).pending.read i := hd.read i
  have hle : ra.nextIndex.toNat ≤ str.length := by
    have hlen := congrArg List.length hrun
    have hnext_le := h.next_le
    rw [List.length_take, List.length_drop] at hlen
    omega
  obtain ⟨hend', hlast⟩ := h.end_insert hp hend (by omega)
  exact
    { buf := by rw [h.buf_afterRun hrun, hnext]
      next_le := hle
      error := h.error
      pending := fun i v hv => by
        rw [hread] at hv
        split at hv
        · cases hv
        · exact h.merge_pending hin hcap hp hv
      covered := fun q hq k hk => by
        rw [hread, hnext]
        rcases h.merge_covered hin hcap hp hq hk with hlt | hne
        · exact .inl (by omega)
        · split
          · next hdelivered => exact .inl hdelivered.2
          · exact .inr hne
      endIndex := hend'
      last := hlast
      closed := h.closed_afterRun (le_of_toNat_eq_add hnext) hle
        (fun hr => by rw [hend]; split <;> simp [hr]) hend' }

/-- Slices that cover the string leave all of it in IN and nothing pending: a byte that is pending lies above the
next index, and no index of the string is left there (10_state.md R27). -/
theorem Reassembles.complete (h : Reassembles str seen r inn) (hr : r.Inv inn)
    (hall : ∀ k, k < str.length → ∃ q ∈ seen, q.Covers k) :
    inn.buf = str ∧ r.pending = [] ∧ (inn.closed = true ↔ ∃ q ∈ seen, q.1 = true) := by
  have habove {i : Nat} {v : Byte} (hv : r.pending.read i = some v) : r.nextIndex.toNat < i :=
    (((r.holds_iff inn).1 hr.holds).1 (i, v) (Memory.mem_of_read hv)).1
  have hend : r.nextIndex.toNat = str.length := by
    refine Nat.le_antisymm h.next_le (Nat.not_lt.1 fun hlt => ?_)
    obtain ⟨q, hq, hk⟩ := hall _ hlt
    rcases h.covered q hq _ hk with hself | hne
    · exact absurd hself (Nat.lt_irrefl _)
    · obtain ⟨v, hv⟩ := Option.ne_none_iff_exists'.1 hne
      exact absurd (habove hv) (Nat.lt_irrefl _)
  refine ⟨by rw [h.buf, hend, List.take_length], Memory.eq_nil_of_read_none fun i => ?_, ?_⟩
  · by_contra hne
    obtain ⟨v, hv⟩ := Option.ne_none_iff_exists'.1 hne
    have hlt : i < str.length := (List.getElem?_eq_some_iff.1 (h.pending i v hv)).1
    have := habove hv
    omega
  · rw [h.closed, h.last, and_iff_left hend]

end Insert

/-- A run of RA.INSERTs of slices keeps the state's invariant and the invariant of reassembly. -/
theorem runCommands_reassembles {str : List Byte} {pieces seen : List Piece} {s : State} (hs : s.Inv)
    (hf : s.block.sys.fault = false) (hcap : str.length ≤ s.block.cfg.capIn.toNat)
    (hpieces : ∀ p ∈ pieces, p.2.2.length ≤ s.block.cfg.maxDataLen.toNat ∧ p.SliceOf str)
    (h : Reassembles str seen s.block.ra s.block.bsIn) :
    ∃ t, runCommands (pieces.map fun p => .raInsert p.1 p.2.1 p.2.2) s = .next t ∧ t.Inv ∧
      Reassembles str (seen ++ pieces) t.block.ra t.block.bsIn := by
  induction pieces generalizing seen s with
  | nil => exact ⟨s, rfl, hs, by rwa [List.append_nil]⟩
  | cons p pieces ih =>
    obtain ⟨⟨hlen, hp⟩, hrest⟩ := List.forall_mem_cons.1 hpieces
    have hfits := hp.fits
    obtain ⟨run, ra, hdelivers, hend, hexec⟩ :=
      exec_raInsert_delivers (last := p.1) hs hf hlen (by omega : p.2.1.toNat + p.2.2.length < 2 ^ 64)
    have hinsert := h.insert hs.bsIn (by rwa [hs.capIn]) hp hdelivers hend
    obtain ⟨t, hrun, ht, hr⟩ := ih ((exec_ends _ s _ hexec).inv hs) hf hcap hrest hinsert
    exact ⟨t, (runCommands_cons hexec).trans hrun, ht, by rwa [List.append_assoc] at hr⟩

/-- Settles O40: reset meets the invariant of reassembly, each RA.INSERT keeps it, and slices that cover the
string make it complete. -/
theorem reassemblyRoundTrip : Obligations.ReassemblyRoundTrip := by
  intro c str pieces hc hcap hpieces hall
  have hslices (p : Piece) (hp : p ∈ pieces) : p.2.2.length ≤ c.maxDataLen.toNat ∧ p.SliceOf str := by
    obtain ⟨hlen, hfits, hbytes, hlast⟩ := hpieces p hp
    exact ⟨hlen, hfits, hbytes, hlast⟩
  obtain ⟨t, hrun, ht, hr⟩ :=
    runCommands_reassembles (s := State.resetWith c) (Block.inv_reset hc) rfl hcap hslices
      (reassembles_reset c str)
  exact ⟨t, hrun, hr.complete ht.ra hall⟩

end Sys2Proof.Machine

/-! PROOFS. The receiver's RX.SEND: the receiver message it reports, field by field (43_receiver.md R195, R196). -/

namespace Sys2Proof.Machine

/-- `wrap` as one sum of naturals, modulo 2^32 (40_sequence.md R110). -/
theorem wrap_eq_ofNat (n : Nat) (zero : U32) : wrap n zero = BitVec.ofNat 32 (zero.toNat + n) := by
  rw [wrap, BitVec.ofNat_add, BitVec.ofNat_toNat, BitVec.setWidth_eq]

/-- When the FIN counts, under either FIN_ACK_ON (R195, R196). -/
theorem Block.finCounted_eq (b : Block) :
    b.finCounted = if b.cfg.finAckOn = .finished then b.bsIn.isFinished else b.bsIn.closed := by
  cases h : b.cfg.finAckOn with
  | finished => simp [Block.finCounted, h]
  | closed => simp [Block.finCounted, h]

/-- The ackno reported: none before a SYN, and after it one sum from the zero point (R195). -/
theorem rxSend_ackno (b : Block) :
    (rxSend b).ackno =
      if b.rx.synSeen then
        some (BitVec.ofNat 32 (b.rx.zeroPoint.toNat + b.bsIn.bytesPushed.toNat + 1 + b2n b.finCounted))
      else none := by
  simp only [rxSend, wrap_eq_ofNat, Nat.add_assoc]

/-- Outside the fault state RX.SEND makes no test and answers the receiver message as a descriptor. -/
theorem exec_rxSend {s : State} (hf : s.block.sys.fault = false) :
    exec .rxSend s = .next (s.answer (Response.descriptor (sdOfRM (rxSend s.block)))) :=
  State.unlessFaulted_of_not hf

/-- Settles O42: the ackno is there exactly when a SYN is seen, and window and RST are the stream's. -/
theorem rxSendResult : Obligations.RxSendResult := by
  refine ⟨⟨rfl, rfl⟩, fun s hf => ?_⟩
  rw [exec_rxSend hf, sdOfRM, sdMerge, rxSend_ackno, Block.finCounted_eq]
  cases s.block.rx.synSeen with
  | false => rfl
  | true => rfl

end Sys2Proof.Machine

/-! PROOFS. The sender's loop: the passes of TX.PUSH and PR.PUSH as messages sent one after another, until the loop
exits or TX.bytes_sent would overflow (44_sender.md R210 to R216, 45_peer.md R255, R256). -/

namespace Sys2Proof.Machine

/-! ## One pass (44_sender.md R212) -/

/-- OUT after the payload of the next segment is read (R212). -/
def Block.readOut (b : Block) : Stream :=
  { b.bsOut with
    buf := b.bsOut.buf.drop b.nextPayloadSize
    bytesPopped := b.bsOut.bytesPopped + BitVec.ofNat 64 b.nextPayloadSize }

/-- A pass asks for no more bytes than OUT holds, so either policy lets it read them. -/
theorem bsPop_nextPayload (b : Block) :
    bsPop b.cfg.popPolicy b.bsOut b.nextPayloadSize = .ok (b.readOut, b.nextPayloadSize) := by
  have hn := b.nextPayloadSize_le.2.2
  rw [bsPop_eq (.inl hn), Nat.min_eq_left hn, BitVec.ofNat_add, BitVec.ofNat_toNat, BitVec.setWidth_eq]
  rfl

/-- The message that a pass sends where it does not exit. -/
abbrev Block.message (b : Block) : SenderMessage := b.segment b.readOut

/-- The loop exits after the FIN, at the right edge, and where there is nothing to send (R212). -/
abbrev Block.LoopExits (b : Block) : Prop :=
  b.tx.finSent = true ∨ b.tx.rightEdge ≤ b.tx.bytesSent.toNat ∨ b.message.seqLen = 0

theorem Block.message_payload_length {b : Block} (hout : b.bsOut.holds = true) :
    b.message.payload.length = b.nextPayloadSize := by
  have hn := b.nextPayloadSize_le.2.2
  rw [Stream.buffered_of_holds hout] at hn
  exact List.length_take_of_le hn

/-- OUT is finished after the read exactly when it is closed and the segment takes all it holds. -/
theorem Block.readOut_isFinished {b : Block} (hout : b.bsOut.holds = true) :
    b.readOut.isFinished = (b.bsOut.closed && decide (b.nextPayloadSize = b.bsOut.buf.length)) := by
  obtain ⟨hsum, -⟩ := b.bsOut.holds_iff.1 hout
  have hn := b.nextPayloadSize_le.2.2
  rw [Stream.buffered_of_holds hout] at hn
  have hpushed : b.bsOut.bytesPushed = b.bsOut.bytesPopped + BitVec.ofNat 64 b.nextPayloadSize ↔
      b.nextPayloadSize = b.bsOut.buf.length := by
    have := b.bsOut.bytesPushed.isLt
    rw [← BitVec.toNat_inj, BitVec.toNat_add, BitVec.toNat_ofNat]
    omega
  rw [← decide_eq_decide.2 hpushed]
  rfl

/-- The second reading of R212 sends the message of the model's pass. -/
theorem nextSegment_eq {b : Block} (hout : b.bsOut.holds = true) :
    nextSegment b = if b.LoopExits then none else some b.message := by
  have hfin : b.message.fin = (b.bsOut.closed && decide (b.nextPayloadSize = b.bsOut.buf.length) &&
      decide (b2n (!b.tx.synSent) + b.nextPayloadSize + 1 ≤ b.tx.room)) := by
    rw [← Block.readOut_isFinished hout]
    rfl
  have hn : b.nextPayloadSize =
      min (min b.cfg.maxPayload.toNat (b.tx.room - b2n (!b.tx.synSent))) b.bsOut.buf.length := by
    rw [Block.nextPayloadSize, Stream.buffered_of_holds hout]
  have hmessage : b.message =
      { seqno := wrap b.tx.bytesSent.toNat b.tx.zeroPoint, syn := !b.tx.synSent
        payload := b.bsOut.buf.take b.nextPayloadSize, fin := b.message.fin, rst := b.bsOut.error } := rfl
  unfold Block.LoopExits
  rw [Block.segment_seqLen hout, hmessage, hfin, hn]
  rfl

/-- One pass exits, or sends its message, or overflows TX.bytes_sent. -/
theorem txPass_eq (e : Emission) {b : Block} (hout : b.bsOut.holds = true) :
    txPass e b = if b.LoopExits then .ok none else
      (store64 (b.tx.bytesSent.toNat + b.message.seqLen)).map fun sent =>
        some ((b.setOut b.readOut).setTx (b.tx.afterSend b.cfg b.message sent),
          e (b.setOut b.readOut) b.message) := by
  unfold Block.LoopExits
  rw [Block.segment_seqLen hout]
  unfold txPass
  simp only [bsPop_nextPayload]
  by_cases hf : b.tx.finSent = true
  · simp [hf]
  · by_cases hr : b.tx.rightEdge ≤ b.tx.bytesSent.toNat
    · simp [hr]
    · rw [if_neg hf, if_neg hr]
      simp only [hf, hr, false_or, Bool.false_eq_true]
      split
      · next h => exact if_pos h
      · next h => exact (if_neg h).trans (bind_pure_comp _ _)

theorem nextSegment_eq_none {b : Block} (hout : b.bsOut.holds = true) : nextSegment b = none ↔ b.LoopExits := by
  simp only [nextSegment_eq hout, ite_eq_left_iff, reduceCtorEq, imp_false, not_not]

theorem nextSegment_eq_some {b : Block} (hout : b.bsOut.holds = true) {sm : SenderMessage} :
    nextSegment b = some sm ↔ ¬ b.LoopExits ∧ b.message = sm := by
  rw [nextSegment_eq hout, ite_eq_iff]
  simp

/-- Where the counter does not overflow, the model's block after a pass is the second reading's. -/
theorem afterSegment_message {b : Block} (hout : b.bsOut.holds = true) :
    (b.setOut b.readOut).setTx
        (b.tx.afterSend b.cfg b.message (BitVec.ofNat 64 (b.tx.bytesSent.toNat + b.message.seqLen))) =
      afterSegment b b.message := by
  unfold afterSegment
  rw [Block.message_payload_length hout, BitVec.ofNat_add, BitVec.ofNat_toNat, BitVec.setWidth_eq]
  rfl

theorem txPass_of_exit (e : Emission) {b : Block} (hout : b.bsOut.holds = true) (h : nextSegment b = none) :
    txPass e b = .ok none := by
  rw [txPass_eq e hout, if_pos ((nextSegment_eq_none hout).1 h)]

/-- An emission function that reads of the block nothing the loop writes, as both of the model's do. -/
def Emission.IgnoresSender (e : Emission) : Prop :=
  ∀ (b : Block) (out : Stream) (t : Sender), e ((b.setOut out).setTx t) = e b

theorem emitSM_ignoresSender : Emission.IgnoresSender emitSM := fun _ _ _ => rfl

theorem emitMerged_ignoresSender : Emission.IgnoresSender emitMerged := fun _ _ _ => rfl

theorem Emission.IgnoresSender.apply_afterSegment {e : Emission} (he : e.IgnoresSender) (b : Block)
    (sm : SenderMessage) : e (afterSegment b sm) = e b :=
  he b (afterSegment b sm).bsOut (afterSegment b sm).tx

theorem txPass_of_segment {e : Emission} (he : e.IgnoresSender) {b : Block} (hout : b.bsOut.holds = true)
    {sm : SenderMessage} (h : nextSegment b = some sm) (hfits : b.tx.bytesSent.toNat + sm.seqLen < 2 ^ 64) :
    txPass e b = .ok (some (afterSegment b sm, e b sm)) := by
  obtain ⟨hgoes, rfl⟩ := (nextSegment_eq_some hout).1 h
  rw [txPass_eq e hout, if_neg hgoes, store64_eq hfits, ← afterSegment_message hout, ← he b b.readOut b.tx]
  rfl

theorem txPass_of_overflow (e : Emission) {b : Block} (hout : b.bsOut.holds = true) {sm : SenderMessage}
    (h : nextSegment b = some sm) (hover : 2 ^ 64 ≤ b.tx.bytesSent.toNat + sm.seqLen) :
    txPass e b = .error .overflow := by
  obtain ⟨hgoes, rfl⟩ := (nextSegment_eq_some hout).1 h
  rw [txPass_eq e hout, if_neg hgoes, store64_overflow (by omega)]
  rfl

/-! ## The passes that send (44_sender.md R212, R215) -/

/-- What one pass that sends keeps; it fills part of the room. -/
theorem afterSegment_keeps {b : Block} (hb : b.SenderInv) {sm : SenderMessage} (h : nextSegment b = some sm)
    (hfits : b.tx.bytesSent.toNat + sm.seqLen < 2 ^ 64) :
    (afterSegment b sm).SenderInv ∧ (afterSegment b sm).tx.rightEdge = b.tx.rightEdge ∧
      (afterSegment b sm).tx.bytesSent.toNat ≤ b.tx.rightEdge ∧
      (afterSegment b sm).tx.room < b.tx.room := by
  obtain ⟨hinv, -, -, hrises, hright, hedge, -⟩ :=
    txPass_keeps hb (txPass_of_segment emitSM_ignoresSender hb.bsOut h hfits)
  refine ⟨hinv, hedge, hright, ?_⟩
  unfold Sender.room
  omega

/-- What a run of passes keeps; each fills at least one sequence number of the room. -/
theorem sends_keeps {ms : List SenderMessage} {b b' : Block} (hb : b.SenderInv) (h : sends b ms b') :
    b'.SenderInv ∧ b'.tx.rightEdge = b.tx.rightEdge ∧
      b'.tx.bytesSent.toNat ≤ max b.tx.bytesSent.toNat b.tx.rightEdge ∧
      ms.length + b'.tx.room ≤ b.tx.room := by
  induction ms generalizing b with
  | nil =>
    obtain rfl : b' = b := h
    exact ⟨hb, rfl, Nat.le_max_left _ _, by simp⟩
  | cons sm ms ih =>
    obtain ⟨hnext, hfits, hrest⟩ := h
    obtain ⟨hinv, hedge, hright, hroom⟩ := afterSegment_keeps hb hnext hfits
    obtain ⟨hinv', hedge', hright', hroom'⟩ := ih hinv hrest
    rw [List.length_cons]
    exact ⟨hinv', hedge'.trans hedge, by omega, by omega⟩

/-- The loop runs, in as many passes as there is room, to its exit or to a segment that would overflow. -/
theorem exists_sends {b : Block} (hb : b.SenderInv) :
    ∃ (ms : List SenderMessage) (b' : Block), sends b ms b' ∧
      (nextSegment b' = none ∨
        ∃ sm, nextSegment b' = some sm ∧ 2 ^ 64 ≤ b'.tx.bytesSent.toNat + sm.seqLen) := by
  induction hroom : b.tx.room using Nat.strong_induction_on generalizing b with
  | _ room ih =>
    cases hnext : nextSegment b with
    | none => exact ⟨[], b, rfl, .inl hnext⟩
    | some sm =>
      rcases Nat.lt_or_ge (b.tx.bytesSent.toNat + sm.seqLen) (2 ^ 64) with hfits | hover
      · obtain ⟨hinv, -, -, hless⟩ := afterSegment_keeps hb hnext hfits
        obtain ⟨ms, b', hsends, hend⟩ := ih _ (hroom ▸ hless) hinv rfl
        exact ⟨sm :: ms, b', ⟨hnext, hfits, hsends⟩, hend⟩
      · exact ⟨[], b, rfl, .inr ⟨sm, hnext, hover⟩⟩

/-- A segment fits the window, so below a right edge of 64 bits nothing overflows (R213, R215). -/
theorem bytesSent_add_seqLen_le {b : Block} (hb : b.SenderInv) {sm : SenderMessage}
    (h : nextSegment b = some sm) : b.tx.bytesSent.toNat + sm.seqLen ≤ b.tx.rightEdge := by
  obtain ⟨hgoes, rfl⟩ := (nextSegment_eq_some hb.bsOut).1 h
  obtain ⟨-, hedge, -⟩ : _ ∧ ¬ b.tx.rightEdge ≤ b.tx.bytesSent.toNat ∧ _ := by simpa only [not_or] using hgoes
  have hlen : b.message.seqLen ≤ b.tx.room :=
    (Block.segment_seqLen hb.bsOut _).trans_le (Block.segment_fits (Nat.lt_of_not_le hedge) _)
  unfold Sender.room at hlen
  omega

theorem exists_sends_to_exit {b : Block} (hb : b.SenderInv) (hedge : b.tx.rightEdge < 2 ^ 64) :
    ∃ (ms : List SenderMessage) (b' : Block), sends b ms b' ∧ nextSegment b' = none := by
  obtain ⟨ms, b', hsends, hexit | ⟨sm, hnext, hover⟩⟩ := exists_sends hb
  · exact ⟨ms, b', hsends, hexit⟩
  · obtain ⟨hinv, hsame, -⟩ := sends_keeps hb hsends
    have := bytesSent_add_seqLen_le hinv hnext
    omega

/-! ## The model's loop runs those passes -/

/-- A run of passes that send, then the passes that are left. -/
theorem txPasses_of_sends {e : Emission} (he : e.IgnoresSender) {ms : List SenderMessage} {b b' : Block}
    (hb : b.SenderInv) (h : sends b ms b') (fuel : Nat) :
    txPasses e (ms.length + fuel) b = (txPasses e fuel b').map fun r => (r.1, ms.map (e b) ++ r.2) := by
  induction ms generalizing b with
  | nil =>
    obtain rfl : b' = b := h
    rw [List.length_nil, Nat.zero_add]
    cases txPasses e fuel b' <;> rfl
  | cons sm ms ih =>
    obtain ⟨hnext, hfits, hrest⟩ := h
    have hloop := ih (afterSegment_keeps hb hnext hfits).1 hrest
    rw [he.apply_afterSegment] at hloop
    rw [List.length_cons, Nat.add_right_comm, txPasses, txPass_of_segment he hb.bsOut hnext hfits]
    simp only [bind, Except.bind, hloop]
    cases txPasses e fuel b' <;> rfl

theorem txPasses_of_exit (e : Emission) {b : Block} (hout : b.bsOut.holds = true) (h : nextSegment b = none)
    (fuel : Nat) : txPasses e fuel b = .ok (b, []) := by
  cases fuel with
  | zero => rfl
  | succ fuel => rw [txPasses, txPass_of_exit e hout h]; rfl

/-- `TX_push` has passes enough: as many as it has room (R215). -/
theorem txPush_of_sends {e : Emission} (he : e.IgnoresSender) {ms : List SenderMessage} {b b' : Block}
    (hb : b.SenderInv) (h : sends b ms b') :
    ∃ fuel, b'.tx.room ≤ fuel ∧
      txPush e b = (txPasses e fuel b').map fun r => (r.1, ms.map (e b) ++ r.2) := by
  obtain ⟨-, -, -, hroom⟩ := sends_keeps hb h
  refine ⟨b.tx.room - ms.length, by omega, ?_⟩
  rw [← txPasses_of_sends he hb h, Nat.add_sub_cancel' (by omega)]
  rfl

theorem txPush_of_exit {e : Emission} (he : e.IgnoresSender) {ms : List SenderMessage} {b b' : Block}
    (hb : b.SenderInv) (h : sends b ms b') (hexit : nextSegment b' = none) :
    txPush e b = .ok (b', ms.map (e b)) := by
  obtain ⟨hinv, -⟩ := sends_keeps hb h
  obtain ⟨fuel, -, hloop⟩ := txPush_of_sends he hb h
  rw [hloop, txPasses_of_exit e hinv.bsOut hexit]
  simp [Except.map]

/-- A segment that would overflow is one there is room for, so a pass is left that meets it. -/
theorem txPush_of_overflow {e : Emission} (he : e.IgnoresSender) {ms : List SenderMessage} {b b' : Block}
    (hb : b.SenderInv) (h : sends b ms b') {sm : SenderMessage} (hnext : nextSegment b' = some sm)
    (hover : 2 ^ 64 ≤ b'.tx.bytesSent.toNat + sm.seqLen) : txPush e b = .error .overflow := by
  obtain ⟨hinv, -⟩ := sends_keeps hb h
  obtain ⟨fuel, hfuel, hloop⟩ := txPush_of_sends he hb h
  have hedge := bytesSent_add_seqLen_le hinv hnext
  have hsent := b'.tx.bytesSent.isLt
  obtain ⟨fuel, rfl⟩ : ∃ n, fuel = n + 1 := Nat.exists_eq_succ_of_ne_zero (by unfold Sender.room at hfuel; omega)
  rw [hloop, txPasses, txPass_of_overflow e hinv.bsOut hnext hover]
  rfl

/-! ## TX.PUSH and PR.PUSH (44_sender.md R210, 45_peer.md R255, R256) -/

theorem State.withPeer_of_present {s : State} (h : s.block.cfg.hasPeer = true) (k : Result) : s.withPeer k = k :=
  if_pos h

/-- Outside the fault state TX.PUSH ends as `TX_push` does. -/
theorem exec_txPush {s : State} (hf : s.block.sys.fault = false) :
    exec .txPush s = s.commit ((txPush emitSM s.block).map fun x => (x.1, Response.emitted x.2)) :=
  State.unlessFaulted_of_not hf

/-- With the PRU, outside the fault state, PR.PUSH ends as `TX_push` does with the peer's emission function. -/
theorem exec_prPush {s : State} (hf : s.block.sys.fault = false) (hp : s.block.cfg.hasPeer = true) :
    exec .prPush s = s.commit ((txPush emitMerged s.block).map fun x => (x.1, Response.emitted x.2)) :=
  (State.unlessFaulted_of_not hf).trans (State.withPeer_of_present hp _)

theorem exec_txPush_of_exit {s : State} {ms : List SenderMessage} {b : Block} (hs : s.Inv)
    (hf : s.block.sys.fault = false) (h : sends s.block ms b) (hexit : nextSegment b = none) :
    exec .txPush s = .next ((s.setBlock b).answer (Response.emitted (ms.map sdOfSM))) := by
  have hpush := txPush_of_exit emitSM_ignoresSender hs.sender h hexit
  rw [exec_txPush hf, hpush]
  exact (Performs.txPush hpush).commit hs

theorem exec_txPush_of_overflow {s : State} {ms : List SenderMessage} {b : Block} {sm : SenderMessage} (hs : s.Inv)
    (hf : s.block.sys.fault = false) (h : sends s.block ms b) (hnext : nextSegment b = some sm)
    (hover : 2 ^ 64 ≤ b.tx.bytesSent.toNat + sm.seqLen) : exec .txPush s = .next (s.enterFault .overflow) := by
  rw [exec_txPush hf, txPush_of_overflow emitSM_ignoresSender hs.sender h hnext hover]
  rfl

/-- Settles O44: the model's loop runs the passes that send, and then exits or meets the overflow. -/
theorem txPushOverflow : Obligations.TxPushOverflow :=
  fun _ _ _ hs hf h => ⟨exec_txPush_of_exit hs hf h, fun _ => exec_txPush_of_overflow hs hf h⟩

/-- Settles O43: below a right edge of 64 bits the passes lead to the loop's exit. -/
theorem txPushResult : Obligations.TxPushResult := by
  intro s hs hf hedge
  obtain ⟨ms, b, hsends, hexit⟩ := exists_sends_to_exit hs.sender hedge
  exact ⟨ms, b, hsends, hexit, exec_txPush_of_exit hs hf hsends hexit⟩

/-- The peer's emission function is the sender's, with the receiver part that RX.SEND answers (R255). -/
theorem emitMerged_eq (b : Block) :
    emitMerged b = fun sm => mergeReceiver (sdOfSM sm) (sdOfRM (rxSend b)) := rfl

theorem exec_prPush_of_exit {s : State} {ms : List SenderMessage} {b : Block} (hs : s.Inv)
    (hf : s.block.sys.fault = false) (hp : s.block.cfg.hasPeer = true) (h : sends s.block ms b)
    (hexit : nextSegment b = none) :
    exec .prPush s = .next ((s.setBlock b).answer
      (Response.emitted (ms.map fun sm => mergeReceiver (sdOfSM sm) (sdOfRM (rxSend s.block))))) := by
  have hpush := txPush_of_exit emitMerged_ignoresSender hs.sender h hexit
  rw [exec_prPush hf hp, hpush, ← emitMerged_eq]
  exact (Performs.prPush hpush).commit hs

/-- Settles O59: PR.PUSH runs the passes of TX.PUSH, whose emission function does not change what is sent. -/
theorem prPushOverflow : Obligations.PrPushOverflow := by
  intro s ms b hs hf hp h
  refine ⟨fun hexit => ⟨_, exec_rxSend hf, exec_prPush_of_exit hs hf hp h hexit⟩, fun sm hnext hover => ?_⟩
  rw [exec_prPush hf hp, txPush_of_overflow emitMerged_ignoresSender hs.sender h hnext hover]
  rfl

/-- Settles O53: below a right edge of 64 bits the passes lead to the loop's exit. -/
theorem prPushResult : Obligations.PrPushResult := by
  intro s hs hf hp hedge
  obtain ⟨ms, b, hsends, hexit⟩ := exists_sends_to_exit hs.sender hedge
  exact ⟨ms, b, _, hsends, hexit, exec_rxSend hf, exec_prPush_of_exit hs hf hp hsends hexit⟩

/-! ## What the passes send (44_sender.md R213, R215, R216) -/

/-- What the message of one pass is, of the block it is sent from. -/
structure Block.Segments (b : Block) (sm : SenderMessage) : Prop where
  occupies : 0 < sm.seqLen
  payload_le : sm.payload.length ≤ b.cfg.maxPayload.toNat
  payload : b.bsOut.buf = sm.payload ++ b.bsOut.buf.drop sm.payload.length
  seqno : sm.seqno = b.tx.zeroPoint + BitVec.ofNat 32 b.tx.bytesSent.toNat
  rst : sm.rst = b.bsOut.error

theorem Block.segments_of_nextSegment {b : Block} (hout : b.bsOut.holds = true) {sm : SenderMessage}
    (h : nextSegment b = some sm) : b.Segments sm := by
  obtain ⟨hgoes, rfl⟩ := (nextSegment_eq_some hout).1 h
  have hlength := Block.message_payload_length hout
  exact
    { occupies := Nat.pos_of_ne_zero fun hzero => hgoes (.inr (.inr hzero))
      payload_le := hlength.trans_le b.nextPayloadSize_le.1
      payload := by rw [hlength]; exact (List.take_append_drop _ _).symm
      seqno := rfl
      rst := rfl }

theorem sends_messages {ms : List SenderMessage} {b b' : Block} (hb : b.SenderInv) (h : sends b ms b') :
    ∀ sm ∈ ms, 0 < sm.seqLen ∧ sm.payload.length ≤ b.cfg.maxPayload.toNat ∧ sm.rst = b.bsOut.error := by
  induction ms generalizing b with
  | nil => nofun
  | cons sm ms ih =>
    obtain ⟨hnext, hfits, hrest⟩ := h
    have hsm := Block.segments_of_nextSegment hb.bsOut hnext
    have hms := ih (afterSegment_keeps hb hnext hfits).1 hrest
    exact List.forall_mem_cons.2 ⟨⟨hsm.occupies, hsm.payload_le, hsm.rst⟩, hms⟩

/-- The payloads are the bytes taken from OUT, in order. -/
theorem sends_payloads {ms : List SenderMessage} {b b' : Block} (hb : b.SenderInv) (h : sends b ms b') :
    b.bsOut.buf = (ms.map SenderMessage.payload).flatten ++ b'.bsOut.buf := by
  induction ms generalizing b with
  | nil =>
    obtain rfl : b' = b := h
    rfl
  | cons sm ms ih =>
    obtain ⟨hnext, hfits, hrest⟩ := h
    have hbuf : (afterSegment b sm).bsOut.buf = _ := ih (afterSegment_keeps hb hnext hfits).1 hrest
    change b.bsOut.buf.drop sm.payload.length = _ at hbuf
    rw [(Block.segments_of_nextSegment hb.bsOut hnext).payload, hbuf, List.map_cons, List.flatten_cons,
      List.append_assoc]

/-- The messages stand at the end of the queue, one after another from TX.bytes_sent on. -/
theorem sends_queue {ms : List SenderMessage} {b b' : Block} (hb : b.SenderInv) (h : sends b ms b') :
    ∃ entries : List OutEntry, b'.tx.outstanding = b.tx.outstanding ++ entries ∧
      ms = entries.map OutEntry.sm ∧ contiguousFrom b.tx.bytesSent.toNat entries = true ∧
      b'.tx.bytesSent.toNat = b.tx.bytesSent.toNat + totalSeqLen entries ∧
      ∀ e ∈ entries, e.sm.seqno = b.tx.zeroPoint + BitVec.ofNat 32 e.absSeqno.toNat := by
  induction ms generalizing b with
  | nil =>
    obtain rfl : b' = b := h
    exact ⟨[], (List.append_nil _).symm, rfl, rfl, rfl, nofun⟩
  | cons sm ms ih =>
    obtain ⟨hnext, hfits, hrest⟩ := h
    obtain ⟨entries, hqueue, hms, hcontiguous, hsent, hseqno⟩ := ih (afterSegment_keeps hb hnext hfits).1 hrest
    have hafter : (afterSegment b sm).tx.bytesSent.toNat = b.tx.bytesSent.toNat + sm.seqLen := by
      show (b.tx.bytesSent + BitVec.ofNat 64 sm.seqLen).toNat = _
      rw [BitVec.toNat_add, BitVec.toNat_ofNat]
      omega
    rw [hafter] at hcontiguous hsent
    refine ⟨{ absSeqno := b.tx.bytesSent, sm := sm } :: entries, ?_, congrArg (sm :: ·) hms, ?_, ?_,
      List.forall_mem_cons.2 ⟨(Block.segments_of_nextSegment hb.bsOut hnext).seqno, hseqno⟩⟩
    · rw [hqueue, List.append_cons]; rfl
    · rw [contiguousFrom, decide_eq_true rfl, Bool.true_and]
      exact hcontiguous
    · rw [hsent, totalSeqLen, Nat.add_assoc]

/-- After a FIN the loop exits, so a FIN comes last. -/
theorem sends_fin {ms : List SenderMessage} {b b' : Block} (hb : b.SenderInv) (h : sends b ms b') :
    ∀ sm ∈ ms, sm.fin = true → ms.getLast? = some sm ∧ b'.tx.finSent = true := by
  induction ms generalizing b with
  | nil => nofun
  | cons sm ms ih =>
    obtain ⟨hnext, hfits, hrest⟩ := h
    have hinv := (afterSegment_keeps hb hnext hfits).1
    refine List.forall_mem_cons.2 ⟨fun hfin => ?_, fun m hm hfin => ?_⟩
    · have hsent : (afterSegment b sm).tx.finSent = true := by
        show (b.tx.finSent || sm.fin) = true
        rw [hfin, Bool.or_true]
      cases ms with
      | nil =>
        obtain rfl : b' = afterSegment b sm := hrest
        exact ⟨rfl, hsent⟩
      | cons m ms =>
        obtain ⟨hnext', -⟩ := hrest
        cases ((nextSegment_eq_none hinv.bsOut).2 (.inl hsent)).symm.trans hnext'
    · obtain ⟨hlast, hsent⟩ := ih hinv hrest m hm hfin
      exact ⟨by rw [List.getLast?_cons, hlast]; rfl, hsent⟩

theorem sends_sys {ms : List SenderMessage} {b b' : Block} (h : sends b ms b') : b'.sys = b.sys := by
  induction ms generalizing b with
  | nil => exact congrArg Block.sys h
  | cons sm ms ih =>
    obtain ⟨-, -, hrest⟩ := h
    exact ih (b := afterSegment b sm) hrest

/-- A TX.PUSH that answers OK sent what the passes to the loop's exit send. -/
theorem sends_of_exec_txPush {s t : State} {r : Response} (hs : s.Inv) (hf : s.block.sys.fault = false)
    (h : exec .txPush s = .next t) (hr : t.resp = some r) (hok : r.status = .ok) :
    ∃ ms, sends s.block ms t.block ∧ nextSegment t.block = none ∧ r.emit = ms.map sdOfSM := by
  obtain ⟨ms, b, hsends, hexit | ⟨sm, hnext, hover⟩⟩ := exists_sends hs.sender
  · obtain rfl : t = _ := by simpa using h.symm.trans (exec_txPush_of_exit hs hf hsends hexit)
    obtain rfl : Response.emitted (ms.map sdOfSM) = r := by simpa using hr
    exact ⟨ms, hsends, hexit, rfl⟩
  · obtain rfl : t = _ := by simpa using h.symm.trans (exec_txPush_of_overflow hs hf hsends hnext hover)
    obtain rfl : Response.bare .fault = r := by simpa using hr
    cases hok

/-- Settles O45: each clause is an induction on the passes, and at the loop's exit a second TX.PUSH sends nothing. -/
theorem txPushSegments : Obligations.TxPushSegments := by
  intro s t r hs hf h hr hok
  obtain ⟨ms, hsends, hexit, hemit⟩ := sends_of_exec_txPush hs hf h hr hok
  obtain ⟨hinv, -, hright, hroom⟩ := sends_keeps hs.sender hsends
  obtain ⟨entries, hqueue, hms, hcontiguous, hsent, hseqno⟩ := sends_queue hs.sender hsends
  have horder := ((s.block.tx.holds_iff _).1 hs.tx.holds).1
  have ht : t.Inv := (exec_ends _ s t h).inv hs
  have htf : t.block.sys.fault = false := by rw [sends_sys hsends, hf]
  rw [hemit]
  refine ⟨?_, s.block.tx.effWindow_bounds.2, ?_, ?_, ⟨entries, hqueue, ?_, hcontiguous, hsent, ?_⟩, ?_, hright,
    exec_txPush_of_exit (ms := []) ht htf rfl hexit⟩
  · rw [List.length_map]
    unfold Sender.room Sender.rightEdge at hroom
    omega
  · exact List.forall_mem_map.2 (sends_messages hs.sender hsends)
  · rw [List.map_map]
    exact sends_payloads hs.sender hsends
  · rw [hms, List.map_map]; rfl
  · rw [← hs.isn]; exact hseqno
  · refine List.forall_mem_map.2 fun sm hsm hfin => ?_
    obtain ⟨hlast, hfinSent⟩ := sends_fin hs.sender hsends sm hsm hfin
    have hfinished : (t.block.bsOut.closed && t.block.bsOut.bytesPushed == t.block.bsOut.bytesPopped) = true :=
      hinv.tx.finLast hfinSent
    rw [Bool.and_eq_true, beq_iff_eq] at hfinished
    exact ⟨by rw [List.getLast?_map, hlast]; rfl, hfinished⟩

end Sys2Proof.Machine

/-! PROOFS. The sender's other commands, and PR.TICK: TX.EMPTY, TX.TICK, TX.RECV and the retransmission backoff
(44_sender.md R217 to R229, 45_peer.md R257). -/

namespace Sys2Proof.Machine

/-! ## TX.EMPTY (44_sender.md R226) -/

/-- Settles O49: TX.EMPTY makes no test and answers the empty message. -/
theorem txEmptyResult : Obligations.TxEmptyResult := by
  refine ⟨⟨rfl, rfl⟩, fun s hf => ?_⟩
  rw [← wrap_eq_ofNat]
  exact State.unlessFaulted_of_not hf

/-! ## The retransmission timer (44_sender.md R224, R225) -/

/-- The timer fires at a tick of `ms`: it runs, and the elapsed time reaches the RTO. -/
abbrev Sender.Fires (t : Sender) (ms : Nat) : Prop :=
  t.timerRunning = true ∧ t.rto.toNat ≤ t.timerElapsed.toNat + ms

/-- A retransmission overflows the RTO or the counter; with a window of 0 it writes neither. -/
abbrev Sender.BackoffOverflows (t : Sender) : Prop :=
  t.windowSize ≠ 0 ∧ (2 ^ 64 ≤ 2 * t.rto.toNat ∨ 2 ^ 64 ≤ t.consecutiveRetx.toNat + 1)

theorem Sender.backoff_of_closed_window {t : Sender} (h : t.windowSize = 0) : t.backoff = .ok t := if_pos h

theorem Sender.backoff_of_open_window {t : Sender} (h : t.windowSize ≠ 0) (hrto : 2 * t.rto.toNat < 2 ^ 64)
    (hcount : t.consecutiveRetx.toNat + 1 < 2 ^ 64) :
    t.backoff = .ok { t with
      rto := BitVec.ofNat 64 (2 * t.rto.toNat)
      consecutiveRetx := BitVec.ofNat 64 (t.consecutiveRetx.toNat + 1) } := by
  rw [Sender.backoff, if_neg h, store64_eq hrto, store64_eq hcount]
  rfl

theorem Sender.backoff_of_overflow {t : Sender} (h : t.BackoffOverflows) : t.backoff = .error .overflow := by
  obtain ⟨hw, hover⟩ := h
  rw [Sender.backoff, if_neg hw]
  by_cases hrto : 2 * t.rto.toNat < 2 ^ 64
  · rw [store64_eq hrto, store64_overflow (by omega)]; rfl
  · rw [store64_overflow hrto]; rfl

theorem Sender.backoff_succeeds {t : Sender} (h : ¬ t.BackoffOverflows) : ∃ t', t.backoff = .ok t' := by
  by_cases hw : t.windowSize = 0
  · exact ⟨t, Sender.backoff_of_closed_window hw⟩
  · have hfits : ¬ (2 ^ 64 ≤ 2 * t.rto.toNat ∨ 2 ^ 64 ≤ t.consecutiveRetx.toNat + 1) := fun hover => h ⟨hw, hover⟩
    exact ⟨_, Sender.backoff_of_open_window hw (by omega) (by omega)⟩

/-- The backoff does not read the elapsed time. -/
theorem Sender.backoff_elapsed (t : Sender) (el : U64) :
    ({ t with timerElapsed := el } : Sender).backoff = t.backoff.map fun t' => { t' with timerElapsed := el } := by
  unfold Sender.backoff
  split
  · rfl
  · cases store64 (2 * t.rto.toNat) with
    | error c => rfl
    | ok rto => cases store64 (t.consecutiveRetx.toNat + 1) <;> rfl

/-! ### The three outcomes of `TX_tick` -/

section Tick
variable {b : Block} {ms : Nat}

theorem txTick_of_elapsed_overflow (e : Emission) (h : 2 ^ 64 ≤ b.tx.timerElapsed.toNat + ms) :
    txTick ms e b = .error .overflow := by
  rw [txTick, store64_overflow (by omega)]
  rfl

/-- The tick reaches the RTO exactly where the timer fires. -/
theorem Sender.expired_elapsed {t : Sender} (h : t.timerElapsed.toNat + ms < 2 ^ 64) :
    ({ t with timerElapsed := BitVec.ofNat 64 (t.timerElapsed.toNat + ms) } : Sender).expired = true ↔
      t.Fires ms := by
  rw [Sender.expired, Bool.and_eq_true, decide_eq_true_iff, BitVec.toNat_ofNat, Nat.mod_eq_of_lt h]

theorem txTick_of_quiet (e : Emission) (h : b.tx.timerElapsed.toNat + ms < 2 ^ 64) (hq : ¬ b.tx.Fires ms) :
    txTick ms e b =
      .ok (b.setTx { b.tx with timerElapsed := BitVec.ofNat 64 (b.tx.timerElapsed.toNat + ms) }, []) := by
  rw [txTick, store64_eq h]
  exact if_neg (mt (Sender.expired_elapsed h).1 hq)

theorem txTick_of_fires {e : Emission} (he : e.IgnoresSender) (h : b.tx.timerElapsed.toNat + ms < 2 ^ 64)
    (hfires : b.tx.Fires ms) :
    txTick ms e b = b.tx.backoff.map fun t =>
      (b.setTx { t with timerElapsed := 0 }, b.tx.outstanding.head?.toList.map fun o => e b o.sm) := by
  rw [txTick, store64_eq h]
  refine (if_pos ((Sender.expired_elapsed h).2 hfires)).trans ?_
  dsimp only [Block.setTx_tx]
  rw [Sender.backoff_elapsed, ← he b b.bsOut { b.tx with timerElapsed := _ }]
  cases b.tx.backoff <;> rfl

theorem txTick_of_overflow {e : Emission} (he : e.IgnoresSender)
    (h : 2 ^ 64 ≤ b.tx.timerElapsed.toNat + ms ∨ (b.tx.Fires ms ∧ b.tx.BackoffOverflows)) :
    txTick ms e b = .error .overflow := by
  rcases Nat.lt_or_ge (b.tx.timerElapsed.toNat + ms) (2 ^ 64) with hel | hel
  · obtain ⟨hfires, hover⟩ := h.resolve_left (by omega)
    rw [txTick_of_fires he hel hfires, Sender.backoff_of_overflow hover]
    rfl
  · exact txTick_of_elapsed_overflow e hel

theorem txTick_succeeds {e : Emission} (he : e.IgnoresSender)
    (h : ¬ (2 ^ 64 ≤ b.tx.timerElapsed.toNat + ms ∨ (b.tx.Fires ms ∧ b.tx.BackoffOverflows))) :
    ∃ r, txTick ms e b = .ok r := by
  obtain ⟨hel, hfits⟩ := not_or.1 h
  by_cases hfires : b.tx.Fires ms
  · obtain ⟨t, ht⟩ := Sender.backoff_succeeds fun hover => hfits ⟨hfires, hover⟩
    exact ⟨_, by rw [txTick_of_fires he (by omega) hfires, ht]; rfl⟩
  · exact ⟨_, txTick_of_quiet e (by omega) hfires⟩

end Tick

/-! ### TX.TICK -/

/-- Outside the fault state TX.TICK ends as `TX_tick` does. -/
theorem exec_txTick {s : State} (hf : s.block.sys.fault = false) (ms : U64) :
    exec (.txTick ms) s =
      s.commit ((txTick ms.toNat emitSM s.block).map fun x => (x.1, Response.emitted x.2)) :=
  State.unlessFaulted_of_not hf

theorem exec_txTick_ok {s : State} {ms : U64} {b : Block} {sds : List Sd} (hs : s.Inv)
    (hf : s.block.sys.fault = false) (h : txTick ms.toNat emitSM s.block = .ok (b, sds)) :
    exec (.txTick ms) s = .next ((s.setBlock b).answer (Response.emitted sds)) := by
  rw [exec_txTick hf, h]
  exact (Performs.txTick h).commit hs

theorem exec_txTick_overflow {s : State} {ms : U64} (hf : s.block.sys.fault = false)
    (h : txTick ms.toNat emitSM s.block = .error .overflow) :
    exec (.txTick ms) s = .next (s.enterFault .overflow) := by
  rw [exec_txTick hf, h]
  rfl

/-- A running timer has a queued message (10_state.md R31). -/
theorem Sender.Inv.outstanding_of_running {t : Sender} {c : Config} {out : Stream} (h : t.Inv c out)
    (hrun : t.timerRunning = true) : ∃ oldest rest, t.outstanding = oldest :: rest := by
  obtain ⟨-, -, -, hrunning, -⟩ := (t.holds_iff out).1 h.holds
  refine List.exists_cons_of_ne_nil fun hnil => ?_
  rw [hrunning, hnil] at hrun
  cases hrun

/-- Settles O47, by the outcomes of `TX_tick`: the elapsed time overflows, the timer is quiet, or it fires and backs
off. -/
theorem txTickResult : Obligations.TxTickResult := by
  refine ⟨fun _ => ⟨rfl, rfl⟩, ?_⟩
  intro s ms hs hf tx elapsed fires
  refine ⟨fun hover => exec_txTick_overflow hf (txTick_of_elapsed_overflow _ hover),
    fun hel hquiet => exec_txTick_ok hs hf (txTick_of_quiet _ hel hquiet), fun hel hfires => ?_⟩
  obtain ⟨oldest, rest, hqueue⟩ := hs.tx.outstanding_of_running hfires.1
  have htick := txTick_of_fires emitSM_ignoresSender hel hfires
  rw [hqueue] at htick
  refine ⟨oldest, rest, hqueue, fun hw => exec_txTick_ok hs hf ?_, fun hw hrto hcount => exec_txTick_ok hs hf ?_,
    fun hw hover => exec_txTick_overflow hf (txTick_of_overflow emitSM_ignoresSender (.inr ⟨hfires, hw, hover⟩))⟩
  · rw [htick, Sender.backoff_of_closed_window hw]; rfl
  · rw [htick, Sender.backoff_of_open_window hw hrto hcount]; rfl

/-- Settles O48: a running timer has not reached the RTO (R225 (f)), so a tick of 0 is quiet. -/
theorem tickOfZeroNeverFires : Obligations.TickOfZeroNeverFires := by
  intro s hs hf
  have hquiet : ¬ s.block.tx.Fires 0 := fun hfires =>
    Nat.not_le_of_lt ((Sender.expired_eq_false_iff _).1 hs.tx.notExpired hfires.1) hfires.2
  have htick := txTick_of_quiet (ms := 0) emitSM s.block.tx.timerElapsed.isLt hquiet
  rw [Nat.add_zero, BitVec.ofNat_toNat, BitVec.setWidth_eq] at htick
  exact exec_txTick_ok hs hf htick

/-! ### PR.TICK (45_peer.md R255, R257) -/

/-- With the peer's emission function `TX_tick` differs in the receiver part alone. -/
theorem txTick_emitMerged (ms : Nat) (b : Block) :
    txTick ms emitMerged b = (txTick ms emitSM b).map fun r =>
      (r.1, r.2.map fun sd => mergeReceiver sd (sdOfRM (rxSend b))) := by
  rcases Nat.lt_or_ge (b.tx.timerElapsed.toNat + ms) (2 ^ 64) with hel | hel
  · by_cases hfires : b.tx.Fires ms
    · rw [txTick_of_fires emitMerged_ignoresSender hel hfires, txTick_of_fires emitSM_ignoresSender hel hfires,
        emitMerged_eq]
      cases b.tx.backoff with
      | error c => rfl
      | ok t => cases b.tx.outstanding <;> rfl
    · rw [txTick_of_quiet _ hel hfires, txTick_of_quiet _ hel hfires]; rfl
  · rw [txTick_of_elapsed_overflow _ hel, txTick_of_elapsed_overflow _ hel]; rfl

/-- With the PRU, outside the fault state, PR.TICK ends as its body does. -/
theorem exec_prTick {s : State} (hf : s.block.sys.fault = false) (hp : s.block.cfg.hasPeer = true) (ms : U64) :
    exec (.prTick ms) s = s.commit ((prTick ms.toNat s.block).map fun x => (x.1, Response.emitted x.2)) :=
  (State.unlessFaulted_of_not hf).trans (State.withPeer_of_present hp _)

/-- The peer's clock after `ms` milliseconds. -/
abbrev Block.advanceClock (b : Block) (ms : Nat) : Block :=
  b.setPr { b.pr with cumulativeTimeMs := BitVec.ofNat 64 (b.pr.cumulativeTimeMs.toNat + ms) }

theorem prTick_of_clock_overflow {b : Block} {ms : Nat} (h : 2 ^ 64 ≤ b.pr.cumulativeTimeMs.toNat + ms) :
    prTick ms b = .error .overflow := by
  rw [prTick, store64_overflow (by omega)]
  rfl

theorem prTick_of_clock {b : Block} {ms : Nat} (h : b.pr.cumulativeTimeMs.toNat + ms < 2 ^ 64) :
    prTick ms b = txTick ms emitMerged (b.advanceClock ms) := by
  rw [prTick, store64_eq h]
  rfl

theorem Block.Inv.advanceClock {b : Block} (h : b.Inv) {ms : Nat}
    (hfits : b.pr.cumulativeTimeMs.toNat + ms < 2 ^ 64) : (b.advanceClock ms).Inv := by
  refine h.setPr ?_
  have hreceipt : b.pr.timeOfLastReceiptMs.toNat ≤ b.pr.cumulativeTimeMs.toNat := h.pr
  show b.pr.timeOfLastReceiptMs.toNat ≤ (BitVec.ofNat 64 (b.pr.cumulativeTimeMs.toNat + ms)).toNat
  rw [BitVec.toNat_ofNat]
  omega

/-- Settles O54: the clock overflows, or PR.TICK is TX.TICK on the advanced clock with the peer's emission
function. -/
theorem prTickResult : Obligations.PrTickResult := by
  intro s ms hs hf hp now advanced fires overflows
  refine ⟨fun hover => ?_, fun hfits => ?_⟩
  · have htick : prTick ms.toNat s.block = .error .overflow := by
      rcases Nat.lt_or_ge now (2 ^ 64) with hnow | hnow
      · rw [prTick_of_clock hnow]
        exact txTick_of_overflow emitMerged_ignoresSender (hover.resolve_left (by omega))
      · exact prTick_of_clock_overflow hnow
    rw [exec_prTick hf hp, htick]
    rfl
  · obtain ⟨hnow, hfits⟩ := not_or.1 hfits
    have hnow : now < 2 ^ 64 := by omega
    have hadvanced : advanced.Inv := Block.Inv.advanceClock hs hnow
    obtain ⟨⟨b, sds⟩, htick⟩ :=
      txTick_succeeds (b := s.block.advanceClock ms.toNat) emitSM_ignoresSender hfits
    have hpr : prTick ms.toNat s.block =
        .ok (b, sds.map fun sd => mergeReceiver sd (sdOfRM (rxSend s.block))) := by
      rw [prTick_of_clock hnow, txTick_emitMerged, htick]; rfl
    refine ⟨_, sds, _, exec_txTick_ok hadvanced hf htick, rfl, exec_rxSend hf, ?_⟩
    rw [exec_prTick hf hp, hpr]
    exact (Performs.prTick hpr).commit hs

/-! ## TX.RECV (44_sender.md R217 to R223) -/

/-- In a contiguous queue no message ends below the queue's start. -/
theorem lt_endSeqno_of_contiguousFrom {n a : Nat} {q : List OutEntry} (h : contiguousFrom n q = true) (ha : a < n) :
    ∀ e ∈ q, a < e.endSeqno := by
  induction q generalizing n with
  | nil => nofun
  | cons e q ih =>
    rw [contiguousFrom, Bool.and_eq_true, decide_eq_true_iff] at h
    obtain ⟨hstart, hrest⟩ := h
    have hend : a < e.endSeqno := by unfold OutEntry.endSeqno; omega
    exact List.forall_mem_cons.2 ⟨hend, ih hrest hend⟩

/-- Of a contiguous queue the acknowledgment of `a` removes exactly the messages that end at or below it, and
bytes_acked advances by their length (R221). -/
theorem popAcked_eq {a : Nat} (ha : a < 2 ^ 64) {q : List OutEntry} {acked : U64}
    (h : contiguousFrom acked.toNat q = true) :
    popAcked a q acked =
      (q.filter fun e => decide (a < e.endSeqno),
        BitVec.ofNat 64 (acked.toNat + totalSeqLen (q.filter fun e => decide (e.endSeqno ≤ a)))) := by
  induction q generalizing acked with
  | nil => simp [popAcked, totalSeqLen]
  | cons e q ih =>
    rw [contiguousFrom, Bool.and_eq_true, decide_eq_true_iff] at h
    obtain ⟨hstart, hrest⟩ := h
    rw [popAcked]
    split
    · next hle =>
      have hend : (BitVec.ofNat 64 e.endSeqno).toNat = e.endSeqno :=
        Nat.mod_eq_of_lt (by omega)
      rw [ih (by rw [hend]; exact hrest), hend, List.filter_cons_of_neg (by simpa using hle),
        List.filter_cons_of_pos (by simpa using hle), totalSeqLen, ← Nat.add_assoc, ← hstart]
      rfl
    · next hgt =>
      have hlater : ∀ x ∈ e :: q, a < x.endSeqno :=
        List.forall_mem_cons.2 ⟨by omega, lt_endSeqno_of_contiguousFrom hrest (by omega)⟩
      rw [List.filter_eq_self.2 fun x hx => decide_eq_true (hlater x hx),
        List.filter_eq_nil_iff.2 fun x hx => by simpa using hlater x hx]
      simp [totalSeqLen]

/-- The sender after an acknowledgment of `a` that is accepted, before its timer is stopped (R218, R221, R222). -/
def Sender.removeUpTo (c : Config) (t : Sender) (a : Nat) : Sender :=
  { t with
    outstanding := t.outstanding.filter fun e => decide (a < e.endSeqno)
    bytesAcked := BitVec.ofNat 64 (t.bytesAcked.toNat +
      totalSeqLen (t.outstanding.filter fun e => decide (e.endSeqno ≤ a)))
    rto := c.initialRto.zeroExtend 64
    timerElapsed := 0
    consecutiveRetx := 0 }

/-- The acknowledgment number that `w` stands for (R218). -/
abbrev Sender.unwrapAckno (t : Sender) (w : U32) : Nat := unwrap w t.zeroPoint t.bytesAcked.toNat

/-- An acknowledgment number is accepted in (bytes_acked, bytes_sent] (R218). -/
abbrev Sender.Accepts (t : Sender) (w : U32) : Prop :=
  t.bytesAcked.toNat < t.unwrapAckno w ∧ t.unwrapAckno w ≤ t.bytesSent.toNat

theorem Sender.acknowledge_of_accepts {t : Sender} (hq : contiguousFrom t.bytesAcked.toNat t.outstanding = true)
    {w : U32} (h : t.Accepts w) (c : Config) : t.acknowledge c w = t.removeUpTo c (t.unwrapAckno w) := by
  refine (if_pos h).trans ?_
  rw [popAcked_eq (unwrap_lt _ _ _) hq]
  rfl

theorem Sender.acknowledge_of_not_accepts {t : Sender} {w : U32} (h : ¬ t.Accepts w) (c : Config) :
    t.acknowledge c w = t :=
  if_neg h

/-- A timer that runs while there is a message queued is stopped exactly where there is none (R223). -/
theorem Sender.stopIfEmpty_eq {t : Sender} (h : t.outstanding ≠ [] → t.timerRunning = true) :
    t.stopIfEmpty = { t with timerRunning := !t.outstanding.isEmpty } := by
  rw [Sender.stopIfEmpty]
  by_cases hempty : t.outstanding.isEmpty = true
  · rw [if_pos hempty, hempty]; rfl
  · have hrun : t.timerRunning = !t.outstanding.isEmpty := by
      rw [h fun hnil => hempty (by rw [hnil]; rfl), Bool.eq_false_iff.2 hempty]; rfl
    rw [if_neg hempty, ← hrun]

/-- In a state of R31 there is nothing to stop. -/
theorem Sender.stopIfEmpty_of_running {t : Sender} (h : t.timerRunning = !t.outstanding.isEmpty) :
    t.stopIfEmpty = t := by
  rw [Sender.stopIfEmpty_eq fun hne => by rw [h]; simpa using hne, ← h]

/-- The sender with the window a message brings (R219). -/
abbrev Sender.withWindow (t : Sender) (w : U16) : Sender := { t with windowSize := w }

theorem txReceive_of_rst {b : Block} {m : ReceiverMessage} (h : m.rst = true) :
    txReceive b m = b.setOut { b.bsOut with error := true } :=
  if_pos h

/-- Without an ackno that is accepted the window is all that changes (R219, R220). -/
theorem txReceive_of_not_accepts {b : Block} (hb : b.SenderInv) {m : ReceiverMessage} (h : m.rst = false)
    (ha : ∀ w, m.ackno = some w → ¬ b.tx.Accepts w) :
    txReceive b m = b.setTx (b.tx.withWindow m.windowSize) := by
  obtain ⟨-, -, -, hrunning, -⟩ := (b.tx.holds_iff _).1 hb.tx.holds
  have hstop := Sender.stopIfEmpty_of_running (t := b.tx.withWindow m.windowSize) hrunning
  refine (if_neg (by simp [h])).trans (congrArg b.setTx ?_)
  cases hw : m.ackno with
  | none => exact hstop
  | some w =>
    have hignored := Sender.acknowledge_of_not_accepts (t := b.tx.withWindow m.windowSize) (ha w hw) b.cfg
    exact (congrArg Sender.stopIfEmpty hignored).trans hstop

/-- An ackno that is accepted removes what it covers and resets the timer, which stops with the queue empty (R221 to
R223). -/
theorem txReceive_of_accepts {b : Block} (hb : b.SenderInv) {m : ReceiverMessage} {w : U32} (h : m.rst = false)
    (hw : m.ackno = some w) (ha : b.tx.Accepts w) :
    txReceive b m = b.setTx { b.tx.removeUpTo b.cfg (b.tx.unwrapAckno w) with
      windowSize := m.windowSize
      timerRunning := !(b.tx.outstanding.filter fun e => decide (b.tx.unwrapAckno w < e.endSeqno)).isEmpty } := by
  have hack := Sender.acknowledge_of_accepts (t := b.tx.withWindow m.windowSize) hb.tx.mid.contiguous ha b.cfg
  refine (if_neg (by simp [h])).trans (congrArg b.setTx ?_)
  dsimp only
  rw [hw]
  refine (congrArg Sender.stopIfEmpty hack).trans (Sender.stopIfEmpty_eq fun hkept => ?_)
  refine hb.tx.mid.running fun hnil => hkept ?_
  show b.tx.outstanding.filter _ = []
  rw [hnil, List.filter_nil]

/-- A descriptor that passes the checks of R217 does what `TX_receive` does. -/
theorem exec_txRecv {s : State} {sd : Sd} (hs : s.Inv) (hf : s.block.sys.fault = false) (hr : sd.rsvd = 0)
    (hl : sd.payload.length ≤ s.block.cfg.maxDataLen.toNat) :
    exec (.txRecv sd) s = .next ((s.setBlock (txReceive s.block (rmOf sd))).answer Response.done) := by
  rw [← (Performs.txRecv sd).commit hs]
  refine (State.unlessFaulted_of_not hf).trans ((if_neg ?_).trans (if_pos ((lengthAllowed_iff _ _).2 hl)))
  simp [reservedClear, hr]

/-- Settles O46, by the outcomes of `TX_receive`: RST, no ackno that is accepted, and one that is. -/
theorem txRecvResult : Obligations.TxRecvResult := by
  intro s sd hs hf hrsvd hlen tx a inRange kept removed
  rw [exec_txRecv hs hf hrsvd hlen]
  refine ⟨fun hrst => ?_, fun hrst hout => ?_, fun hrst hin => ?_⟩
  · rw [txReceive_of_rst hrst]
  · have hignored (w : U32) (hw : (rmOf sd).ackno = some w) : ¬ tx.Accepts w := by
      intro hin
      obtain ⟨hakv, rfl⟩ : sd.akv = true ∧ sd.ackno = w := by simpa [rmOf] using hw
      exact hout ⟨hakv, hin⟩
    rw [txReceive_of_not_accepts hs.sender hrst hignored]
    rfl
  · obtain ⟨hakv, hin⟩ := hin
    rw [txReceive_of_accepts hs.sender hrst (if_pos hakv) hin]
    rfl

/-! ## The retransmission backoff from reset (44_sender.md R229) -/

/-- The first message a sender sends: a SYN alone, since the window is 1 after reset. -/
def synMessage (c : Config) : SenderMessage where
  seqno := c.isn
  syn := true
  payload := []
  fin := false
  rst := false

/-- The block with the SYN in flight, at the timer's elapsed time, its RTO and the count of retransmissions. -/
def synInFlight (c : Config) (elapsed rto count : U64) : Block :=
  (Block.reset c).setTx
    { (Block.reset c).tx with
      bytesSent := 1, outstanding := [{ absSeqno := 0, sm := synMessage c }], synSent := true
      timerRunning := true, timerElapsed := elapsed, rto := rto, consecutiveRetx := count }

theorem nextSegment_reset (c : Config) : nextSegment (Block.reset c) = some (synMessage c) := by
  simp [nextSegment, Block.reset, Stream.reset, synMessage, b2n]

theorem sends_reset (c : Config) :
    sends (Block.reset c) [synMessage c] (synInFlight c 0 (c.initialRto.zeroExtend 64) 0) :=
  ⟨nextSegment_reset c, (by decide : 0 + 1 < 2 ^ 64), rfl⟩

section SynInFlight
variable {c : Config} {elapsed rto count : U64} {ms : Nat}

/-- The SYN fills the window. -/
theorem nextSegment_synInFlight : nextSegment (synInFlight c elapsed rto count) = none := by
  simp [nextSegment, synInFlight, Block.reset]

theorem txTick_synInFlight_of_lt (h : elapsed.toNat + ms < rto.toNat) :
    txTick ms emitSM (synInFlight c elapsed rto count) =
      .ok (synInFlight c (BitVec.ofNat 64 (elapsed.toNat + ms)) rto count, []) :=
  have hlt := rto.isLt
  txTick_of_quiet emitSM (by show elapsed.toNat + ms < 2 ^ 64; omega) fun hfires => Nat.not_le_of_lt h hfires.2

theorem txTick_synInFlight_of_eq (h : elapsed.toNat + ms = rto.toNat) (hrto : 2 * rto.toNat < 2 ^ 64)
    (hcount : count.toNat + 1 < 2 ^ 64) :
    txTick ms emitSM (synInFlight c elapsed rto count) =
      .ok (synInFlight c 0 (BitVec.ofNat 64 (2 * rto.toNat)) (BitVec.ofNat 64 (count.toNat + 1)),
        [sdOfSM (synMessage c)]) := by
  have hfires : (synInFlight c elapsed rto count).tx.Fires ms := ⟨rfl, h.ge⟩
  have hopen : (synInFlight c elapsed rto count).tx.windowSize ≠ 0 := by
    show (1 : U16) ≠ 0
    decide
  rw [txTick_of_fires emitSM_ignoresSender (by show elapsed.toNat + ms < 2 ^ 64; omega) hfires,
    Sender.backoff_of_open_window hopen hrto hcount]
  rfl

/-- An ackno one past the ISN acknowledges the SYN. -/
theorem synInFlight_unwrapAckno : (synInFlight c elapsed rto count).tx.unwrapAckno (c.isn + 1) = 1 := by
  show unwrap (c.isn + 1) c.isn 0 = 1
  simp [unwrap]

/-- The acknowledgment of the SYN empties the queue, and resets and stops the timer. -/
theorem txReceive_synInFlight (hb : (synInFlight c elapsed rto count).SenderInv) {m : ReceiverMessage}
    (hrst : m.rst = false) (hack : m.ackno = some (c.isn + 1)) :
    (txReceive (synInFlight c elapsed rto count) m).tx =
      { (Block.reset c).tx with bytesSent := 1, bytesAcked := 1, synSent := true, windowSize := m.windowSize } := by
  have haccepts : (synInFlight c elapsed rto count).tx.Accepts (c.isn + 1) := by
    rw [Sender.Accepts, synInFlight_unwrapAckno]
    exact ⟨Nat.one_pos, Nat.le_refl 1⟩
  rw [txReceive_of_accepts hb hrst hack haccepts, synInFlight_unwrapAckno]
  rfl

end SynInFlight

/-- Settles O50: each command takes the block with the SYN in flight to the next, and the last acknowledges it. -/
theorem retransmissionBackoff : Obligations.RetransmissionBackoff := by
  intro c window hc syn ack
  have hpos := Config.initialRto_pos hc
  have hlt := c.initialRto.isLt
  have hrto := zext_toNat c.initialRto
  have hwait : (BitVec.ofNat 64 (c.initialRto.toNat - 1)).toNat = c.initialRto.toNat - 1 :=
    Nat.mod_eq_of_lt (by omega)
  have hbefore : (0 : U64).toNat + (BitVec.ofNat 64 (c.initialRto.toNat - 1)).toNat = c.initialRto.toNat - 1 :=
    (Nat.zero_add _).trans hwait
  have hpush := exec_txPush_of_exit (s := State.resetWith c) (Block.inv_reset hc) rfl (sends_reset c)
    nextSegment_synInFlight
  have hs1 := (exec_ends _ _ _ hpush).inv (Block.inv_reset hc)
  have hquiet := exec_txTick_ok hs1 rfl (txTick_synInFlight_of_lt (by rw [hbefore, hrto]; omega))
  have hs2 := (exec_ends _ _ _ hquiet).inv hs1
  have hreached : (BitVec.ofNat 64 ((0 : U64).toNat + (BitVec.ofNat 64 (c.initialRto.toNat - 1)).toNat)).toNat +
      (1 : U64).toNat = (c.initialRto.zeroExtend 64).toNat := by
    rw [hbefore, hwait, hrto]
    exact Nat.sub_add_cancel hpos
  have hfires := exec_txTick_ok (ms := 1) hs2 rfl (txTick_synInFlight_of_eq hreached (by omega) (by decide))
  have hs3 := (exec_ends _ _ _ hfires).inv hs2
  have hack := exec_txRecv (sd := ack) hs3 rfl rfl (Nat.zero_le _)
  have htx := txReceive_synInFlight (m := rmOf ack) hs3.sender rfl rfl
  refine ⟨_, _, _, _, hpush, rfl, hquiet, rfl, hfires, rfl, ?_, rfl, hack, rfl, ?_⟩
  · show (BitVec.ofNat 64 (2 * (c.initialRto.zeroExtend 64).toNat)).toNat = _
    rw [BitVec.toNat_ofNat, hrto]
    omega
  · simp only [State.answer_block, State.setBlock_block]
    rw [htx]
    exact ⟨hrto, rfl, rfl, rfl, rfl⟩

end Sys2Proof.Machine

/-! PROOFS. The peer's PR.RECV, on an active peer and on an inactive one, and which commands write its clock and its
receipt time (45_peer.md R250 to R254, R257, R258). -/

namespace Sys2Proof.Machine

/-! ## The cases of PR.RECV (45_peer.md R250, R251) -/

/-- With the PRU, outside the fault state, an acceptable descriptor runs the body of PR.RECV on an active peer, and
is dropped by an inactive one. -/
theorem exec_prRecv {s : State} {sd : Sd} (hf : s.block.sys.fault = false) (hp : s.block.cfg.hasPeer = true)
    (hr : sd.rsvd = 0) (hl : sd.payload.length ≤ s.block.cfg.maxDataLen.toNat) :
    exec (.prRecv sd) s =
      if s.block.active then
        s.commit ((prReceive s.block (smOf sd) (rmOf sd)).map fun x => (x.1, Response.emitted x.2))
      else s.respond Response.done := by
  refine ((State.unlessFaulted_of_not hf).trans (State.withPeer_of_present hp _)).trans ?_
  exact (if_neg (by simp [reservedClear, hr])).trans (if_pos ((lengthAllowed_iff _ _).2 hl))

/-- Whatever its descriptor, PR.RECV writes nothing on an inactive peer. -/
theorem exec_prRecv_of_inactive {s : State} (ha : s.block.active = false) (sd : Sd) :
    s.OnlyAnswers (exec (.prRecv sd) s) := by
  have hdropped (k : Result) : s.OnlyAnswers (if s.block.active then k else s.respond Response.done) := by
    rw [ha]; exact s.respond_onlyAnswers _
  exact State.unlessFaulted_onlyAnswers <|
    State.ite_onlyAnswers
      (State.ite_onlyAnswers (s.reject_onlyAnswers _)
        (State.ite_onlyAnswers (hdropped _) (s.reject_onlyAnswers _)))
      (s.reject_onlyAnswers _)

theorem Block.lingering_eq_false_iff (b : Block) :
    b.lingering = false ↔ b.pr.linger = false ∨
      10 * b.cfg.initialRto.toNat ≤ b.pr.cumulativeTimeMs.toNat - b.pr.timeOfLastReceiptMs.toNat := by
  rw [Block.lingering, Bool.and_eq_false_iff, decide_eq_false_iff_not, Nat.not_lt]

/-- A peer is inactive for an error on either stream, or with all its work done and the linger window closed
(R250). -/
theorem Block.active_eq_false_iff (b : Block) :
    b.active = false ↔ b.bsIn.error = true ∨ b.bsOut.error = true ∨
      (b.tx.inFlight = 0 ∧ b.bsOut.isFinished = true ∧ b.bsIn.closed = true ∧ b.lingering = false) := by
  simp only [Block.active, Bool.and_eq_false_iff, Bool.or_eq_false_iff, Bool.not_eq_false', decide_eq_false_iff_not,
    Nat.not_lt, Nat.le_zero, and_assoc, or_assoc]

/-- Settles O52: each of its cases makes the peer inactive. -/
theorem prRecvDroppedWhenInactive : Obligations.PrRecvDroppedWhenInactive := by
  intro s sd hf hp hr hl hcases
  have hinactive : s.block.active = false := by
    refine s.block.active_eq_false_iff.2 (hcases.imp_right (Or.imp_right ?_))
    rintro ⟨hacked, houtClosed, houtRead, hinClosed, hlinger⟩
    refine ⟨?_, ?_, hinClosed, s.block.lingering_eq_false_iff.2 (hlinger.imp_right fun hpassed => ?_)⟩
    · rw [Sender.inFlight, hacked, Nat.sub_self]
    · rw [Stream.isFinished, houtClosed, houtRead, beq_self_eq_true]; rfl
    · omega
  rw [exec_prRecv hf hp hr hl, hinactive]
  rfl

/-! ## PR.RECV on an active peer (45_peer.md R251 to R254) -/

/-- Outside the fault state TX.EMPTY answers the empty message as a descriptor. -/
theorem exec_txEmpty {s : State} (hf : s.block.sys.fault = false) :
    exec .txEmpty s = .next (s.answer (Response.descriptor (sdOfSM (txEmpty s.block)))) :=
  State.unlessFaulted_of_not hf

/-- The block with its last receipt timed now. -/
abbrev Block.timeReceipt (b : Block) : Block :=
  b.setPr { b.pr with timeOfLastReceiptMs := b.pr.cumulativeTimeMs }

theorem Block.Inv.timeReceipt {b : Block} (h : b.Inv) : b.timeReceipt.Inv := h.setPr (Nat.le_refl _)

/-- The linger rule writes the flag alone, and clears it where the inbound stream ended first (R253). -/
theorem Block.updateLinger_eq_setPr (b : Block) :
    b.updateLinger =
      b.setPr { b.pr with linger := b.pr.linger && !(b.finCounted && !b.bsOut.isFinished) } := by
  rw [Block.updateLinger]
  cases b.finCounted && !b.bsOut.isFinished with
  | true => simp
  | false => simp [Block.setPr]

/-- The keep-alive clause of R252 asks for a reported ackno one past the segment's seqno. -/
theorem Block.owesReply_eq (b : Block) (sm : SenderMessage) :
    b.owesReply sm = (decide (0 < sm.seqLen) ||
      ((sdOfRM (rxSend b)).akv && (sm.seqno + 1 == (sdOfRM (rxSend b)).ackno))) := by
  rw [Block.owesReply, sdOfRM, sdMerge]
  cases (rxSend b).ackno with
  | none => rfl
  | some w => exact congrArg (decide (0 < sm.seqLen) || ·) BEq.comm

/-- RX.RECV and then TX.RECV of one descriptor, from a state of the invariant: the block goes through `RX_receive`
and then through `TX_receive`. -/
theorem exec_rxRecv_txRecv {s : State} {sd : Sd} {b : Block} (hs : s.Inv) (hf : s.block.sys.fault = false)
    (hr : sd.rsvd = 0) (hl : sd.payload.length ≤ s.block.cfg.maxDataLen.toNat)
    (hrx : rxReceive s.block (smOf sd) = .ok b) :
    exec (.rxRecv sd) s = .next ((s.setBlock b).answer Response.done) ∧
      exec (.txRecv sd) ((s.setBlock b).answer Response.done) =
        .next ((s.setBlock (txReceive b (rmOf sd))).answer Response.done) := by
  have hadv := rxReceive_advances hrx
  refine ⟨exec_rxRecv hs hf hr ((lengthAllowed_iff _ _).2 hl) hrx, ?_⟩
  refine exec_txRecv (rxReceive_inv hs hrx).1 ((congrArg Sys.fault hadv.sys).trans hf) hr ?_
  exact hadv.cfg ▸ hl

/-- On an active peer PR.RECV answers what its body emits. -/
theorem exec_prRecv_ok {s : State} {sd : Sd} {b : Block} {sds : List Sd} (hs : s.Inv)
    (hf : s.block.sys.fault = false) (hp : s.block.cfg.hasPeer = true) (hr : sd.rsvd = 0)
    (hl : sd.payload.length ≤ s.block.cfg.maxDataLen.toNat) (ha : s.block.active = true)
    (hrecv : prReceive s.block (smOf sd) (rmOf sd) = .ok (b, sds)) :
    exec (.prRecv sd) s = .next ((s.setBlock b).answer (Response.emitted sds)) := by
  rw [exec_prRecv hf hp hr hl, if_pos ha, hrecv]
  exact (Performs.prRecv hrecv).commit hs

/-- Settles O51, by the parts of PR.RECV's body: each is the block that its command leaves. -/
theorem prRecvResult : Obligations.PrRecvResult := by
  intro s sd hs hf hp hr hl ha
  obtain ⟨⟨b', sds⟩, hrecv⟩ := prReceive_succeeds hs (smOf sd) (rmOf sd)
  obtain ⟨b1, hrx, hb', hsds⟩ := prReceive_ok hrecv
  have htimed : (s.setBlock s.block.timeReceipt).Inv := Block.Inv.timeReceipt hs
  obtain ⟨hrxRecv, htxRecv⟩ := exec_rxRecv_txRecv htimed hf hr hl hrx
  refine ⟨_, _, _, _, _, sdOfSM (txEmpty b'), sdOfRM (rxSend b'), exec_rxSend hf, hrxRecv, rfl, rfl, htxRecv, rfl,
    rfl, ?_⟩
  intro inn inboundFinished outFinished b owed
  have hb : b' = b := by
    have hcfg : (txReceive b1 (rmOf sd)).cfg = s.block.cfg :=
      (txReceive_advances b1 _).cfg.trans (rxReceive_advances hrx).cfg
    rw [hb', Block.updateLinger_eq_setPr, Block.finCounted_eq, hcfg]
    rfl
  have howed : s.block.timeReceipt.owesReply (smOf sd) = owed := Block.owesReply_eq _ _
  have hfault : b.sys.fault = false := hb ▸ (congrArg Sys.fault (prReceive_advances hrecv).sys).trans hf
  rw [howed] at hsds
  subst hsds
  rw [← hb] at hfault ⊢
  exact ⟨exec_txEmpty hfault, exec_rxSend hfault, exec_prRecv_ok hs hf hp hr hl ha hrecv⟩

/-! ## The peer's times (45_peer.md R257, R258) -/

/-- No frame but PR.TICK's holds the clock. -/
theorem writesOnlyItsState.clock {i : Instr} {b b' : Block} (h : writesOnlyItsState i b b')
    (hi : ∀ ms, i ≠ .prTick ms) : b'.pr.cumulativeTimeMs = b.pr.cumulativeTimeMs := by
  cases i with
  | prTick ms => exact absurd rfl (hi ms)
  | bsSeterr sel => cases sel <;> exact congrArg (·.pr.cumulativeTimeMs) h
  | _ => exact congrArg (·.pr.cumulativeTimeMs) h

/-- No frame but PR.RECV's holds the receipt time. -/
theorem writesOnlyItsState.lastReceipt {i : Instr} {b b' : Block} (h : writesOnlyItsState i b b')
    (hi : ∀ sd, i ≠ .prRecv sd) : b'.pr.timeOfLastReceiptMs = b.pr.timeOfLastReceiptMs := by
  cases i with
  | prRecv sd => exact absurd rfl (hi sd)
  | bsSeterr sel => cases sel <;> exact congrArg (·.pr.timeOfLastReceiptMs) h
  | _ => exact congrArg (·.pr.timeOfLastReceiptMs) h

/-- PR.TICK moves the clock by its operand, where it does not fault. -/
theorem exec_prTick_clock {ms : U64} {s t : State} (h : exec (.prTick ms) s = .next t) :
    t.block.pr.cumulativeTimeMs = s.block.pr.cumulativeTimeMs ∨
      t.block.pr.cumulativeTimeMs.toNat = s.block.pr.cumulativeTimeMs.toNat + ms.toNat := by
  cases exec_ends _ s t h with
  | answered r ht => exact .inl (ht ▸ rfl)
  | faulted c _ _ ht => exact .inl (ht ▸ rfl)
  | performed b r _ hb _ ht =>
    cases hb with
    | prTick htick =>
      obtain ⟨now, el, rto, n, hnow, rfl⟩ := prTick_frame htick
      exact .inr (ht ▸ hnow)

/-- PR.RECV times the receipt with the clock, where it is performed. -/
theorem exec_prRecv_lastReceipt {sd : Sd} {s t : State} (h : exec (.prRecv sd) s = .next t) :
    t.block.pr.timeOfLastReceiptMs = s.block.pr.timeOfLastReceiptMs ∨
      t.block.pr.timeOfLastReceiptMs = s.block.pr.cumulativeTimeMs := by
  cases exec_ends _ s t h with
  | answered r ht => exact .inl (ht ▸ rfl)
  | faulted c _ _ ht => exact .inl (ht ▸ rfl)
  | performed b r _ hb _ ht =>
    cases hb with
    | prRecv hrecv =>
      obtain ⟨b1, linger, -, -, rfl⟩ := prReceive_cases hrecv
      exact .inr (ht ▸ rfl)

/-- A PR.RECV that changes the receipt time found the peer active. -/
theorem active_of_lastReceipt_ne {sd : Sd} {s t : State} (h : exec (.prRecv sd) s = .next t)
    (hne : t.block.pr.timeOfLastReceiptMs ≠ s.block.pr.timeOfLastReceiptMs) : s.block.active = true := by
  by_contra hinactive
  obtain ⟨r, hr⟩ := exec_prRecv_of_inactive (Bool.eq_false_iff.2 hinactive) sd
  obtain rfl : t = s.answer r := by simpa using h.symm.trans hr
  exact hne rfl

/-- Settles O55: the frames name the one command that can write each time, and that command says how. -/
theorem peerTimeKeeping : Obligations.PeerTimeKeeping := by
  intro i s t h
  have hframe := exec_writesOnlyItsState h
  refine ⟨fun hclock => ?_, fun hreceipt => ?_⟩
  · obtain ⟨ms, rfl⟩ : ∃ ms, i = .prTick ms := by
      by_contra hother
      exact hclock (hframe.clock (not_exists.1 hother))
    exact ⟨ms, rfl, (exec_prTick_clock h).resolve_left hclock⟩
  · obtain ⟨sd, rfl⟩ : ∃ sd, i = .prRecv sd := by
      by_contra hother
      exact hreceipt (hframe.lastReceipt (not_exists.1 hother))
    exact ⟨⟨sd, rfl⟩, active_of_lastReceipt_ne h hreceipt, (exec_prRecv_lastReceipt h).resolve_left hreceipt⟩

end Sys2Proof.Machine

/-! PROOFS. The addresses RDREG maps (46_register_access.md R281). -/

namespace Sys2Proof.Machine

/-- Every address in R281's ranges names a register of the map. -/
theorem Register.exists_atAddress_of_mapped {c : Config} {a : Nat} (h : addressMapped c.hasPeer a = true) :
    ∃ r, Register.atAddress c a = some r := by
  rw [← Option.ne_none_iff_exists']
  intro hnone
  rw [(Register.atAddress_eq_none_iff c a).1 hnone] at h
  cases h

/-- Settles O57: the map names no register outside R281's ranges, and one at every address inside them. -/
theorem unmappedRegistersAnswerErrReg : Obligations.UnmappedRegistersAnswerErrReg := by
  intro s a
  refine ⟨fun hunmapped => ?_, fun hmapped => ?_⟩
  · exact execRdreg_of_unmapped ((Register.atAddress_eq_none_iff _ _).2 hunmapped)
  · obtain ⟨r, hr⟩ := Register.exists_atAddress_of_mapped hmapped
    exact ⟨r.value s.block, State.Reads.of_atAddress hr rfl⟩

end Sys2Proof.Machine

/-! PROOFS. The fault state and the rejections, the give-up condition, and the registers after reset
(60_exceptions.md R301 to R305, R310, 70_reset_and_hazards.md R343). -/

namespace Sys2Proof.Machine

/-! ## The fault state (60_exceptions.md R304, R310) -/

/-- Every command but RDREG makes the check for the fault state first. -/
theorem exec_of_fault {s : State} (hf : s.block.sys.fault = true) {i : Instr} (hi : ∀ a, i ≠ .rdreg a) :
    exec i s = s.reject .fault := by
  cases i with
  | rdreg a => exact absurd rfl (hi a)
  | _ => exact if_pos hf

theorem exec_onlyAnswers_of_fault {s : State} (hf : s.block.sys.fault = true) (i : Instr) :
    s.OnlyAnswers (exec i s) := by
  by_cases hi : ∀ a, i ≠ .rdreg a
  · exact exec_of_fault hf hi ▸ s.reject_onlyAnswers .fault
  · obtain ⟨a, rfl⟩ : ∃ a, i = .rdreg a := by simpa using hi
    exact exec_query rfl s

/-- A sequence of commands keeps the block of a state in the fault state. -/
theorem runCommands_of_fault (is : List Instr) {s : State} (hf : s.block.sys.fault = true) :
    ∃ t, runCommands is s = .next t ∧ t.block = s.block := by
  induction is generalizing s with
  | nil => exact ⟨s, rfl, rfl⟩
  | cons i is ih =>
    obtain ⟨r, hexec⟩ := exec_onlyAnswers_of_fault hf i
    obtain ⟨t, hrun, hblock⟩ := ih (s := s.answer r) hf
    exact ⟨t, (runCommands_cons hexec).trans hrun, hblock⟩

/-- Settles O18: the first check answers FAULT, RDREG only reads, and so a sequence keeps the block. -/
theorem faultStateAnswersFault : Obligations.FaultStateAnswersFault :=
  fun _ hf => ⟨fun _ hi => exec_of_fault hf hi, fun is => runCommands_of_fault is hf⟩

/-- Of the checks of R303 only that for the fault state reports FAULT. -/
theorem fault_of_firstStatus {b : Block} {d : Decoded} (h : firstStatus (checks b d) = some .fault) :
    b.sys.fault = true := by
  have hmem := mem_of_firstStatus h
  simp only [checks, List.mem_cons, Prod.mk.injEq, reduceCtorEq, and_false, and_true, List.not_mem_nil,
    or_false] at hmem
  exact (Bool.and_eq_true_iff.1 hmem.symm).1

/-- The status of a command's response is that of the first check that holds, or that of a completion. -/
theorem status_of_exec {i : Instr} {s t : State} {r : Response} (h : exec i s = .next t) (hr : t.resp = some r) :
    firstStatus (checks s.block (.command i [])) = some r.status ∨
      r.status = .ok ∨ (r.status = .fault ∧ t.block.sys.fault = true) := by
  have hchecked := exec_checked i s []
  rw [h, State.Checked] at hchecked
  split at hchecked
  · next st hfirst =>
    obtain rfl : t = s.answer (Response.bare st) := by simpa [State.reject] using hchecked
    obtain rfl : Response.bare st = r := by simpa using hr
    exact .inl hfirst
  · obtain ⟨t', r', ht, -, hr', hcompleted⟩ := hchecked
    obtain rfl : t = t' := by simpa using ht
    obtain rfl : r = r' := by simpa [hr] using hr'
    exact .inr hcompleted

/-- A command that answers FAULT leaves the block in the fault state. -/
theorem fault_of_status {i : Instr} {s t : State} {r : Response} (h : exec i s = .next t)
    (hr : t.resp = some r) (hst : r.status = .fault) : t.block.sys.fault = true := by
  rcases status_of_exec h hr with hfirst | hok | ⟨-, hfault⟩
  · exact (exec_ends i s t h).fault_kept (fault_of_firstStatus (hst ▸ hfirst))
  · cases hst.symm.trans hok
  · exact hfault

/-- Of the ends of a command only `faulted` sets SYS.fault. -/
theorem Ends.enters_fault {i : Instr} {s t : State} (h : Ends i s t) (hs : s.block.sys.fault = false)
    (ht : t.block.sys.fault = true) : ∃ c : FaultCause, c ≠ .none ∧ t = s.enterFault c := by
  cases h with
  | answered r he =>
    rw [he, State.answer_block, hs] at ht
    cases ht
  | faulted c hc _ he => exact ⟨c, hc, he⟩
  | performed b r _ hb _ he =>
    rw [he, State.answer_block, State.setBlock_block, hb.advances.sys, hs] at ht
    cases ht

/-- Settles O19: a FAULT answer is in the fault state, which a command enters in one way. -/
theorem faultEntryDiscardsEffects : Obligations.FaultEntryDiscardsEffects := by
  intro i s t h hs hfault
  have ht : t.block.sys.fault = true := by
    rcases hfault with ht | ⟨r, hr, hst⟩
    · exact ht
    · exact fault_of_status h hr hst
  exact (exec_ends i s t h).enters_fault hs ht

/-! ## Rejections (60_exceptions.md R301, R303) -/

/-- Of an undefined opcode only the CMD word is a transaction's, and that has no length. -/
theorem rest_of_undefinedOpcode {bs rest : List Byte} {opc : Byte} (h : decode bs = .undefinedOpcode opc rest) :
    transactionLength bs = none ∧ rest = bs.drop 4 := by
  cases Reads.of_decode h with
  | undefinedOpcode hopc hbytes =>
    rw [hbytes, transactionLength, take32_bytes32]
    exact ⟨by simp only [hopc], rfl⟩

/-- What the decoder read is the transaction of a defined opcode, or the CMD word of an undefined one. -/
theorem rest_eq_drop {bs : List Byte} (h : decode bs ≠ .incomplete) :
    (decode bs).rest = bs.drop ((transactionLength bs).getD 4) ∧
      (transactionLength bs = none → (decode bs).opcode = none) := by
  by_cases hopc : (decode bs).opcode = none
  · refine ⟨?_, fun _ => hopc⟩
    cases hd : decode bs with
    | undefinedOpcode opc rest =>
      obtain ⟨hlen, hrest⟩ := rest_of_undefinedOpcode hd
      rw [hlen]
      exact hrest
    | incomplete => exact absurd hd h
    | command | reservedBits =>
      rw [hd] at hopc
      cases hopc
  · obtain ⟨n, hlen, -, hrest⟩ := transactionLengthIsTheFormats bs hopc
    rw [hlen]
    exact ⟨hrest, nofun⟩

/-- An undefined opcode is reported by the second check, or by the first. -/
theorem firstFailed_of_undefined {b : Block} {d : Decoded} {st : Status} (h : d.opcode = none)
    (hst : firstFailed b d = some st) : st = .fault ∨ st = .errOpcode := by
  cases hf : b.sys.fault with
  | true => exact .inl (by simpa [firstFailed, checks, hf, h] using hst.symm)
  | false => exact .inr (by simpa [firstFailed, checks, hf, h] using hst.symm)

/-- Settles O20: a status other than OK and FAULT is that of the first check that holds, with no effect but the
answer and the consumption of what the decoder read. -/
theorem rejectedCommandsHaveNoEffect : Obligations.RejectedCommandsHaveNoEffect := by
  intro s t r hreset hd h hr hok hfault
  obtain ⟨hrejected, hperformed⟩ := firstFailedCheckIsReported s hreset hd
  obtain ⟨hrest, hundefined⟩ := rest_eq_drop hd
  cases hfirst : firstFailed s.block (decode s.port) with
  | none =>
    obtain ⟨t', r', ht, -, hr', hst⟩ := hperformed hfirst
    obtain rfl : t = t' := by simpa [h] using ht
    obtain rfl : r = r' := by simpa [hr] using hr'
    simp [hok, hfault] at hst
  | some st =>
    obtain rfl : t = _ := by simpa [h] using hrejected st hfirst
    obtain rfl : Response.bare st = r := by simpa using hr
    exact ⟨rfl, rfl, hrest, fun hlen =>
      (firstFailed_of_undefined (hundefined hlen) hfirst).resolve_left hfault⟩

/-! ## The fault of cause 3 (60_exceptions.md R304)

From a state of the invariant the check behind cause 3 passes (`Performs.checked`); what is left is that no
computation names that cause itself. -/

/-- Where the computation faults, it is in a 64-bit store (cause 1) or a pop (cause 2). -/
def FaultsInOperation {α : Type} (x : Except FaultCause α) : Prop :=
  ∀ c, x = .error c → c = .overflow ∨ c = .popBeyond

theorem FaultsInOperation.ok {α : Type} (a : α) : FaultsInOperation (.ok a) := nofun

theorem FaultsInOperation.of_succeeds {α : Type} {x : Except FaultCause α} (h : ∃ a, x = .ok a) :
    FaultsInOperation x := by
  obtain ⟨a, rfl⟩ := h
  exact .ok a

theorem FaultsInOperation.error {α : Type} {c : FaultCause} (h : c = .overflow ∨ c = .popBeyond) :
    FaultsInOperation (.error c : Except FaultCause α) := by
  rintro _ ⟨⟩
  exact h

theorem FaultsInOperation.bind {α β : Type} {x : Except FaultCause α} {f : α → Except FaultCause β}
    (hx : FaultsInOperation x) (hf : ∀ a, FaultsInOperation (f a)) : FaultsInOperation (x >>= f) := by
  cases x with
  | error c => exact .error (hx c rfl)
  | ok a => exact hf a

theorem FaultsInOperation.ite {α : Type} {p : Prop} [Decidable p] {x y : Except FaultCause α}
    (hx : FaultsInOperation x) (hy : FaultsInOperation y) : FaultsInOperation (if p then x else y) := by
  split
  · exact hx
  · exact hy

theorem store64_faultsInOperation (n : Nat) : FaultsInOperation (store64 n) :=
  .ite (.ok _) (.error (.inl rfl))

theorem bsPush_faultsInOperation (s : Stream) (d : List Byte) : FaultsInOperation (bsPush s d) :=
  .ite (.ok _) ((store64_faultsInOperation _).bind fun _ => .ok _)

theorem bsPop_faultsInOperation (policy : PopPolicy) (s : Stream) (n : Nat) :
    FaultsInOperation (bsPop policy s n) :=
  .ite (.error (.inr rfl)) ((store64_faultsInOperation _).bind fun _ => .ok _)

theorem txPasses_faultsInOperation (e : Emission) (fuel : Nat) (b : Block) :
    FaultsInOperation (txPasses e fuel b) := by
  have hpass (b : Block) : FaultsInOperation (txPass e b) :=
    .ite (.ok _) <| .ite (.ok _) <| (bsPop_faultsInOperation _ _ _).bind fun _ =>
      .ite (.ok _) ((store64_faultsInOperation _).bind fun _ => .ok _)
  induction fuel generalizing b with
  | zero => exact .ok _
  | succ fuel ih =>
    refine (hpass b).bind fun o => ?_
    cases o with
    | none => exact .ok _
    | some x => exact (ih x.1).bind fun _ => .ok _

theorem txTick_faultsInOperation (ms : Nat) (e : Emission) (b : Block) :
    FaultsInOperation (txTick ms e b) := by
  have hbackoff (t : Sender) : FaultsInOperation t.backoff :=
    .ite (.ok _) <| (store64_faultsInOperation _).bind fun _ =>
      (store64_faultsInOperation _).bind fun _ => .ok _
  exact (store64_faultsInOperation _).bind fun _ => .ite ((hbackoff _).bind fun _ => .ok _) (.ok _)

theorem prTick_faultsInOperation (ms : Nat) (b : Block) : FaultsInOperation (prTick ms b) :=
  (store64_faultsInOperation _).bind fun _ => txTick_faultsInOperation _ _ _

/-- No next state of the outcome `k` has the fault cause 3 where `s` had another. -/
def State.SparesCause3 (s : State) (k : Result) : Prop :=
  ∀ t, k = .next t → t.block.sys.faultCause = .invariant → s.block.sys.faultCause = .invariant

theorem State.OnlyAnswers.sparesCause3 {s : State} {k : Result} (h : s.OnlyAnswers k) : s.SparesCause3 k := by
  obtain ⟨r, rfl⟩ := h
  rintro _ ⟨⟩
  exact id

theorem State.reject_sparesCause3 (s : State) (st : Status) : s.SparesCause3 (s.reject st) :=
  (s.reject_onlyAnswers st).sparesCause3

theorem State.ite_sparesCause3 {s : State} {p : Prop} [Decidable p] {k k' : Result}
    (h : p → s.SparesCause3 k) (h' : ¬ p → s.SparesCause3 k') : s.SparesCause3 (if p then k else k') := by
  split
  · exact h ‹_›
  · exact h' ‹_›

theorem State.unlessFaulted_sparesCause3 {s : State} {k : Result} (h : s.SparesCause3 k) :
    s.SparesCause3 (s.unlessFaulted k) :=
  State.ite_sparesCause3 (fun _ => s.reject_sparesCause3 _) fun _ => h

theorem State.withPeer_sparesCause3 {s : State} {k : Result} (h : s.SparesCause3 k) :
    s.SparesCause3 (s.withPeer k) :=
  State.ite_sparesCause3 (fun _ => h) fun _ => s.reject_sparesCause3 _

/-- The end of a command whose block and response follow from a computation `x`. -/
theorem State.commit_sparesCause3 {α : Type} {s : State} {i : Instr} {x : Except FaultCause α}
    {f : α → Block × Response} (hs : s.Inv) (hx : FaultsInOperation x)
    (h : ∀ a, x = .ok a → Performs s.block i (f a).1 (f a).2) :
    s.SparesCause3 (s.commit (x >>= fun a => pure (f a))) := by
  intro t ht hcause
  cases x with
  | ok a =>
    have hperf := h a rfl
    obtain rfl : (s.setBlock (f a).1).answer (f a).2 = t :=
      Host.Outcome.next.inj ((hperf.commit hs).symm.trans ht)
    rwa [State.answer_block, State.setBlock_block, hperf.advances.sys] at hcause
  | error c =>
    obtain rfl : s.enterFault c = t := Host.Outcome.next.inj ht
    rcases hx c rfl with rfl | rfl <;> cases hcause

theorem State.commit_ok_sparesCause3 {s : State} {i : Instr} {b : Block} {r : Response} (hs : s.Inv)
    (h : Performs s.block i b r) : s.SparesCause3 (s.commit (.ok (b, r))) :=
  State.commit_sparesCause3 (x := .ok ()) (f := fun _ => (b, r)) hs (.ok _) fun _ _ => h

/-- The checks on a descriptor's length and reserved bits come before a command that carries one. -/
theorem State.descriptor_sparesCause3 {s : State} {sd : Sd} {k : Result} (h : s.SparesCause3 k) :
    s.SparesCause3 (if !reservedClear sd then s.reject .errRsvd
      else if lengthAllowed s.block.cfg sd.payload then k else s.reject .errOperand) :=
  State.ite_sparesCause3 (fun _ => s.reject_sparesCause3 _) fun _ =>
    State.ite_sparesCause3 (fun _ => h) fun _ => s.reject_sparesCause3 _

/-- From a state of the invariant no command enters the fault state with cause 3. -/
theorem exec_sparesCause3 {s : State} (hs : s.Inv) (i : Instr) : s.SparesCause3 (exec i s) := by
  cases i with
  | sqWrap | sqUnwrap | bsPeek | rxSend | txEmpty | rdreg => exact (exec_query rfl s).sparesCause3
  | bsPush sel data =>
    refine State.unlessFaulted_sparesCause3 <| State.ite_sparesCause3 (fun _ => s.reject_sparesCause3 _)
      fun hsel => State.ite_sparesCause3 (fun _ => ?_) fun _ => s.reject_sparesCause3 _
    cases sel with
    | inbound => exact absurd rfl hsel
    | outbound => exact State.commit_sparesCause3 hs (bsPush_faultsInOperation _ _) fun _ => .bsPush
  | bsClose sel =>
    refine State.unlessFaulted_sparesCause3 <| State.ite_sparesCause3 (fun _ => s.reject_sparesCause3 _)
      fun hsel => ?_
    cases sel with
    | inbound => exact absurd rfl hsel
    | outbound => exact State.commit_ok_sparesCause3 hs .bsClose
  | bsSeterr sel => exact State.unlessFaulted_sparesCause3 <| State.commit_ok_sparesCause3 hs (.bsSeterr sel)
  | bsPop sel n =>
    refine State.unlessFaulted_sparesCause3 <| State.ite_sparesCause3 (fun _ => s.reject_sparesCause3 _)
      fun hsel => ?_
    cases sel with
    | inbound => exact State.commit_sparesCause3 hs (bsPop_faultsInOperation _ _ _) fun _ => .bsPop
    | outbound => exact absurd rfl hsel
  | raInsert last first data =>
    refine State.unlessFaulted_sparesCause3 <| State.ite_sparesCause3 (fun hp => ?_)
      fun _ => s.reject_sparesCause3 _
    have hfits : first.toNat + data.length < 2 ^ 64 := by
      simp only [Bool.and_eq_true, decide_eq_true_eq] at hp
      omega
    obtain ⟨run, ra, -, -, hinsert⟩ := raInsert_delivers hs.bsIn hs.ra hfits last
    exact State.commit_sparesCause3 hs (.of_succeeds ⟨_, hinsert⟩) fun _ => .raInsert hfits
  | rxRecv sd =>
    exact State.unlessFaulted_sparesCause3 <| State.descriptor_sparesCause3 <|
      State.commit_sparesCause3 hs (.of_succeeds (rxReceive_succeeds hs.bsIn hs.ra _)) fun _ => .rxRecv
  | txPush =>
    exact State.unlessFaulted_sparesCause3 <|
      State.commit_sparesCause3 hs (txPasses_faultsInOperation _ _ _) fun _ => .txPush
  | txRecv sd =>
    exact State.unlessFaulted_sparesCause3 <| State.descriptor_sparesCause3 <|
      State.commit_ok_sparesCause3 hs (.txRecv sd)
  | txTick ms =>
    exact State.unlessFaulted_sparesCause3 <|
      State.commit_sparesCause3 hs (txTick_faultsInOperation _ _ _) fun _ => .txTick
  | prRecv sd =>
    exact State.unlessFaulted_sparesCause3 <| State.withPeer_sparesCause3 <| State.descriptor_sparesCause3 <|
      State.ite_sparesCause3
        (fun _ => State.commit_sparesCause3 hs (.of_succeeds (prReceive_succeeds hs _ _)) fun _ => .prRecv)
        fun _ => (s.respond_onlyAnswers _).sparesCause3
  | prPush =>
    exact State.unlessFaulted_sparesCause3 <| State.withPeer_sparesCause3 <|
      State.commit_sparesCause3 hs (txPasses_faultsInOperation _ _ _) fun _ => .prPush
  | prTick ms =>
    exact State.unlessFaulted_sparesCause3 <| State.withPeer_sparesCause3 <|
      State.commit_sparesCause3 hs (prTick_faultsInOperation _ _) fun _ => .prTick

/-- Settles O15: a reset clears the cause, and no command enters the fault state with cause 3. -/
theorem invariantFaultNeverHappens : Obligations.InvariantFaultNeverHappens := by
  intro s t hs h hcause
  cases hr : s.resetIn with
  | some c =>
    obtain ⟨-, rfl⟩ := step_next_of_reset hr h
    cases hcause
  | none =>
    rcases step_next hr h with ⟨hblock, -⟩ | ⟨i, rest, hexec⟩
    · rwa [← hblock]
    · exact exec_sparesCause3 (s := s.setPort rest) hs i t hexec hcause

/-! ## The give-up condition (60_exceptions.md R305, 44_sender.md R227)

MAX_RETX_ATTEMPTS is read by TX_STATUS alone. Each function that a command runs is shown to commute with writing
that configuration value; a test or a sub-computation that does not read the configuration is the same, by
unfolding, on both sides. -/

/-- The block with another MAX_RETX_ATTEMPTS. -/
def Block.withMaxRetx (m : U32) (b : Block) : Block := { b with cfg := { b.cfg with maxRetx := m } }

/-- The state with another MAX_RETX_ATTEMPTS. -/
def State.withMaxRetx (m : U32) (s : State) : State := { s with block := s.block.withMaxRetx m }

/-- The computation `y` meets the fault that `x` meets, or gives the image under `g` of what `x` gives. -/
def Mirrors {α β : Type} (g : α → β) (x : Except FaultCause α) (y : Except FaultCause β) : Prop := y = x.map g

section Mirrors
variable {α β γ δ : Type} {g : α → β}

theorem Mirrors.ok (g : α → β) (a : α) : Mirrors g (.ok a) (.ok (g a)) := rfl

theorem Mirrors.bind {h : γ → δ} {x : Except FaultCause α} {y : Except FaultCause β}
    {f : α → Except FaultCause γ} {f' : β → Except FaultCause δ} (hx : Mirrors g x y)
    (hf : ∀ a, Mirrors h (f a) (f' (g a))) : Mirrors h (x >>= f) (y >>= f') := by
  cases x with
  | error c => cases hx; rfl
  | ok a => cases hx; exact hf a

/-- A sub-computation that is the same on both sides. -/
theorem Mirrors.bind_same (x : Except FaultCause γ) {f : γ → Except FaultCause α} {f' : γ → Except FaultCause β}
    (hf : ∀ c, Mirrors g (f c) (f' c)) : Mirrors g (x >>= f) (x >>= f') := by
  cases x with
  | error c => rfl
  | ok c => exact hf c

theorem Mirrors.ite {p : Prop} [Decidable p] {x x' : Except FaultCause α} {y y' : Except FaultCause β}
    (h : Mirrors g x y) (h' : Mirrors g x' y') : Mirrors g (if p then x else x') (if p then y else y') := by
  split
  · exact h
  · exact h'

end Mirrors

/-! ### The internal functions -/

/-- The emission function does not read MAX_RETX_ATTEMPTS. -/
def Emission.IgnoresMaxRetx (e : Emission) : Prop := ∀ m b, e (Block.withMaxRetx m b) = e b

theorem emitSM_ignoresMaxRetx : emitSM.IgnoresMaxRetx := fun _ _ => rfl

theorem emitMerged_ignoresMaxRetx : emitMerged.IgnoresMaxRetx := fun _ _ => rfl

section Functions
variable (m : U32) (b : Block)

@[simp] theorem Block.withMaxRetx_bsIn : (b.withMaxRetx m).bsIn = b.bsIn := rfl
@[simp] theorem Block.withMaxRetx_rx : (b.withMaxRetx m).rx = b.rx := rfl

theorem rxReceive_mirrors (sm : SenderMessage) :
    Mirrors (Block.withMaxRetx m) (rxReceive b sm) (rxReceive (b.withMaxRetx m) sm) := by
  refine .ite (.ok _ _) (.ite (.ok _ _) ?_)
  simp only [Block.withMaxRetx_bsIn, Block.withMaxRetx_rx]
  split
  · exact .ok _ b
  · exact .bind_same _ fun _ => .ok _ _

theorem txReceive_withMaxRetx (rm : ReceiverMessage) :
    txReceive (b.withMaxRetx m) rm = (txReceive b rm).withMaxRetx m := by
  unfold txReceive
  split
  · rfl
  · rfl

theorem updateLinger_withMaxRetx : (b.withMaxRetx m).updateLinger = b.updateLinger.withMaxRetx m := by
  rw [Block.updateLinger_eq_setPr, Block.updateLinger_eq_setPr]
  rfl

theorem prReceive_mirrors (sm : SenderMessage) (rm : ReceiverMessage) :
    Mirrors (Prod.map (Block.withMaxRetx m) id) (prReceive b sm rm) (prReceive (b.withMaxRetx m) sm rm) := by
  refine .bind (rxReceive_mirrors m (b.setPr { b.pr with timeOfLastReceiptMs := b.pr.cumulativeTimeMs }) sm)
    fun b1 => ?_
  rw [txReceive_withMaxRetx, updateLinger_withMaxRetx]
  exact .ok _ _

variable {e : Emission} (he : e.IgnoresMaxRetx)
include he

theorem txPass_mirrors :
    Mirrors (Option.map (Prod.map (Block.withMaxRetx m) id)) (txPass e b) (txPass e (b.withMaxRetx m)) := by
  refine .ite (.ok _ none) <| .ite (.ok _ none) <| .bind_same _ fun p => .ite (.ok _ none) <|
    .bind_same _ fun sent => ?_
  exact congrArg (fun emit : SenderMessage → Sd => Except.ok (some (_, emit _))) (he m (b.setOut p.1))

theorem txPasses_mirrors (fuel : Nat) :
    Mirrors (Prod.map (Block.withMaxRetx m) id) (txPasses e fuel b) (txPasses e fuel (b.withMaxRetx m)) := by
  induction fuel generalizing b with
  | zero => exact .ok _ (b, [])
  | succ fuel ih =>
    refine .bind (txPass_mirrors m b he) fun o => ?_
    cases o with
    | none => exact .ok _ (b, [])
    | some x => exact .bind (ih x.1) fun _ => .ok _ _

theorem txTick_mirrors (ms : Nat) :
    Mirrors (Prod.map (Block.withMaxRetx m) id) (txTick ms e b) (txTick ms e (b.withMaxRetx m)) := by
  refine .bind_same _ fun elapsed => .ite (.bind_same _ fun t => ?_) (.ok _ (_, []))
  exact congrArg (fun emit : SenderMessage → Sd => Except.ok (_, List.map (fun h : OutEntry => emit h.sm) _))
    (he m (b.setTx { b.tx with timerElapsed := elapsed }))

end Functions

theorem prTick_mirrors (m : U32) (b : Block) (ms : Nat) :
    Mirrors (Prod.map (Block.withMaxRetx m) id) (prTick ms b) (prTick ms (b.withMaxRetx m)) :=
  .bind_same _ fun now =>
    txTick_mirrors m (b.setPr { b.pr with cumulativeTimeMs := now }) emitMerged_ignoresMaxRetx ms

/-! ### The commands -/

/-- Where the outcome `k` is a next state, `k'` is that state with another MAX_RETX_ATTEMPTS. -/
def MirrorsOutcome (m : U32) (k k' : Result) : Prop := ∀ t, k = .next t → k' = .next (t.withMaxRetx m)

section Commands
variable {m : U32} {s : State}

theorem MirrorsOutcome.respond (r : Response) :
    MirrorsOutcome m (s.respond r) ((s.withMaxRetx m).respond r) := by
  rintro _ ⟨⟩
  rfl

theorem MirrorsOutcome.reject (st : Status) : MirrorsOutcome m (s.reject st) ((s.withMaxRetx m).reject st) :=
  .respond (Response.bare st)

theorem MirrorsOutcome.ite {p : Prop} [Decidable p] {k l k' l' : Result} (hk : MirrorsOutcome m k k')
    (hl : MirrorsOutcome m l l') : MirrorsOutcome m (if p then k else l) (if p then k' else l') := by
  split
  · exact hk
  · exact hl

theorem MirrorsOutcome.unlessFaulted {k k' : Result} (h : MirrorsOutcome m k k') :
    MirrorsOutcome m (s.unlessFaulted k) ((s.withMaxRetx m).unlessFaulted k') :=
  .ite (.reject _) h

theorem MirrorsOutcome.withPeer {k k' : Result} (h : MirrorsOutcome m k k') :
    MirrorsOutcome m (s.withPeer k) ((s.withMaxRetx m).withPeer k') :=
  .ite h (.reject _)

/-- The checks on a descriptor. -/
theorem MirrorsOutcome.descriptor {sd : Sd} {k k' : Result} (h : MirrorsOutcome m k k') :
    MirrorsOutcome m
      (if !reservedClear sd then s.reject .errRsvd
        else if lengthAllowed s.block.cfg sd.payload then k else s.reject .errOperand)
      (if !reservedClear sd then (s.withMaxRetx m).reject .errRsvd
        else if lengthAllowed (s.withMaxRetx m).block.cfg sd.payload then k'
        else (s.withMaxRetx m).reject .errOperand) :=
  .ite (.reject _) (.ite h (.reject _))

/-- The check of the invariants does not read MAX_RETX_ATTEMPTS. -/
theorem MirrorsOutcome.commit {x x' : Except FaultCause (Block × Response)}
    (h : Mirrors (Prod.map (Block.withMaxRetx m) id) x x') :
    MirrorsOutcome m (s.commit x) ((s.withMaxRetx m).commit x') := by
  cases h
  cases x with
  | error c =>
    rintro _ ⟨⟩
    rfl
  | ok p =>
    refine MirrorsOutcome.ite ?_ ?_
    · rintro _ ⟨⟩
      rfl
    · rintro _ ⟨⟩
      rfl

/-- A command that emits the descriptors of its computation. -/
theorem MirrorsOutcome.commit_emitted {x x' : Except FaultCause (Block × List Sd)}
    (h : Mirrors (Prod.map (Block.withMaxRetx m) id) x x') :
    MirrorsOutcome m (s.commit (x >>= fun p => pure (p.1, Response.emitted p.2)))
      ((s.withMaxRetx m).commit (x' >>= fun p => pure (p.1, Response.emitted p.2))) :=
  .commit (.bind h fun _ => .ok _ _)

/-- No command but RDREG reads MAX_RETX_ATTEMPTS. -/
theorem exec_mirrorsOutcome {i : Instr} (hi : ∀ a, i ≠ .rdreg a) :
    MirrorsOutcome m (exec i s) (exec i (s.withMaxRetx m)) := by
  cases i with
  | sqWrap a b => exact .unlessFaulted <| .ite (.respond _) (.reject _)
  | sqUnwrap a b c => exact .unlessFaulted <| .ite (.respond _) (.reject _)
  | bsPush sel data =>
    exact .unlessFaulted <| .ite (.reject _) <|
      .ite (.commit <| .bind_same (bsPush s.block.bsOut data) fun _ => .ok _ _) (.reject _)
  | bsClose sel => exact .unlessFaulted <| .ite (.reject _) <| .commit (.ok _ _)
  | bsSeterr sel => cases sel <;> exact .unlessFaulted <| .commit (.ok _ _)
  | bsPeek sel => cases sel <;> exact .unlessFaulted (.respond _)
  | bsPop sel n =>
    exact .unlessFaulted <| .ite (.reject _) <| .commit <|
      .bind_same (bsPop s.block.cfg.popPolicy s.block.bsIn n.toNat) fun _ => .ok _ _
  | raInsert last first data =>
    exact .unlessFaulted <| .ite
      (.commit <| .bind_same (raInsert s.block.ra s.block.bsIn first.toNat data last) fun _ => .ok _ _)
      (.reject _)
  | rxRecv sd =>
    exact .unlessFaulted <| .descriptor <| .commit <| .bind (rxReceive_mirrors m s.block _) fun _ => .ok _ _
  | rxSend => exact .unlessFaulted (.respond _)
  | txPush => exact .unlessFaulted <| .commit_emitted (txPasses_mirrors m s.block emitSM_ignoresMaxRetx _)
  | txRecv sd =>
    exact .unlessFaulted <| .descriptor <| .commit <|
      congrArg (fun b => Except.ok (b, Response.done)) (txReceive_withMaxRetx m s.block _)
  | txTick ms => exact .unlessFaulted <| .commit_emitted (txTick_mirrors m s.block emitSM_ignoresMaxRetx _)
  | txEmpty => exact .unlessFaulted (.respond _)
  | prRecv sd =>
    exact .unlessFaulted <| .withPeer <| .descriptor <| .ite
      (.commit_emitted (prReceive_mirrors m s.block _ _)) (.respond _)
  | prPush =>
    exact .unlessFaulted <| .withPeer <| .commit_emitted (txPasses_mirrors m s.block emitMerged_ignoresMaxRetx _)
  | prTick ms => exact .unlessFaulted <| .withPeer <| .commit_emitted (prTick_mirrors m s.block _)
  | rdreg a => exact absurd rfl (hi a)

end Commands

/-- Settles O29: every function a command but RDREG runs commutes with writing MAX_RETX_ATTEMPTS. -/
theorem giveUpIsOnlyAStatusBit : Obligations.GiveUpIsOnlyAStatusBit :=
  fun _ _ t _ hi h => exec_mirrorsOutcome hi t h

/-! ## The registers after reset (70_reset_and_hazards.md R343) -/

/-- A register's address with the value it reads in `s`. -/
def State.registerEntry (s : State) (r : Register) : U64 × U64 :=
  (BitVec.ofNat 64 r.address, r.value s.block)

/-- With the PRU every register reads its value at its address. -/
theorem State.reads_registerEntry {s : State} (hp : s.block.cfg.hasPeer = true) (r : Register) :
    s.Reads (s.registerEntry r) :=
  .peer hp r (Nat.mod_eq_of_lt (by cases r <;> decide)) rfl

/-- The registers in the order in which R343 lists their values after reset. -/
def Register.inResetOrder : List Register :=
  [.id, .cfgFlags, .cfgInitialRto, .cfgIsn, .cfgMaxPayload, .cfgMaxRetx, .cfgWindowCap, .cfgMaxDataLen,
   .inCapacity, .outCapacity, .inBytesPushed, .inBytesPopped, .inBytesBuffered, .outBytesPushed,
   .outBytesPopped, .outBytesBuffered, .inAvailable, .outAvailable, .inStatus, .outStatus, .raNextIndex,
   .raEndIndex, .raStatus, .raBytesPending, .rxStatus, .rxZeroPoint, .txZeroPoint, .txBytesSent,
   .txBytesAcked, .txInFlight, .txWindow, .txTimerElapsed, .txRto, .txStatus, .txConsecRetx,
   .txOutstandingCount, .prStatus, .prCumulativeMs, .prLastReceiptMs, .sysStatus, .sysFaultCause]

/-- Settles O12: R343's list is each register's address with its value in the reset state. -/
theorem registersAfterReset : Obligations.RegistersAfterReset := by
  intro z s
  have hreads : ∀ p ∈ Register.inResetOrder.map s.registerEntry, s.Reads p :=
    List.forall_mem_map.2 fun r _ => State.reads_registerEntry rfl r
  exact hreads

end Sys2Proof.Machine
